-- ==== Sys2Proof/Word.lean ====
section
/-! DEFINITION. The words of the block (`00_scope.md` R10): every value of width N is an unsigned N-bit number, bit 0
least significant. -/

namespace Sys2Proof

/-- One byte of a frame's payload, of the serial line, or the `DATA` latch. -/
abbrev Byte := BitVec 8

/-- A register value or a byte offset of a register file (R62). -/
abbrev Word32 := BitVec 32

/-- A node index as every word of the block carries it (R8: `NODE_W = 8`). -/
abbrev NodeIdx := BitVec 8

/-- A frame in the carried form, `FR[103:0]` (R21). -/
abbrev Frame := BitVec 104

/-- A command word (R91). -/
abbrev CmdWord := BitVec 128

/-- A response word (R98). -/
abbrev RspWord := BitVec 128

/-- A notification word (R99). -/
abbrev NtfWord := BitVec 112

/-- A diagnostic event word (R100). -/
abbrev DiagWord := BitVec 36

end Sys2Proof
end

