-- ==== Sys2Proof/Syntax.lean ====
section
/-! DEFINITION. The instructions: one constructor per row of `spec/opcode_table.json` (R94, R97). The operands are the
fields the row's format carries and the operation reads (R91, R93); ignored and reserved bits are no part of an
instruction (R96). -/

namespace Sys2Proof

/-- The registers of the serial file (R33). -/
inductive SerReg where
  | baud | stat | ctrl | data
  deriving DecidableEq, Repr

/-- The registers of a node's bus-controller file (R31). -/
inductive BcReg where
  | mcr | ctrl | tfr | rfr
  deriving DecidableEq, Repr

/-- The 36 rows of the opcode table. `serrd`, `serwr`, `bcrd` and `bcwr` are the operation rows of format R; the
decoder resolves each of their words to one of the operation's sub-decode rows (R97, log entry 11). -/
inductive Instr where
  | init
  | attach (n : NodeIdx)
  | transmit (n : NodeIdx) (f : Frame)
  | enqueue (n : NodeIdx) (f : Frame)
  | dequeue (n : NodeIdx)
  | link (n : NodeIdx)
  | setnotify (n : NodeIdx)
  | realize (n : NodeIdx)
  | bcrd (n : NodeIdx) (off : Word32)
  | bcwr (n : NodeIdx) (off val : Word32)
  | serrd (off : Word32)
  | serwr (off val : Word32)
  | reserved0
  | reservedD
  | reservedE
  | reservedF
  | serrdBaud
  | serwrBaud (val : Word32)
  | serrdStat
  | serwrStat (val : Word32)
  | serrdCtrl
  | serwrCtrl (val : Word32)
  | serrdData
  | serwrData (val : Word32)
  | serrdUnknown (off : Word32)
  | serwrUnknown (off val : Word32)
  | bcrdMcr (n : NodeIdx)
  | bcwrMcr (n : NodeIdx) (val : Word32)
  | bcrdCtrl (n : NodeIdx)
  | bcwrCtrl (n : NodeIdx) (val : Word32)
  | bcrdTfr (n : NodeIdx)
  | bcwrTfr (n : NodeIdx) (val : Word32)
  | bcrdRfr (n : NodeIdx)
  | bcwrRfr (n : NodeIdx) (val : Word32)
  | bcrdUnknown (n : NodeIdx) (off : Word32)
  | bcwrUnknown (n : NodeIdx) (off val : Word32)
  deriving DecidableEq, Repr

end Sys2Proof
end

