-- ==== Sys2Proof/WellFormed.lean ====
section
/-! DEFINITION. Well-formed instructions. Every operand is a field of its format's width, so the one thing an
instruction can get wrong is to name an offset "unknown" that R97 gives to a register. -/

namespace Sys2Proof

/-- The serial offsets of R97. -/
def knownSerOffset (off : Word32) : Bool :=
  off == 0x10#32 || off == 0x14#32 || off == 0x18#32 || off == 0x1C#32

/-- The bus-controller offsets of R97. -/
def knownBcOffset (off : Word32) : Bool :=
  off == 0x00#32 || off == 0x04#32 || off == 0x08#32 || off == 0x0C#32

/-- The offset of an "unknown" row is none of the file's known offsets (R97, "any other value"). -/
def Instr.wf : Instr → Bool
  | .serrdUnknown off => !knownSerOffset off
  | .serwrUnknown off _ => !knownSerOffset off
  | .bcrdUnknown _ off => !knownBcOffset off
  | .bcwrUnknown _ off _ => !knownBcOffset off
  | .init | .attach _ | .transmit _ _ | .enqueue _ _ | .dequeue _ | .link _ | .setnotify _ | .realize _
  | .bcrd _ _ | .bcwr _ _ _ | .serrd _ | .serwr _ _ | .reserved0 | .reservedD | .reservedE | .reservedF
  | .serrdBaud | .serwrBaud _ | .serrdStat | .serwrStat _ | .serrdCtrl | .serwrCtrl _ | .serrdData | .serwrData _
  | .bcrdMcr _ | .bcwrMcr _ _ | .bcrdCtrl _ | .bcwrCtrl _ _ | .bcrdTfr _ | .bcwrTfr _ _ | .bcrdRfr _
  | .bcwrRfr _ _ => true

/-- The four operation rows of format R, whose words the decoder resolves to a sub-decode row (R97). -/
def Instr.isOperationRow : Instr → Bool
  | .bcrd _ _ | .bcwr _ _ _ | .serrd _ | .serwr _ _ => true
  | .init | .attach _ | .transmit _ _ | .enqueue _ _ | .dequeue _ | .link _ | .setnotify _ | .realize _
  | .reserved0 | .reservedD | .reservedE | .reservedF
  | .serrdBaud | .serwrBaud _ | .serrdStat | .serwrStat _ | .serrdCtrl | .serwrCtrl _ | .serrdData | .serwrData _
  | .serrdUnknown _ | .serwrUnknown _ _
  | .bcrdMcr _ | .bcwrMcr _ _ | .bcrdCtrl _ | .bcwrCtrl _ _ | .bcrdTfr _ | .bcwrTfr _ _ | .bcrdRfr _
  | .bcwrRfr _ _ | .bcrdUnknown _ _ | .bcwrUnknown _ _ _ => false

end Sys2Proof
end

