-- ==== Sys2Proof/Decode.lean ====
section
/-! DEFINITION. Decoding a command word and encoding an instruction (`30_encoding.md` R91 to R97). -/

namespace Sys2Proof

/-! ### The fields of a command word (R91, R93) -/

/-- `cmd_word[3:0]`. -/
def opField (w : CmdWord) : BitVec 4 := w.extractLsb' 0 4

/-- `cmd_word[11:4]`. -/
def nodeField (w : CmdWord) : NodeIdx := w.extractLsb' 4 8

/-- `cmd_word[119:16]`. -/
def frameField (w : CmdWord) : Frame := w.extractLsb' 16 104

/-- `cmd_word[47:16]`. -/
def offField (w : CmdWord) : Word32 := w.extractLsb' 16 32

/-- `cmd_word[79:48]`. -/
def valField (w : CmdWord) : Word32 := w.extractLsb' 48 32

/-! ### Decoding -/

/-- The row of R94's opcode map, from the opcode alone. -/
def operationRow (op : BitVec 4) (n : NodeIdx) (f : Frame) (off val : Word32) : Instr :=
  match op.toNat with
  | 0x0 => .reserved0
  | 0x1 => .init
  | 0x2 => .attach n
  | 0x3 => .transmit n f
  | 0x4 => .enqueue n f
  | 0x5 => .dequeue n
  | 0x6 => .link n
  | 0x7 => .setnotify n
  | 0x8 => .realize n
  | 0x9 => .bcrd n off
  | 0xA => .bcwr n off val
  | 0xB => .serrd off
  | 0xC => .serwr off val
  | 0xD => .reservedD
  | 0xE => .reservedE
  | _ => .reservedF

/-- The serial register at an offset, compared whole (R97, R63). -/
def serRegAt (off : Word32) : Option SerReg :=
  if off = 0x10#32 then some .baud
  else if off = 0x14#32 then some .stat
  else if off = 0x18#32 then some .ctrl
  else if off = 0x1C#32 then some .data
  else none

/-- The bus-controller register at an offset, compared whole (R97, R63). -/
def bcRegAt (off : Word32) : Option BcReg :=
  if off = 0x00#32 then some .mcr
  else if off = 0x04#32 then some .ctrl
  else if off = 0x08#32 then some .tfr
  else if off = 0x0C#32 then some .rfr
  else none

/-- The sub-decode row of a SERRD (R97). -/
def serrdRow (off : Word32) : Instr :=
  match serRegAt off with
  | some .baud => .serrdBaud
  | some .stat => .serrdStat
  | some .ctrl => .serrdCtrl
  | some .data => .serrdData
  | none => .serrdUnknown off

/-- The sub-decode row of a SERWR (R97). -/
def serwrRow (off val : Word32) : Instr :=
  match serRegAt off with
  | some .baud => .serwrBaud val
  | some .stat => .serwrStat val
  | some .ctrl => .serwrCtrl val
  | some .data => .serwrData val
  | none => .serwrUnknown off val

/-- The sub-decode row of a BCRD (R97). -/
def bcrdRow (n : NodeIdx) (off : Word32) : Instr :=
  match bcRegAt off with
  | some .mcr => .bcrdMcr n
  | some .ctrl => .bcrdCtrl n
  | some .tfr => .bcrdTfr n
  | some .rfr => .bcrdRfr n
  | none => .bcrdUnknown n off

/-- The sub-decode row of a BCWR (R97). -/
def bcwrRow (n : NodeIdx) (off val : Word32) : Instr :=
  match bcRegAt off with
  | some .mcr => .bcwrMcr n val
  | some .ctrl => .bcwrCtrl n val
  | some .tfr => .bcwrTfr n val
  | some .rfr => .bcwrRfr n val
  | none => .bcwrUnknown n off val

/-- Register sub-decode (R97): an operation row of format R becomes the row of its offset; every other row stands. -/
def Instr.subDecode : Instr → Instr
  | .serrd off => serrdRow off
  | .serwr off val => serwrRow off val
  | .bcrd n off => bcrdRow n off
  | .bcwr n off val => bcwrRow n off val
  | .init => .init
  | .attach n => .attach n
  | .transmit n f => .transmit n f
  | .enqueue n f => .enqueue n f
  | .dequeue n => .dequeue n
  | .link n => .link n
  | .setnotify n => .setnotify n
  | .realize n => .realize n
  | .reserved0 => .reserved0
  | .reservedD => .reservedD
  | .reservedE => .reservedE
  | .reservedF => .reservedF
  | .serrdBaud => .serrdBaud
  | .serwrBaud val => .serwrBaud val
  | .serrdStat => .serrdStat
  | .serwrStat val => .serwrStat val
  | .serrdCtrl => .serrdCtrl
  | .serwrCtrl val => .serwrCtrl val
  | .serrdData => .serrdData
  | .serwrData val => .serwrData val
  | .serrdUnknown off => .serrdUnknown off
  | .serwrUnknown off val => .serwrUnknown off val
  | .bcrdMcr n => .bcrdMcr n
  | .bcwrMcr n val => .bcwrMcr n val
  | .bcrdCtrl n => .bcrdCtrl n
  | .bcwrCtrl n val => .bcwrCtrl n val
  | .bcrdTfr n => .bcrdTfr n
  | .bcwrTfr n val => .bcwrTfr n val
  | .bcrdRfr n => .bcrdRfr n
  | .bcwrRfr n val => .bcwrRfr n val
  | .bcrdUnknown n off => .bcrdUnknown n off
  | .bcwrUnknown n off val => .bcwrUnknown n off val

/-- The operation a command word selects (R94). Total: the four opcodes that select no operation are the rows
RESERVED_0, RESERVED_D, RESERVED_E and RESERVED_F (R95). -/
def decodeOperation (w : CmdWord) : Instr :=
  operationRow (opField w) (nodeField w) (frameField w) (offField w) (valField w)

/-- The instruction a command word stands for (R94, then R97). -/
def decode (w : CmdWord) : Instr := (decodeOperation w).subDecode

/-- Why bits are no command. -/
inductive DecodeReject where
  /-- More bits than the one instruction length, 128 (R91, R101). Safe. -/
  | longerThanCommandWord
  deriving DecidableEq, Repr

/-- Decoding of `nbits` bits given as a number; bits the word does not give are 0 (log entry 18). -/
def decodeBits (nbits w : Nat) : Except DecodeReject Instr :=
  if nbits ≤ 128 then .ok (decode (BitVec.ofNat 128 (w % 2 ^ nbits))) else .error .longerThanCommandWord

/-- The instruction the decoder reads from a table row's bits (none where it rejects them). -/
def decodeTableWord (nbits w : Nat) : Option Instr :=
  match decodeBits nbits w with
  | .ok i => some i
  | .error _ => none

/-! ### Encoding -/

/-- A command word from its fields, the reserved bits [15:12] and [127:120] zero (R91). -/
def commandWord (op : BitVec 4) (n : NodeIdx) (payload : Frame) : CmdWord := 0#8 ++ payload ++ 0#4 ++ n ++ op

/-- The operand field of format R (R91): `off` at [47:16], `val` at [79:48]. -/
def registerPayload (off val : Word32) : Frame := 0#40 ++ val ++ off

/-- The command word of an instruction, ignored and reserved bits 0 (R91, R94, R97). -/
def encode : Instr → CmdWord
  | .reserved0 => commandWord 0x0 0 0
  | .init => commandWord 0x1 0 0
  | .attach n => commandWord 0x2 n 0
  | .transmit n f => commandWord 0x3 n f
  | .enqueue n f => commandWord 0x4 n f
  | .dequeue n => commandWord 0x5 n 0
  | .link n => commandWord 0x6 n 0
  | .setnotify n => commandWord 0x7 n 0
  | .realize n => commandWord 0x8 n 0
  | .bcrd n off => commandWord 0x9 n (registerPayload off 0)
  | .bcwr n off val => commandWord 0xA n (registerPayload off val)
  | .serrd off => commandWord 0xB 0 (registerPayload off 0)
  | .serwr off val => commandWord 0xC 0 (registerPayload off val)
  | .reservedD => commandWord 0xD 0 0
  | .reservedE => commandWord 0xE 0 0
  | .reservedF => commandWord 0xF 0 0
  | .serrdBaud => commandWord 0xB 0 (registerPayload 0x10 0)
  | .serwrBaud val => commandWord 0xC 0 (registerPayload 0x10 val)
  | .serrdStat => commandWord 0xB 0 (registerPayload 0x14 0)
  | .serwrStat val => commandWord 0xC 0 (registerPayload 0x14 val)
  | .serrdCtrl => commandWord 0xB 0 (registerPayload 0x18 0)
  | .serwrCtrl val => commandWord 0xC 0 (registerPayload 0x18 val)
  | .serrdData => commandWord 0xB 0 (registerPayload 0x1C 0)
  | .serwrData val => commandWord 0xC 0 (registerPayload 0x1C val)
  | .serrdUnknown off => commandWord 0xB 0 (registerPayload off 0)
  | .serwrUnknown off val => commandWord 0xC 0 (registerPayload off val)
  | .bcrdMcr n => commandWord 0x9 n (registerPayload 0x00 0)
  | .bcwrMcr n val => commandWord 0xA n (registerPayload 0x00 val)
  | .bcrdCtrl n => commandWord 0x9 n (registerPayload 0x04 0)
  | .bcwrCtrl n val => commandWord 0xA n (registerPayload 0x04 val)
  | .bcrdTfr n => commandWord 0x9 n (registerPayload 0x08 0)
  | .bcwrTfr n val => commandWord 0xA n (registerPayload 0x08 val)
  | .bcrdRfr n => commandWord 0x9 n (registerPayload 0x0C 0)
  | .bcwrRfr n val => commandWord 0xA n (registerPayload 0x0C val)
  | .bcrdUnknown n off => commandWord 0x9 n (registerPayload off 0)
  | .bcwrUnknown n off val => commandWord 0xA n (registerPayload off val)

/-- The bits of a command word that take part in what it does, by opcode (R91, R96): Z and the reserved opcodes the
opcode alone, N the node too, F the node and the frame, R the offset, the node for BCRD and BCWR, the value for BCWR
and SERWR. -/
def usedBits (op : BitVec 4) : CmdWord :=
  match op.toNat with
  | 0x2 | 0x5 | 0x6 | 0x7 | 0x8 => 0xFFF#128
  | 0x3 | 0x4 => 0x00FFFFFFFFFFFFFFFFFFFFFFFFFF0FFF#128
  | 0x9 => 0xFFFFFFFF0FFF#128
  | 0xA => 0xFFFFFFFFFFFFFFFF0FFF#128
  | 0xB => 0xFFFFFFFF000F#128
  | 0xC => 0xFFFFFFFFFFFFFFFF000F#128
  | _ => 0xF#128

end Sys2Proof
end

