-- ==== Sys2Proof/Config.lean ====
section
/-! DEFINITION. The parameters of the block (`00_scope.md` R8) and the free values: what the spec leaves unspecified
(`10_state.md` R42, `93_implementation_defined.md` U7). -/

namespace Sys2Proof

/-- The parameters of R8. They ride in the machine's state as a field no step changes, so that a statement about every
state is a statement about every block (log entry 1). -/
structure Config where
  /-- `N_NODES`, the number of node instances. -/
  nNodes : Nat
  /-- `BUS_CAP`, the capacity of the registry. -/
  busCap : Nat
  /-- `C`, the number of slots of every node's queue. -/
  queueCap : Nat
  /-- `N_PORTS`, the number of command ports. -/
  nPorts : Nat
  /-- `SER_IRQ_CLEAR_ON_READ`, whether a DATA read lowers the serial interrupt line. -/
  serIrqClearOnRead : Bool
  deriving DecidableEq, Repr

/-- The constraints of R8. -/
abbrev Config.wf (c : Config) : Prop :=
  1 ≤ c.nNodes ∧ c.nNodes ≤ 256 ∧ 1 ≤ c.busCap ∧ c.busCap ≤ 256 ∧ 2 ≤ c.queueCap ∧ 1 ≤ c.nPorts

/-- The block that `State.reset` is the reset state of. `C = 16` and `SER_IRQ_CLEAR_ON_READ = true` are R8's defaults;
the other three R8 leaves OPEN. DESIGN CHOICE (log entry 1), unsafe: claims are stated over every configuration. -/
def Config.default : Config where
  nNodes := 4
  busCap := 4
  queueCap := 16
  nPorts := 2
  serIrqClearOnRead := true

/-! Free values. DESIGN CHOICE (log entries 3 and 4), safe: no body, so nothing can be proved of what they are. -/

/-- What slot `i` of node `n` holds before anything was stored there (R42: "unspecified"). -/
opaque Config.freeSlot (n i : Nat) : Frame

/-- The latch `op[p]` at reset (R42: "unspecified; never read in IDLE"). -/
opaque Config.freeOp (p : Nat) : BitVec 4

/-- The latch `a_node[p]` at reset (R42). -/
opaque Config.freeNode (p : Nat) : NodeIdx

/-- The latch `a_frame[p]` at reset (R42). -/
opaque Config.freeFrame (p : Nat) : Frame

/-- The latch `a_off[p]` at reset (R42). -/
opaque Config.freeOff (p : Nat) : Word32

/-- The latch `a_val[p]` at reset (R42). -/
opaque Config.freeVal (p : Nat) : Word32

/-- The cursor `cur[p]` at reset (R42). -/
opaque Config.freeCur (p : Nat) : Nat

/-- The latch `tgt[p]` at reset (R42). -/
opaque Config.freeTgt (p : Nat) : NodeIdx

/-- The latch `r_hit[p]` at reset (R42). -/
opaque Config.freeHit (p : Nat) : Bool

/-- The latch `r_frame[p]` at reset (R42). -/
opaque Config.freeRFrame (p : Nat) : Frame

end Sys2Proof
end

