-- ==== Sys2Proof/Machine/State.lean ====
section
/-! DEFINITION. The state of the block (`10_state.md` R20), what can stop a step, and the reset state (R42). -/

namespace Sys2Proof.Machine

/-- What stops a step. The block itself raises no exception (`60_exceptions.md` R220). -/
inductive Fault where
  /-- Raised by `step` when the schedule names a command port the block does not have (`N_PORTS`, R8). It is the
  model's own guard (log entry 9). Safe: no agent of the hardware has such a step. -/
  | noSuchPort (p : Nat)
  deriving DecidableEq, Repr

/-- Why an instruction has no meaning. -/
inductive Refusal where
  /-- Raised by `exec` for an instruction without a meaning. No arm of `exec` raises it. Safe. -/
  | notModelled (mnemonic : String)
  deriving DecidableEq, Repr

/-- The control state of a port's sequencer (R38). -/
inductive Phase where
  | idle | exec | tScan | qAcq | qBody | qRel | tNtf
  deriving DecidableEq, Repr

/-- A node's lock (R27): FREE or HELD(p). -/
inductive Lock where
  | free
  | held (p : Nat)
  deriving DecidableEq, Repr

/-- The storage of one node's queue: the slots stored to since reset, as (index, frame) pairs with strictly rising
indices. A slot that is not listed has never been stored to (R42, log entry 4). -/
abbrev Memory := List (Nat × Frame)

/-- One node (R23, R24, R27 to R31). -/
structure Node where
  /-- `slot[n][0..C-1]`. -/
  slots : Memory
  /-- `head[n]`, the write index. -/
  head : Nat
  /-- `tail[n]`, the read index. -/
  tail : Nat
  /-- `lock[n]`. -/
  lock : Lock
  /-- `notify_en[n]`. -/
  notifyEn : Bool
  /-- `bus_ref[n]`. -/
  busRef : Bool
  /-- `realized[n]`. -/
  realized : Bool
  /-- `MCR[n]`. -/
  mcr : Word32
  /-- `CTRL_BC[n]`. -/
  ctrlBc : Word32
  /-- `TFR[n]`. -/
  tfr : Word32
  /-- `RFR[n]`. -/
  rfr : Word32
  deriving DecidableEq, Repr

/-- The serial register file (R33 to R37). -/
structure Serial where
  /-- `BAUD`. -/
  baud : Word32
  /-- `TDRE`, STAT bit 23. -/
  tdre : Bool
  /-- `RDRF`, STAT bit 21. -/
  rdrf : Bool
  /-- `CTRL_SER`, with TE at bit 19 and RE at bit 18. -/
  ctrl : Word32
  /-- `DATA`, the receive latch. -/
  data : Byte
  /-- `irq`, the level of the interrupt line. -/
  irq : Bool
  deriving DecidableEq, Repr

/-- One command port's sequencer (R38). -/
structure Port where
  /-- `phase[p]`. -/
  phase : Phase
  /-- `op[p]`. -/
  op : BitVec 4
  /-- `a_node[p]`. -/
  aNode : NodeIdx
  /-- `a_frame[p]`. -/
  aFrame : Frame
  /-- `a_off[p]`. -/
  aOff : Word32
  /-- `a_val[p]`. -/
  aVal : Word32
  /-- `cur[p]`, the broadcast cursor. -/
  cur : Nat
  /-- `tgt[p]`, the node whose queue is being accessed. -/
  tgt : NodeIdx
  /-- `r_hit[p]`. -/
  rHit : Bool
  /-- `r_frame[p]`. -/
  rFrame : Frame
  deriving DecidableEq, Repr

/-- A step that the schedule names (R9, D12): the sequencer's own step, or a step of the environment (R267). -/
inductive Event where
  /-- The environment presents command word `w` on port `p` (R120). -/
  | accept (p : Nat) (w : CmdWord)
  /-- Port `p`'s sequencer takes its next step (R121, R125, R150 to R153). -/
  | run (p : Nat)
  /-- The environment acknowledges the notification pending on port `p` (R128). -/
  | ack (p : Nat)
  /-- A byte arrives on the serial input (R184). -/
  | rx (b : Byte)
  /-- `rst` is 1 at a clock edge (R250). -/
  | rst
  deriving DecidableEq, Repr

/-- Where a diagnostic event appears (R100): the port whose command caused it, or port RX. -/
inductive DiagPort where
  | port (p : Nat)
  | rx
  deriving DecidableEq, Repr

/-- An output event (R39). -/
inductive Output where
  /-- A response word on port `p` (R98). -/
  | response (p : Nat) (w : RspWord)
  /-- A notification presented on port `p`'s notification channel (R99, R127). -/
  | notification (p : Nat) (w : NtfWord)
  /-- A diagnostic event (R100). -/
  | diagnostic (p : DiagPort) (w : DiagWord)
  /-- A byte to the serial output sink (R185). -/
  | tx (b : Byte)
  deriving DecidableEq, Repr

/-- The state of the block, and the model's own fields `cfg`, `schedule`, `active` and `history`. -/
structure State where
  /-- The parameters of R8; no step changes them (log entry 1). -/
  cfg : Config
  /-- `reg[0], ..., reg[reg_count-1]`; `reg_count` is its length (R22, log entry 5). -/
  registry : List NodeIdx
  /-- The `N_NODES` nodes, node `n` at position `n`. -/
  nodes : List Node
  /-- The serial register file. -/
  serial : Serial
  /-- The `N_PORTS` sequencers, port `p` at position `p`. -/
  ports : List Port
  /-- The model's own: the port whose sequencer takes the step (log entry 7). -/
  active : Nat
  /-- The model's own: the steps still to come, next first (R40, log entry 2). -/
  schedule : List Event
  /-- The model's own: the output events so far, latest last (R39, log entry 6). -/
  history : List Output
  deriving DecidableEq, Repr

/-- `reg_count` (R22). -/
def State.regCount (s : State) : Nat := s.registry.length

/-- A node right after reset (R42). -/
def Node.reset : Node where
  slots := []
  head := 0
  tail := 0
  lock := .free
  notifyEn := false
  busRef := false
  realized := false
  mcr := 0
  ctrlBc := 0
  tfr := 0
  rfr := 0

/-- The serial register file right after reset (R42). -/
def Serial.reset : Serial where
  baud := 0
  tdre := false
  rdrf := false
  ctrl := 0
  data := 0
  irq := false

/-- Port `p` right after reset (R42): IDLE, and every latch unspecified (log entry 3). -/
def Port.reset (p : Nat) : Port where
  phase := .idle
  op := Config.freeOp p
  aNode := Config.freeNode p
  aFrame := Config.freeFrame p
  aOff := Config.freeOff p
  aVal := Config.freeVal p
  cur := Config.freeCur p
  tgt := Config.freeTgt p
  rHit := Config.freeHit p
  rFrame := Config.freeRFrame p

/-- The reset state of a block with parameters `c` (R42, R250). -/
def State.resetOf (c : Config) : State where
  cfg := c
  registry := []
  nodes := List.replicate c.nNodes Node.reset
  serial := Serial.reset
  ports := (List.range c.nPorts).map Port.reset
  active := 0
  schedule := []
  history := []

/-- The machine right after reset (R42), with the parameters of log entry 1 and nothing scheduled. -/
def State.reset : State := State.resetOf Config.default

end Sys2Proof.Machine
end

