-- ==== Sys2Proof/Machine/Operands.lean ====
section
/-! DEFINITION. Operands and the words the block emits: the fields of a frame (R21), node and register operands (R93,
R132), the instruction latched on a port (R38), response, notification and diagnostic words (R98 to R100). -/

namespace Sys2Proof.Machine

/-! ### Frames (R21) -/

/-- `id = FR[31:0]`. -/
def frameId (f : Frame) : Word32 := f.extractLsb' 0 32

/-- `data[k] = FR[39+8k : 32+8k]`, for `k = 0..7`. -/
def frameData (f : Frame) (k : Nat) : Byte := f.extractLsb' (32 + 8 * k) 8

/-- `dlc = FR[103:96]`. -/
def frameDlc (f : Frame) : Byte := f.extractLsb' 96 8

/-- The 104-bit frame with the given identifier, payload bytes `d0..d7` and length code. -/
def frameOf (id : Word32) (d0 d1 d2 d3 d4 d5 d6 d7 dlc : Byte) : Frame :=
  dlc ++ d7 ++ d6 ++ d5 ++ d4 ++ d3 ++ d2 ++ d1 ++ d0 ++ id

/-! ### Opcodes (R94) -/

/-- The commands that use their node field (R120, `uses_node`). -/
def usesNode (op : BitVec 4) : Bool :=
  match op.toNat with
  | 0x2 | 0x3 | 0x4 | 0x5 | 0x6 | 0x7 | 0x8 | 0x9 | 0xA => true
  | _ => false

/-- TRANSMIT's opcode. -/
def opTransmit : BitVec 4 := 0x3

/-- ENQUEUE's opcode. -/
def opEnqueue : BitVec 4 := 0x4

/-- DEQUEUE's opcode. -/
def opDequeue : BitVec 4 := 0x5

/-- A node operand that names no node: `>= N_NODES` (R132). -/
def badNode (c : Config) (n : NodeIdx) : Bool := decide (c.nNodes ≤ n.toNat)

/-- The first phase of an accepted command (R120). -/
def firstPhase (c : Config) (op : BitVec 4) (n : NodeIdx) : Phase :=
  if usesNode op && badNode c n then .exec
  else if op = opTransmit then .tScan
  else if op = opEnqueue ∨ op = opDequeue then .qAcq
  else .exec

/-- The instruction latched on a port, resolved to its sub-decode row (R38, R94, R97). -/
def Port.instr (q : Port) : Instr := (operationRow q.op q.aNode q.aFrame q.aOff q.aVal).subDecode

/-! ### Words the block emits -/

/-- The response word (R98): `op` at [3:0], `hit` at [4], the payload at [119:16], every other bit 0. -/
def responseWord (op : BitVec 4) (hit : Bool) (payload : Frame) : RspWord :=
  0#8 ++ payload ++ 0#11 ++ BitVec.ofBool hit ++ op

/-- The payload of a register read (R98): the value in response bits [47:16]. -/
def valuePayload (v : Word32) : Frame := v.setWidth 104

/-- The notification word (R99): the receiving node at [7:0], the frame at [111:8]. -/
def notificationWord (n : NodeIdx) (f : Frame) : NtfWord := f ++ n

/-- The conditions a diagnostic event reports (R100). -/
inductive DiagCode where
  | attachFull | attachDup | serTxDisabled | serRxDisabled | serBadRead | serBadWrite | bcBadRead | bcBadWrite
  | badOpcode | badNode
  deriving DecidableEq, Repr

/-- The code of a condition (R100). -/
def diagCode : DiagCode → BitVec 4
  | .attachFull => 0x1
  | .attachDup => 0x2
  | .serTxDisabled => 0x3
  | .serRxDisabled => 0x4
  | .serBadRead => 0x5
  | .serBadWrite => 0x6
  | .bcBadRead => 0x7
  | .bcBadWrite => 0x8
  | .badOpcode => 0x9
  | .badNode => 0xA

/-- The diagnostic event word (R100): `code` at [3:0], `info` at [35:4]. -/
def diagnosticWord (c : DiagCode) (info : Word32) : DiagWord := info ++ diagCode c

end Sys2Proof.Machine
end

