-- ==== Sys2Proof/Machine/Flags.lean ====
section
/-! DEFINITION. Condition codes and status flags: the empty condition and the apparent occupancy of a queue (R25, R26),
and the serial flags (R34, R35, R37). -/

namespace Sys2Proof.Machine

/-- The empty condition, the only test the block makes on a queue (R25). -/
def Node.isEmpty (m : Node) : Bool := m.head == m.tail

/-- The apparent occupancy `(head - tail) mod C` (R26), for indices below `C`. -/
def Node.occ (c : Nat) (m : Node) : Nat := (m.head + c - m.tail) % c

/-- The index after `x` (R156). -/
def nextIndex (c x : Nat) : Nat := (x + 1) % c

/-- TE of a CTRL value (R35): bit 19. -/
def teBit (v : Word32) : Bool := v.getLsbD 19

/-- RE of a CTRL value (R35): bit 18. -/
def reBit (v : Word32) : Bool := v.getLsbD 18

/-- The 32-bit value of STAT (R172): `TDRE` at bit 23, `RDRF` at bit 21, every other bit 0. -/
def Serial.stat (r : Serial) : Word32 :=
  ((BitVec.ofBool r.tdre).setWidth 32 <<< 23) ||| ((BitVec.ofBool r.rdrf).setWidth 32 <<< 21)

/-- A CTRL write (R179): the value is stored, and `TDRE` is set if the value has TE set. -/
def Serial.writeCtrl (r : Serial) (v : Word32) : Serial := { r with ctrl := v, tdre := r.tdre || teBit v }

/-- The side effect of a DATA read (R174): `RDRF` is cleared, and the line is lowered if the parameter says so. -/
def Serial.readData (r : Serial) (clearIrq : Bool) : Serial := { r with rdrf := false, irq := r.irq && !clearIrq }

/-- A byte is latched (R184). -/
def Serial.receive (r : Serial) (b : Byte) : Serial := { r with data := b, rdrf := true, irq := true }

end Sys2Proof.Machine
end

