-- ==== Sys2Proof/Machine/Ops.lean ====
section
/-! DEFINITION. The named operations over State that the meanings and the environment's steps are made of: queue
storage, access to nodes and ports, output events, the registration procedure, and the atomic steps of `40_bus.md` and
`41_node_queue.md`.

The block raises no exception (`60_exceptions.md` R220), so there is no exception to take. Its interrupt-like call-out
is the delivery notification: `State.notify` enters it and `State.ntfAck` returns from it (R226, R229). -/

namespace Sys2Proof.Machine

/-- What one step of an instruction answers. -/
abbrev Answer := Host.Outcome State Fault Refusal

/-! ### Queue storage (R24, R65) -/

/-- The frame in slot `i`, if one was stored there. -/
def Memory.read? : Memory → Nat → Option Frame
  | [], _ => none
  | (k, f) :: m, i => if k = i then some f else Memory.read? m i

/-- Store a whole frame in slot `i`; the list stays sorted by index. -/
def Memory.write : Memory → Nat → Frame → Memory
  | [], i, f => [(i, f)]
  | (k, g) :: m, i, f =>
    if i < k then (i, f) :: (k, g) :: m
    else if i = k then (i, f) :: m
    else (k, g) :: Memory.write m i f

/-- The canonical form: indices strictly rising. -/
abbrev Memory.wf (m : Memory) : Prop := (m.map Prod.fst).Pairwise (· < ·)

/-! ### Nodes and ports -/

/-- Node `n`. -/
def State.node (s : State) (n : NodeIdx) : Node := s.nodes.getD n.toNat Node.reset

/-- Change node `n`. -/
def State.updNode (s : State) (n : NodeIdx) (g : Node → Node) : State :=
  { s with nodes := s.nodes.modify n.toNat g }

/-- Port `p`'s sequencer. -/
def State.port (s : State) (p : Nat) : Port := s.ports.getD p (Port.reset p)

/-- Change port `p`'s sequencer. -/
def State.updPort (s : State) (p : Nat) (g : Port → Port) : State := { s with ports := s.ports.modify p g }

/-- Move port `p`'s sequencer to a phase (R11). -/
def State.setPhase (s : State) (p : Nat) (ph : Phase) : State := s.updPort p fun q => { q with phase := ph }

/-- The frame held in slot `i` of node `n`'s queue: what was stored there last, else a free value (log entry 4). -/
def State.slot (s : State) (n : NodeIdx) (i : Nat) : Frame :=
  (Memory.read? (s.node n).slots i).getD (Config.freeSlot n.toNat i)

/-- `cmd_ready[p]` (R90). -/
def State.cmdReady (s : State) (p : Nat) : Bool := (s.port p).phase == .idle

/-- `ntf_valid[p]` (R90, R127). -/
def State.ntfValid (s : State) (p : Nat) : Bool := (s.port p).phase == .tNtf

/-- `ntf_word[p]` (R99, R127). -/
def State.ntfWord (s : State) (p : Nat) : NtfWord := notificationWord (s.port p).tgt (s.port p).aFrame

/-- `ser_irq` (R90, R37). -/
def State.serIrq (s : State) : Bool := s.serial.irq

/-! ### Output events (R39) -/

/-- Record an output event. -/
def State.emit (s : State) (o : Output) : State := { s with history := s.history ++ [o] }

/-- `diag(p, code, info)` (R11, R100). -/
def State.diag (s : State) (p : Nat) (c : DiagCode) (info : Word32) : State :=
  s.emit (.diagnostic (.port p) (diagnosticWord c info))

/-- `respond(p, hit, payload)` for the operation with opcode `op`: the response word, and the port is IDLE (R11, R98). -/
def State.respond (s : State) (p : Nat) (op : BitVec 4) (hit : Bool) (payload : Frame) : State :=
  (s.emit (.response p (responseWord op hit payload))).setPhase p .idle

/-- `respond(p, 0, 0)`, a bare completion. -/
def State.complete (s : State) (p : Nat) (op : BitVec 4) : State := s.respond p op false 0

/-- The response to a register read (R98). -/
def State.respondValue (s : State) (p : Nat) (op : BitVec 4) (v : Word32) : State :=
  s.respond p op false (valuePayload v)

/-! ### The registry (R22, R123) -/

/-- `Register(p, n)` (R123), shared by ATTACH and REALIZE: the duplicate test comes first. -/
def State.register (s : State) (p : Nat) (n : NodeIdx) : State :=
  if n ∈ s.registry then s.diag p .attachDup (n.setWidth 32)
  else if s.registry.length < s.cfg.busCap then { s with registry := s.registry ++ [n] }
  else s.diag p .attachFull (n.setWidth 32)

/-! ### Single-step operations (R121) -/

/-- The EXEC step of the active port: enabled in phase EXEC only; in another phase the sequencer waits (log entry 8). -/
def State.execStep (s : State) (effect : State → State) : Answer :=
  if (s.port s.active).phase = .exec then .next (effect s) else .next s

/-- A command with a bad node index (R132): reported, answered with a bare completion. -/
def State.rejectNode (s : State) (op : BitVec 4) (n : NodeIdx) : State :=
  (s.diag s.active .badNode (n.setWidth 32)).complete s.active op

/-- The EXEC step of a command that uses its node field `n` (R121, R132). -/
def State.execNodeStep (s : State) (op : BitVec 4) (n : NodeIdx) (effect : State → State) : Answer :=
  s.execStep fun s => if badNode s.cfg n then s.rejectNode op n else effect s

/-- The EXEC step of a queue operation, which only a bad node index leads to (R120, R132); with a node that exists no
rule gives a step and the sequencer waits (log entry 16). -/
def State.queueExec (s : State) (op : BitVec 4) (n : NodeIdx) : Answer :=
  if badNode s.cfg n then .next (s.rejectNode op n) else .next s

/-! ### The steps of a queue access (`41_node_queue.md`) -/

/-- QAcq (R150): enabled when the target's lock is FREE; otherwise port `p` waits. -/
def State.qAcq (s : State) (p : Nat) : State :=
  let n := (s.port p).tgt
  if (s.node n).lock = .free then (s.updNode n fun m => { m with lock := .held p }).setPhase p .qBody else s

/-- The store body on a node (R151): store at `head`, advance `head`; unconditional. -/
def Node.store (c : Nat) (m : Node) (f : Frame) : Node :=
  { m with slots := Memory.write m.slots m.head f, head := nextIndex c m.head }

/-- QBodyStore (R151). -/
def State.qBodyStore (s : State) (p : Nat) (f : Frame) : State :=
  (s.updNode (s.port p).tgt fun m => m.store s.cfg.queueCap f).setPhase p .qRel

/-- The load body on a node that is not empty (R152): advance `tail`; the slot keeps its frame. -/
def Node.load (c : Nat) (m : Node) : Node := { m with tail := nextIndex c m.tail }

/-- QBodyLoad (R152). -/
def State.qBodyLoad (s : State) (p : Nat) : State :=
  let n := (s.port p).tgt
  let m := s.node n
  if m.isEmpty then (s.updPort p fun q => { q with rHit := false }).setPhase p .qRel
  else
    ((s.updNode n fun m => m.load s.cfg.queueCap).updPort p fun q =>
      { q with rHit := true, rFrame := s.slot n m.tail }).setPhase p .qRel

/-- `lock[tgt[p]] <- FREE`, the first effect of every QRel (R153). -/
def State.unlock (s : State) (p : Nat) : State := s.updNode (s.port p).tgt fun m => { m with lock := .free }

/-! ### The steps of a broadcast (`40_bus.md`) -/

/-- The cursor moves to the next registry position and the sequencer scans again (R125, R128, R153). -/
def State.advance (s : State) (p : Nat) : State := s.updPort p fun q => { q with cur := q.cur + 1, phase := .tScan }

/-- TScan (R125) of a broadcast with sender `snd`; the registry is read as it is at this step. -/
def State.tScan (s : State) (p : Nat) (snd : NodeIdx) : State :=
  match s.registry[(s.port p).cur]? with
  | none => s.complete p opTransmit
  | some e =>
    if e = snd then s.advance p
    else s.updPort p fun q => { q with tgt := e, phase := .qAcq }

/-- `notify(p, tgt[p], f)` (R127): the notification is presented and the sequencer holds in T_NTF. -/
def State.notify (s : State) (p : Nat) (f : Frame) : State :=
  (s.emit (.notification p (notificationWord (s.port p).tgt f))).setPhase p .tNtf

/-- QRel of a TRANSMIT (R153): `notify_en` is read in this step. -/
def State.qRelTransmit (s : State) (p : Nat) (f : Frame) : State :=
  if (s.node (s.port p).tgt).notifyEn then (s.unlock p).notify p f else (s.unlock p).advance p

/-- QRel of a DEQUEUE (R153). -/
def State.qRelDequeue (s : State) (p : Nat) : State :=
  if (s.port p).rHit then (s.unlock p).respond p opDequeue true (s.port p).rFrame
  else (s.unlock p).complete p opDequeue

/-! ### Steps of the environment -/

/-- The latches of an accepted command (R120): all are loaded for every opcode; `tgt` only for a queue operation. -/
def Port.latch (c : Config) (w : CmdWord) (q : Port) : Port :=
  { q with
    phase := firstPhase c (opField w) (nodeField w)
    op := opField w
    aNode := nodeField w
    aFrame := frameField w
    aOff := offField w
    aVal := valField w
    cur := 0
    tgt := if firstPhase c (opField w) (nodeField w) = .qAcq then nodeField w else q.tgt }

/-- Load a command into port `p`. -/
def State.latch (s : State) (p : Nat) (w : CmdWord) : State := s.updPort p (Port.latch s.cfg w)

/-- Accept(p, w) (R120): enabled when the port is IDLE; a busy port takes nothing (log entry 8). -/
def State.accept (s : State) (p : Nat) (w : CmdWord) : State :=
  if (s.port p).phase = .idle then s.latch p w else s

/-- NtfAck(p) (R128): the return from a notification, enabled in T_NTF. -/
def State.ntfAck (s : State) (p : Nat) : State := if (s.port p).phase = .tNtf then s.advance p else s

/-- Rx(b) (R184), enabled in every state. -/
def State.rx (s : State) (b : Byte) : State :=
  if reBit s.serial.ctrl then { s with serial := s.serial.receive b }
  else s.emit (.diagnostic .rx (diagnosticWord .serRxDisabled (b.setWidth 32)))

/-- Hardware reset (R250): every state element takes its reset value. The parameters, the steps still to come and the
record of outputs are not state of the block and stay (log entry 14). -/
def State.hardReset (s : State) : State :=
  { State.resetOf s.cfg with schedule := s.schedule, history := s.history }

end Sys2Proof.Machine
end

