-- ==== Sys2Proof/Machine/Bus.lean ====
section
/-! DEFINITION. The Bus family (`40_bus.md`): INIT, ATTACH, TRANSMIT, LINK, SETNOTIFY and the reserved opcodes. Each
meaning is the next step of the instruction in flight on the active port. -/

namespace Sys2Proof.Machine

/-- INIT (R122): empty the registry, and nothing else. -/
def execInit (s : State) : Answer := s.execStep fun s => { s with registry := [] }.complete s.active 0x1

/-- ATTACH (R123). -/
def execAttach (n : NodeIdx) (s : State) : Answer :=
  s.execNodeStep 0x2 n fun s => (s.register s.active n).complete s.active 0x2

/-- TRANSMIT (R124): the next step of the broadcast of `f` from sender `n`; in T_NTF the sequencer waits for the
acknowledgement (R128). -/
def execTransmit (n : NodeIdx) (f : Frame) (s : State) : Answer :=
  match (s.port s.active).phase with
  | .exec => s.queueExec opTransmit n
  | .tScan => .next (s.tScan s.active n)
  | .qAcq => .next (s.qAcq s.active)
  | .qBody => .next (s.qBodyStore s.active f)
  | .qRel => .next (s.qRelTransmit s.active f)
  | .tNtf | .idle => .next s

/-- LINK (R129). -/
def execLink (n : NodeIdx) (s : State) : Answer :=
  s.execNodeStep 0x6 n fun s => (s.updNode n fun m => { m with busRef := true }).complete s.active 0x6

/-- SETNOTIFY (R130). -/
def execSetnotify (n : NodeIdx) (s : State) : Answer :=
  s.execNodeStep 0x7 n fun s => (s.updNode n fun m => { m with notifyEn := true }).complete s.active 0x7

/-- The EXEC step of a reserved opcode (R131): reported, answered with a bare completion. -/
def State.reservedOpcode (s : State) (op : BitVec 4) : State :=
  (s.diag s.active .badOpcode (op.setWidth 32)).complete s.active op

/-- RESERVED_0 (R131). -/
def execReserved0 (s : State) : Answer := s.execStep fun s => s.reservedOpcode 0x0

/-- RESERVED_D (R131). -/
def execReservedD (s : State) : Answer := s.execStep fun s => s.reservedOpcode 0xD

/-- RESERVED_E (R131). -/
def execReservedE (s : State) : Answer := s.execStep fun s => s.reservedOpcode 0xE

/-- RESERVED_F (R131). -/
def execReservedF (s : State) : Answer := s.execStep fun s => s.reservedOpcode 0xF

end Sys2Proof.Machine
end

