-- ==== Sys2Proof/Machine/BusController.lean ====
section
/-! DEFINITION. The Bus-Controller register file family (`43_bus_controller_regfile.md`): REALIZE, BCRD, BCWR and their
sub-decode rows. -/

namespace Sys2Proof.Machine

/-- The effect of REALIZE on a node that exists (R203): the first time, the flag is set and, if the node has its bus
reference, the node is registered as ATTACH registers it; afterwards nothing. -/
def State.realizeNode (s : State) (p : Nat) (n : NodeIdx) : State :=
  if (s.node n).realized then s
  else
    let s' := s.updNode n fun m => { m with realized := true }
    if (s.node n).busRef then s'.register p n else s'

/-- REALIZE (R203). -/
def execRealize (n : NodeIdx) (s : State) : Answer :=
  s.execNodeStep 0x8 n fun s => (s.realizeNode s.active n).complete s.active 0x8

/-- BCRD at MCR (R200). -/
def execBcrdMcr (n : NodeIdx) (s : State) : Answer :=
  s.execNodeStep 0x9 n fun s => s.respondValue s.active 0x9 (s.node n).mcr

/-- BCRD at CTRL (R200). -/
def execBcrdCtrl (n : NodeIdx) (s : State) : Answer :=
  s.execNodeStep 0x9 n fun s => s.respondValue s.active 0x9 (s.node n).ctrlBc

/-- BCRD at TFR (R200). -/
def execBcrdTfr (n : NodeIdx) (s : State) : Answer :=
  s.execNodeStep 0x9 n fun s => s.respondValue s.active 0x9 (s.node n).tfr

/-- BCRD at RFR (R200). -/
def execBcrdRfr (n : NodeIdx) (s : State) : Answer :=
  s.execNodeStep 0x9 n fun s => s.respondValue s.active 0x9 (s.node n).rfr

/-- BCRD at any other offset (R202): value 0, reported. -/
def execBcrdUnknown (n : NodeIdx) (off : Word32) (s : State) : Answer :=
  s.execNodeStep 0x9 n fun s => (s.diag s.active .bcBadRead off).respondValue s.active 0x9 0

/-- BCRD (R200): the register at `off`. -/
def execBcrd (n : NodeIdx) (off : Word32) (s : State) : Answer :=
  match bcRegAt off with
  | some .mcr => execBcrdMcr n s
  | some .ctrl => execBcrdCtrl n s
  | some .tfr => execBcrdTfr n s
  | some .rfr => execBcrdRfr n s
  | none => execBcrdUnknown n off s

/-- BCWR at MCR (R201). -/
def execBcwrMcr (n : NodeIdx) (val : Word32) (s : State) : Answer :=
  s.execNodeStep 0xA n fun s => (s.updNode n fun m => { m with mcr := val }).complete s.active 0xA

/-- BCWR at CTRL (R201). -/
def execBcwrCtrl (n : NodeIdx) (val : Word32) (s : State) : Answer :=
  s.execNodeStep 0xA n fun s => (s.updNode n fun m => { m with ctrlBc := val }).complete s.active 0xA

/-- BCWR at TFR (R201). -/
def execBcwrTfr (n : NodeIdx) (val : Word32) (s : State) : Answer :=
  s.execNodeStep 0xA n fun s => (s.updNode n fun m => { m with tfr := val }).complete s.active 0xA

/-- BCWR at RFR (R201). -/
def execBcwrRfr (n : NodeIdx) (val : Word32) (s : State) : Answer :=
  s.execNodeStep 0xA n fun s => (s.updNode n fun m => { m with rfr := val }).complete s.active 0xA

/-- BCWR at any other offset (R202): nothing changes, reported. -/
def execBcwrUnknown (n : NodeIdx) (off _val : Word32) (s : State) : Answer :=
  s.execNodeStep 0xA n fun s => (s.diag s.active .bcBadWrite off).complete s.active 0xA

/-- BCWR (R201): the register at `off`. -/
def execBcwr (n : NodeIdx) (off val : Word32) (s : State) : Answer :=
  match bcRegAt off with
  | some .mcr => execBcwrMcr n val s
  | some .ctrl => execBcwrCtrl n val s
  | some .tfr => execBcwrTfr n val s
  | some .rfr => execBcwrRfr n val s
  | none => execBcwrUnknown n off val s

end Sys2Proof.Machine
end

