-- ==== Sys2Proof/Machine/NodeQueue.lean ====
section
/-! DEFINITION. The Node Queue family (`41_node_queue.md`): ENQUEUE and DEQUEUE. Each meaning is the next step of the
instruction in flight on the active port; the node accessed is `tgt[p]`, which Accept has set to the node operand. -/

namespace Sys2Proof.Machine

/-- ENQUEUE (R154): QAcq, the store body, QRel. -/
def execEnqueue (n : NodeIdx) (f : Frame) (s : State) : Answer :=
  match (s.port s.active).phase with
  | .exec => s.queueExec opEnqueue n
  | .qAcq => .next (s.qAcq s.active)
  | .qBody => .next (s.qBodyStore s.active f)
  | .qRel => .next ((s.unlock s.active).complete s.active opEnqueue)
  | .tScan | .tNtf | .idle => .next s

/-- DEQUEUE (R155): QAcq, the load body, QRel. -/
def execDequeue (n : NodeIdx) (s : State) : Answer :=
  match (s.port s.active).phase with
  | .exec => s.queueExec opDequeue n
  | .qAcq => .next (s.qAcq s.active)
  | .qBody => .next (s.qBodyLoad s.active)
  | .qRel => .next (s.qRelDequeue s.active)
  | .tScan | .tNtf | .idle => .next s

end Sys2Proof.Machine
end

