-- ==== Sys2Proof/Machine/SerialFile.lean ====
section
/-! DEFINITION. The Serial register file family (`42_serial_regfile.md`): SERRD, SERWR and their sub-decode rows. -/

namespace Sys2Proof.Machine

/-- SERRD at BAUD (R171). -/
def execSerrdBaud (s : State) : Answer := s.execStep fun s => s.respondValue s.active 0xB s.serial.baud

/-- SERRD at STAT (R172). -/
def execSerrdStat (s : State) : Answer := s.execStep fun s => s.respondValue s.active 0xB s.serial.stat

/-- SERRD at CTRL (R173). -/
def execSerrdCtrl (s : State) : Answer := s.execStep fun s => s.respondValue s.active 0xB s.serial.ctrl

/-- SERRD at DATA (R174): the latch, zero-extended; `RDRF` and the line as `Serial.readData` says. -/
def execSerrdData (s : State) : Answer :=
  s.execStep fun s =>
    { s with serial := s.serial.readData s.cfg.serIrqClearOnRead }.respondValue s.active 0xB
      (s.serial.data.setWidth 32)

/-- SERRD at any other offset (R175): value 0, reported. -/
def execSerrdUnknown (off : Word32) (s : State) : Answer :=
  s.execStep fun s => (s.diag s.active .serBadRead off).respondValue s.active 0xB 0

/-- SERRD (R170): `SerRead` of the register at `off`. -/
def execSerrd (off : Word32) (s : State) : Answer :=
  match serRegAt off with
  | some .baud => execSerrdBaud s
  | some .stat => execSerrdStat s
  | some .ctrl => execSerrdCtrl s
  | some .data => execSerrdData s
  | none => execSerrdUnknown off s

/-- SERWR at BAUD (R177): stored verbatim. -/
def execSerwrBaud (val : Word32) (s : State) : Answer :=
  s.execStep fun s => { s with serial := { s.serial with baud := val } }.complete s.active 0xC

/-- SERWR at STAT (R178): read-only, nothing changes, nothing is reported, whatever the value. -/
def execSerwrStat (_val : Word32) (s : State) : Answer := s.execStep fun s => s.complete s.active 0xC

/-- SERWR at CTRL (R179). -/
def execSerwrCtrl (val : Word32) (s : State) : Answer :=
  s.execStep fun s => { s with serial := s.serial.writeCtrl val }.complete s.active 0xC

/-- SERWR at DATA (R180): with TE clear the write is dropped and reported, with TE set its low byte goes to the sink. -/
def execSerwrData (val : Word32) (s : State) : Answer :=
  s.execStep fun s =>
    (if teBit s.serial.ctrl then
      { s with serial := { s.serial with tdre := true } }.emit (.tx (val.setWidth 8))
    else s.diag s.active .serTxDisabled val).complete s.active 0xC

/-- SERWR at any other offset (R183): nothing changes, reported. -/
def execSerwrUnknown (off _val : Word32) (s : State) : Answer :=
  s.execStep fun s => (s.diag s.active .serBadWrite off).complete s.active 0xC

/-- SERWR (R176): `SerWrite` of the register at `off`. -/
def execSerwr (off val : Word32) (s : State) : Answer :=
  match serRegAt off with
  | some .baud => execSerwrBaud val s
  | some .stat => execSerwrStat val s
  | some .ctrl => execSerwrCtrl val s
  | some .data => execSerwrData val s
  | none => execSerwrUnknown off val s

end Sys2Proof.Machine
end

