-- ==== Sys2Proof/Machine/Dispatch.lean ====
section
/-! DEFINITION. The next step of the instruction in flight on the active port: one arm per constructor of Instr. -/

namespace Sys2Proof.Machine

def exec (i : Instr) (s : State) : Host.Outcome State Fault Refusal :=
  match i with
  | .init => Sys2Proof.Machine.execInit s
  | .attach n => Sys2Proof.Machine.execAttach n s
  | .transmit n f => Sys2Proof.Machine.execTransmit n f s
  | .enqueue n f => Sys2Proof.Machine.execEnqueue n f s
  | .dequeue n => Sys2Proof.Machine.execDequeue n s
  | .link n => Sys2Proof.Machine.execLink n s
  | .setnotify n => Sys2Proof.Machine.execSetnotify n s
  | .realize n => Sys2Proof.Machine.execRealize n s
  | .bcrd n off => Sys2Proof.Machine.execBcrd n off s
  | .bcwr n off val => Sys2Proof.Machine.execBcwr n off val s
  | .serrd off => Sys2Proof.Machine.execSerrd off s
  | .serwr off val => Sys2Proof.Machine.execSerwr off val s
  | .reserved0 => Sys2Proof.Machine.execReserved0 s
  | .reservedD => Sys2Proof.Machine.execReservedD s
  | .reservedE => Sys2Proof.Machine.execReservedE s
  | .reservedF => Sys2Proof.Machine.execReservedF s
  | .serrdBaud => Sys2Proof.Machine.execSerrdBaud s
  | .serwrBaud val => Sys2Proof.Machine.execSerwrBaud val s
  | .serrdStat => Sys2Proof.Machine.execSerrdStat s
  | .serwrStat val => Sys2Proof.Machine.execSerwrStat val s
  | .serrdCtrl => Sys2Proof.Machine.execSerrdCtrl s
  | .serwrCtrl val => Sys2Proof.Machine.execSerwrCtrl val s
  | .serrdData => Sys2Proof.Machine.execSerrdData s
  | .serwrData val => Sys2Proof.Machine.execSerwrData val s
  | .serrdUnknown off => Sys2Proof.Machine.execSerrdUnknown off s
  | .serwrUnknown off val => Sys2Proof.Machine.execSerwrUnknown off val s
  | .bcrdMcr n => Sys2Proof.Machine.execBcrdMcr n s
  | .bcwrMcr n val => Sys2Proof.Machine.execBcwrMcr n val s
  | .bcrdCtrl n => Sys2Proof.Machine.execBcrdCtrl n s
  | .bcwrCtrl n val => Sys2Proof.Machine.execBcwrCtrl n val s
  | .bcrdTfr n => Sys2Proof.Machine.execBcrdTfr n s
  | .bcwrTfr n val => Sys2Proof.Machine.execBcwrTfr n val s
  | .bcrdRfr n => Sys2Proof.Machine.execBcrdRfr n s
  | .bcwrRfr n val => Sys2Proof.Machine.execBcwrRfr n val s
  | .bcrdUnknown n off => Sys2Proof.Machine.execBcrdUnknown n off s
  | .bcwrUnknown n off val => Sys2Proof.Machine.execBcwrUnknown n off val s

end Sys2Proof.Machine
end

