-- ==== Sys2Proof/Machine/Agents.lean ====
section
/-! DEFINITION. One step of an agent (`00_scope.md` R9): what an entry of the schedule does. -/

namespace Sys2Proof.Machine

/-- A step that involves command port `p`; a port the block does not have has none (log entry 9). -/
def State.onPort (s : State) (p : Nat) (step : State → Answer) : Answer :=
  if p < s.cfg.nPorts then step s else .fault (.noSuchPort p)

/-- The next step of port `p`'s sequencer: that of the instruction latched there. An IDLE port has none and its latches
are not read (R38). -/
def State.runPort (s : State) (p : Nat) : Answer :=
  if (s.port p).phase = .idle then .next s else exec (s.port p).instr { s with active := p }

/-- The step an event names (R9, R120, R128, R184, R250). -/
def runEvent : Event → State → Answer
  | .accept p w, s => s.onPort p fun s => .next (s.accept p w)
  | .run p, s => s.onPort p fun s => s.runPort p
  | .ack p, s => s.onPort p fun s => .next (s.ntfAck p)
  | .rx b, s => .next (s.rx b)
  | .rst, s => .next s.hardReset

/-- A command word already accepted on port 0, whose sequencer is to take the next step (log entry 12). -/
def State.withCommand (s : State) (w : CmdWord) : State :=
  { s.latch 0 w with schedule := .run 0 :: s.schedule }

end Sys2Proof.Machine
end

