-- ==== Sys2Proof/Machine/Step.lean ====
section
/-! DEFINITION. One step of the machine. -/

namespace Sys2Proof.Machine

/-- The next step of the schedule; with nothing scheduled no agent moves (R9, R256, log entry 2). -/
def step (s : State) : Host.Outcome State Fault Refusal :=
  match s.schedule with
  | [] => .next s
  | e :: rest => runEvent e { s with schedule := rest }

/-- `s` with the command word given by `nbits` bits accepted on port 0 and port 0's sequencer next to move (log entry
12). -/
def State.withFetchWord (s : State) (nbits w : Nat) : State :=
  s.withCommand (BitVec.ofNat 128 (w % 2 ^ nbits))

end Sys2Proof.Machine
end

