-- ==== Sys2Proof/Safety.lean ====
section
/-! DEFINITION. What claims are stated in: the invariant every reachable state meets, the words and effects a statement
compares a step with (written out from the spec, not through the machine's own operations), and which latches a step may
read. -/

namespace Sys2Proof

/-- The node operand of an instruction that uses its node field (R120, `uses_node`). -/
def Instr.nodeOperand : Instr → Option NodeIdx
  | .attach n | .transmit n _ | .enqueue n _ | .dequeue n | .link n | .setnotify n | .realize n
  | .bcrd n _ | .bcwr n _ _
  | .bcrdMcr n | .bcwrMcr n _ | .bcrdCtrl n | .bcwrCtrl n _ | .bcrdTfr n | .bcwrTfr n _ | .bcrdRfr n
  | .bcwrRfr n _ | .bcrdUnknown n _ | .bcwrUnknown n _ _ => some n
  | .init | .serrd _ | .serwr _ _ | .reserved0 | .reservedD | .reservedE | .reservedF
  | .serrdBaud | .serwrBaud _ | .serrdStat | .serwrStat _ | .serrdCtrl | .serwrCtrl _ | .serrdData | .serwrData _
  | .serrdUnknown _ | .serwrUnknown _ _ => none

/-- The instructions of the serial register file. -/
def Instr.isSerial : Instr → Bool
  | .serrd _ | .serwr _ _ | .serrdBaud | .serwrBaud _ | .serrdStat | .serwrStat _ | .serrdCtrl | .serwrCtrl _
  | .serrdData | .serwrData _ | .serrdUnknown _ | .serwrUnknown _ _ => true
  | .init | .attach _ | .transmit _ _ | .enqueue _ _ | .dequeue _ | .link _ | .setnotify _ | .realize _
  | .bcrd _ _ | .bcwr _ _ _ | .reserved0 | .reservedD | .reservedE | .reservedF
  | .bcrdMcr _ | .bcwrMcr _ _ | .bcrdCtrl _ | .bcwrCtrl _ _ | .bcrdTfr _ | .bcwrTfr _ _ | .bcrdRfr _
  | .bcwrRfr _ _ | .bcrdUnknown _ _ | .bcwrUnknown _ _ _ => false

end Sys2Proof

namespace Sys2Proof.Machine

/-! ### The invariant -/

/-- The phases in which a port holds its target's lock (R27, R160). -/
def Phase.locked : Phase → Bool
  | .qBody | .qRel => true
  | .idle | .exec | .tScan | .qAcq | .tNtf => false

/-- The phases of a queue access. -/
def Phase.inQueue : Phase → Bool
  | .qAcq | .qBody | .qRel => true
  | .idle | .exec | .tScan | .tNtf => false

/-- There are `N_NODES` nodes and `N_PORTS` sequencers (R20). -/
abbrev State.ShapeInv (s : State) : Prop := s.nodes.length = s.cfg.nNodes ∧ s.ports.length = s.cfg.nPorts

/-- The registry (R22): bounded, without duplicates, of valid node indices. -/
abbrev State.RegistryInv (s : State) : Prop :=
  s.registry.length ≤ s.cfg.busCap ∧ s.registry.Nodup ∧ ∀ n ∈ s.registry, n.toNat < s.cfg.nNodes

/-- A node's queue (R24, R158 (b)): storage in canonical form, all indices below `C`, and every slot a load can reach
has been stored to. -/
abbrev Node.QueueInv (c : Nat) (m : Node) : Prop :=
  Memory.wf m.slots ∧ (∀ k ∈ m.slots.map Prod.fst, k < c) ∧ m.head < c ∧ m.tail < c ∧
    ∀ j < m.occ c, (Memory.read? m.slots ((m.tail + j) % c)).isSome

/-- A sequencer's phase agrees with its opcode (R120 to R128, R150 to R153): only TRANSMIT scans and notifies, only
queue operations access a queue, a queue operation is in EXEC only with a bad node index, and the target is a node that
exists, the node operand for ENQUEUE and DEQUEUE, never the sender for TRANSMIT; the cursor stays in `0..BUS_CAP`. -/
abbrev Port.SeqInv (c : Config) (q : Port) : Prop :=
  (q.phase = .exec → (q.op = opTransmit ∨ q.op = opEnqueue ∨ q.op = opDequeue) → c.nNodes ≤ q.aNode.toNat) ∧
  (q.phase = .tScan → q.op = opTransmit ∧ q.cur ≤ c.busCap) ∧
  (q.phase = .tNtf → q.op = opTransmit) ∧
  (q.phase.inQueue = true ∨ q.phase = .tNtf →
    q.tgt.toNat < c.nNodes ∧
    ((q.op = opTransmit ∧ q.cur < c.busCap ∧ q.tgt ≠ q.aNode) ∨
      ((q.op = opEnqueue ∨ q.op = opDequeue) ∧ q.tgt = q.aNode)))

/-- A lock is HELD(p) exactly when port `p` is in Q_BODY or Q_REL with this node as its target (R27). -/
abbrev State.LockInv (s : State) : Prop :=
  (∀ n < s.cfg.nNodes, (s.node (BitVec.ofNat 8 n)).lock = .free ∨
    ∃ p < s.cfg.nPorts, (s.node (BitVec.ofNat 8 n)).lock = .held p ∧ (s.port p).phase.locked = true ∧
      (s.port p).tgt = BitVec.ofNat 8 n) ∧
  ∀ p < s.cfg.nPorts, (s.port p).phase.locked = true → (s.node (s.port p).tgt).lock = .held p

/-- The serial file (R181, R182): `TDRE` is set whenever TE is; the line is up whenever `RDRF` is, and, when a DATA read
lowers it, only then. -/
abbrev State.SerialInv (s : State) : Prop :=
  (teBit s.serial.ctrl = true → s.serial.tdre = true) ∧ (s.serial.rdrf = true → s.serial.irq = true) ∧
    (s.cfg.serIrqClearOnRead = true → s.serial.irq = s.serial.rdrf)

/-- The invariant of every reachable state. -/
structure State.Inv (s : State) : Prop where
  cfg : s.cfg.wf
  shape : s.ShapeInv
  registry : s.RegistryInv
  queues : ∀ m ∈ s.nodes, m.QueueInv s.cfg.queueCap
  sequencers : ∀ q ∈ s.ports, q.SeqInv s.cfg
  locks : s.LockInv
  serial : s.SerialInv

/-! ### The terms of statements -/

/-- The active port is to take an EXEC step (R121). -/
abbrev State.Ready (s : State) : Prop := (s.port s.active).phase = .exec

/-- `s` after a response word `w` on the active port, which is then IDLE: nothing else changes (R98). -/
def State.answered (s : State) (w : RspWord) : State :=
  { s with
    ports := s.ports.modify s.active fun q => { q with phase := .idle }
    history := s.history ++ [.response s.active w] }

/-- The response word of opcode `op` with 32-bit value `v` at [47:16] (R98). -/
def answerValue (op : BitVec 4) (v : Word32) : RspWord := (v.setWidth 128 <<< 16) ||| op.setWidth 128

/-- The response word of a DEQUEUE that returns `f`: `op` 5, `hit` 1, the frame at [119:16] (R98). -/
def answerFrame (f : Frame) : RspWord := (f.setWidth 128 <<< 16) ||| 0x15#128

/-- The diagnostic event word with code `c` at [3:0] and `info` at [35:4] (R100). -/
def eventWord (c : BitVec 4) (info : Word32) : DiagWord := (info.setWidth 36 <<< 4) ||| c.setWidth 36

/-- The notification word of node `n` at [7:0] and frame `f` at [111:8] (R99). -/
def ntfWordOf (n : NodeIdx) (f : Frame) : NtfWord := (f.setWidth 112 <<< 8) ||| n.setWidth 112

/-- `s` after the active port has emitted the diagnostic event with code `c` and `info`: nothing else changes. -/
def State.reported (s : State) (c : BitVec 4) (info : Word32) : State :=
  { s with history := s.history ++ [.diagnostic (.port s.active) (eventWord c info)] }

/-- `s` with node `n` changed by `g`: nothing else changes. -/
def State.withNode (s : State) (n : NodeIdx) (g : Node → Node) : State :=
  { s with nodes := s.nodes.modify n.toNat g }

/-- `s` with the active port's sequencer changed by `g`: nothing else changes. -/
def State.withActive (s : State) (g : Port → Port) : State := { s with ports := s.ports.modify s.active g }

/-- How many response words port `p` has emitted. -/
def State.responses (s : State) (p : Nat) : Nat :=
  s.history.countP fun | .response q _ => q == p | _ => false

/-! ### Which latches a step may read (R38, R42) -/

/-- A sequencer with every latch cleared that no later step can read before it is loaded again: in IDLE all of them; the
target only matters while a queue is accessed or a notification is pending; the result latches only matter in the QRel
of a DEQUEUE, and `r_frame` only after a hit. -/
def Port.liveOnly (q : Port) : Port :=
  match q.phase with
  | .idle =>
    { phase := .idle, op := 0, aNode := 0, aFrame := 0, aOff := 0, aVal := 0, cur := 0, tgt := 0, rHit := false,
      rFrame := 0 }
  | .exec | .tScan => { q with tgt := 0, rHit := false, rFrame := 0 }
  | .qAcq | .qBody | .tNtf => { q with rHit := false, rFrame := 0 }
  | .qRel =>
    { q with
      rHit := q.rHit && (q.op == opDequeue)
      rFrame := if q.rHit && (q.op == opDequeue) then q.rFrame else 0 }

/-- A state with only its live latches. -/
def State.liveOnly (s : State) : State := { s with ports := s.ports.map Port.liveOnly }

/-- Two outcomes that cannot be told apart by anything a later step reads. -/
def sameButDeadLatches : Answer → Answer → Prop
  | .next t, .next u => t.liveOnly = u.liveOnly
  | .fault a, .fault b => a = b
  | .refused a, .refused b => a = b
  | _, _ => False

/-! ### Queue bodies and runs -/

/-- A body step on one queue (R151, R152). -/
inductive Body where
  | store (f : Frame)
  | load
  deriving DecidableEq, Repr

/-- A queue with the record of its bodies since reset: the frames stored and the frames returned, oldest first. -/
structure QueueRun where
  node : Node
  stored : List Frame
  returned : List Frame
  deriving DecidableEq, Repr

/-- One body on a queue of capacity `c` and its record. -/
def QueueRun.body (c : Nat) (r : QueueRun) : Body → QueueRun
  | .store f => { r with node := r.node.store c f, stored := r.stored ++ [f] }
  | .load =>
    if r.node.isEmpty then r
    else
      { r with
        node := r.node.load c
        returned := r.returned ++ (Memory.read? r.node.slots r.node.tail).toList }

/-- The record of a sequence of bodies on a queue right after reset. -/
def QueueRun.after (c : Nat) (bs : List Body) : QueueRun :=
  bs.foldl (QueueRun.body c) { node := Node.reset, stored := [], returned := [] }

/-- A queue agrees with the frames stored there and returned from there since reset, `log.1` and `log.2`, oldest first
(R158): `head` and `tail` are their numbers modulo `C`; no more were returned than stored; pending slot `j` holds the
frame of store number `k - occ + j`; and the returned frames are a subsequence of those stored before the pending ones. -/
abbrev Node.Recorded (c : Nat) (m : Node) (log : List Frame × List Frame) : Prop :=
  m.head = log.1.length % c ∧ m.tail = log.2.length % c ∧ log.2.length ≤ log.1.length ∧
    (∀ j < m.occ c, Memory.read? m.slots ((m.tail + j) % c) = log.1[log.1.length - m.occ c + j]?) ∧
    log.2.Sublist (log.1.take (log.1.length - m.occ c))

/-- What the next step of `s` adds to the frames stored into node `n`'s queue and returned from it. -/
def bodyLogStep (n : NodeIdx) (s : State) (log : List Frame × List Frame) : List Frame × List Frame :=
  match s.schedule with
  | .run p :: _ =>
    let q := s.port p
    if q.phase = .qBody ∧ q.tgt = n then
      if q.op = opEnqueue ∨ q.op = opTransmit then (log.1 ++ [q.aFrame], log.2)
      else if q.op = opDequeue ∧ (s.node n).isEmpty = false then (log.1, log.2 ++ [s.slot n (s.node n).tail])
      else log
    else log
  | .rst :: _ => ([], [])
  | _ => log

/-- `k` steps from `s`, with the frames stored into and returned from node `n`'s queue since reset. -/
def runLogged (n : NodeIdx) : Nat → State → List Frame × List Frame → Option (State × List Frame × List Frame)
  | 0, s, log => some (s, log)
  | k + 1, s, log =>
    match step s with
    | .next t => runLogged n k t (bodyLogStep n s log)
    | .fault _ | .refused _ => none

/-- The steps of an undisturbed broadcast of sender `snd` on port `p` over the registry entries `es` (R124, R266), each
notification acknowledged at once. -/
def broadcastSteps (s : State) (p : Nat) (snd : NodeIdx) : List NodeIdx → List Event
  | [] => [.run p]
  | e :: es =>
    (if e = snd then [.run p]
      else [.run p, .run p, .run p, .run p] ++ if (s.node e).notifyEn then [.ack p] else [])
      ++ broadcastSteps s p snd es

end Sys2Proof.Machine
end

