-- ==== Sys2Proof/Certificates/Slice0/Obligations.lean ====
section
/-! DEFINITION. The statements for the provers. Each names the rule or section of `spec/` it formalises. A state in a
statement is any state, so its schedule is any schedule and its parameters are any parameters. -/

open Sys2Proof Sys2Proof.Machine

/-! ### Encoding -/

/-- R94, R97: decoding what an instruction encodes to gives the instruction back, an operation row of format R as the
sub-decode row of its offset. -/
def Obligations.DecodeOfEncodeGivesInstruction : Prop :=
  ∀ i : Instr, i.wf = true →
    decode (encode i) = i.subDecode ∧ decodeTableWord 128 (encode i).toNat = some i.subDecode ∧
      (i.isOperationRow = false → decode (encode i) = i)

/-- R91, R96: encoding what a word decodes to gives the word with its ignored and reserved bits cleared, and what a word
decodes to is well-formed and never an unresolved operation row. -/
def Obligations.EncodeOfDecodeClearsIgnoredBits : Prop :=
  ∀ w : CmdWord, encode (decode w) = w &&& usedBits (opField w) ∧ (decode w).wf = true ∧
    (decode w).isOperationRow = false

/-- R96: two command words that differ only in reserved or ignored bits are the same command. -/
def Obligations.IgnoredBitsDoNotChangeCommand : Prop :=
  ∀ w w' : CmdWord, opField w = opField w' → w &&& usedBits (opField w) = w' &&& usedBits (opField w) →
    decode w = decode w'

/-- R105 and E1, E3 of `95_test_vectors.md`: the worked command words decode to the commands they encode. -/
def Obligations.WorkedWordsDecode : Prop :=
  decode 0x00020000000000000201000001230003#128 =
    .transmit 0 (frameOf 0x123 0x01 0x02 0 0 0 0 0 0 2) ∧
  decode 0x00020000000000000201000001230014#128 =
    .enqueue 1 (frameOf 0x123 0x01 0x02 0 0 0 0 0 0 2) ∧
  decode 0x000888776655443322111fffffff0034#128 =
    .enqueue 3 (frameOf 0x1FFFFFFF 0x11 0x22 0x33 0x44 0x55 0x66 0x77 0x88 8) ∧
  decode 0x12#128 = .attach 1 ∧
  decode 0x15#128 = .dequeue 1 ∧
  decode 0x000c000000000018000c#128 = .serwrCtrl 0x000C0000 ∧
  decode 0x14000b#128 = .serrdStat ∧
  decode 0xdeadbeef00000008002a#128 = .bcwrTfr 2 0xdeadbeef ∧
  decode 0x0#128 = .reserved0

/-- R91, R21: where the fields of a frame stand in a command word of format F. -/
def Obligations.FrameFieldsOfCommandWord : Prop :=
  ∀ w : CmdWord, frameId (frameField w) = w.extractLsb' 16 32 ∧
    (∀ k < 8, frameData (frameField w) k = w.extractLsb' (48 + 8 * k) 8) ∧
    frameDlc (frameField w) = w.extractLsb' 112 8

/-! ### Ports and the step -/

/-- R38, R94: a step of a port's sequencer is the step of the instruction latched there, resolved by its offset, with that
port active. What Accept latches from a command word is what the word decodes to, and it is what the sequencer's next
step then runs. -/
def Obligations.StepRunsLatchedInstruction : Prop :=
  ∀ (s : State) (p : Nat) (rest : List Event), p < s.cfg.nPorts →
    ((s.port p).phase ≠ .idle →
      step { s with schedule := .run p :: rest } = exec (s.port p).instr { s with schedule := rest, active := p }) ∧
    (p < s.ports.length → (s.port p).phase = .idle → ∀ w : CmdWord, ∃ t,
      step { s with schedule := .accept p w :: rest } = .next t ∧ t.schedule = rest ∧ (t.port p).phase ≠ .idle ∧
        (t.port p).instr = decode w ∧
        step { t with schedule := .run p :: rest } = exec (decode w) { t with active := p })

/-- R120: Accept loads every latch of an IDLE port from the command word, sets the cursor to 0 and the first phase, and
touches nothing but that port. -/
def Obligations.AcceptLatchesCommand : Prop :=
  ∀ (s : State) (p : Nat) (w : CmdWord) (rest : List Event), p < s.cfg.nPorts → (s.port p).phase = .idle →
    let op := w.extractLsb' 0 4
    let n : NodeIdx := w.extractLsb' 4 8
    let bad := (2 ≤ op.toNat ∧ op.toNat ≤ 10) ∧ s.cfg.nNodes ≤ n.toNat
    let ph : Phase := if op = 3 ∧ ¬bad then .tScan else if (op = 4 ∨ op = 5) ∧ ¬bad then .qAcq else .exec
    step { s with schedule := .accept p w :: rest } = .next { s with
      schedule := rest
      ports := s.ports.modify p fun q =>
        { phase := ph, op := op, aNode := n, aFrame := w.extractLsb' 16 104, aOff := w.extractLsb' 16 32,
          aVal := w.extractLsb' 48 32, cur := 0, tgt := if (op = 4 ∨ op = 5) ∧ ¬bad then n else q.tgt,
          rHit := q.rHit, rFrame := q.rFrame } }

/-- The model's choice (log entry 8): a step that the schedule names and that is not enabled leaves the block as it is: a
command word on a port that is not IDLE, the sequencer of an IDLE port or of one that waits for an acknowledgement, an
acknowledgement where none is awaited. -/
def Obligations.DisabledStepsChangeNothing : Prop :=
  ∀ (s : State) (p : Nat) (rest : List Event), p < s.cfg.nPorts →
    ((s.port p).phase ≠ .idle → ∀ w : CmdWord,
      step { s with schedule := .accept p w :: rest } = .next { s with schedule := rest }) ∧
    ((s.port p).phase = .idle → step { s with schedule := .run p :: rest } = .next { s with schedule := rest }) ∧
    ((s.port p).phase = .tNtf →
      step { s with schedule := .run p :: rest } = .next { s with schedule := rest, active := p }) ∧
    ((s.port p).phase ≠ .tNtf →
      step { s with schedule := .ack p :: rest } = .next { s with schedule := rest })

/-- R220: the block raises no exception. A step answers a next state, except where the schedule names a port the block
does not have, which is the model's own guard (log entry 9). -/
def Obligations.NoStepFaultsOnPortsThatExist : Prop :=
  ∀ s : State, (∃ t, step s = .next t) ∨
    ∃ p, s.cfg.nPorts ≤ p ∧ step s = .fault (.noSuchPort p) ∧
      ∃ e rest, s.schedule = e :: rest ∧ (e = .run p ∨ e = .ack p ∨ ∃ w, e = .accept p w)

/-- R40: no step changes a parameter. -/
def Obligations.NoStepChangesParameters : Prop :=
  ∀ s t : State, step s = .next t → t.cfg = s.cfg

/-- R235: a port's sequencer is private to it: a step of another agent, reset apart, leaves it as it is. -/
def Obligations.SequencersArePrivate : Prop :=
  ∀ (s t : State) (e : Event) (rest : List Event) (p : Nat), s.schedule = e :: rest → step s = .next t →
    e ≠ .rst → e ≠ .run p → e ≠ .ack p → (∀ w, e ≠ .accept p w) → t.port p = s.port p

/-- R98: every operation is answered by exactly one response word, emitted by the step that takes its port back to
IDLE, and no other step emits one. -/
def Obligations.OneResponsePerOperation : Prop :=
  ∀ (s t : State) (e : Event) (rest : List Event) (p : Nat), s.schedule = e :: rest → step s = .next t → e ≠ .rst →
    t.responses p = s.responses p + if (s.port p).phase ≠ .idle ∧ (t.port p).phase = .idle then 1 else 0

/-- R39, R223: no step reads the record of outputs: with another record the same step is taken, and the same outputs are
added. -/
def Obligations.NoStepReadsHistory : Prop :=
  ∀ (s : State) (h : List Output), ∀ t, step s = .next t → ∃ out, t.history = s.history ++ out ∧
    step { s with history := h } = .next { t with history := h ++ out }

/-- R38, R42: the latches of an IDLE port, and every other latch before it is loaded, are unobservable: two states that
differ only in those take steps that differ only in those, with the same outputs. -/
def Obligations.DeadLatchesAreUnobservable : Prop :=
  ∀ s u : State, s.liveOnly = u.liveOnly → sameButDeadLatches (step s) (step u)

/-! ### The Bus family -/

/-- R122: INIT empties the registry, answers, and changes nothing else. -/
def Obligations.InitEmptiesRegistry : Prop :=
  ∀ s : State, s.Ready → exec .init s = .next ({ s with registry := [] }.answered 0x1)

/-- R123: ATTACH of a node that exists appends it at the end while there is room; a duplicate, tested first, and a full
registry are reported and change nothing; the response is the same. -/
def Obligations.AttachAppendsOrReports : Prop :=
  ∀ (s : State) (n : NodeIdx), s.Ready → n.toNat < s.cfg.nNodes →
    (n ∈ s.registry → exec (.attach n) s = .next ((s.reported 0x2 (n.setWidth 32)).answered 0x2)) ∧
    (n ∉ s.registry → s.cfg.busCap ≤ s.registry.length →
      exec (.attach n) s = .next ((s.reported 0x1 (n.setWidth 32)).answered 0x2)) ∧
    (n ∉ s.registry → s.registry.length < s.cfg.busCap →
      exec (.attach n) s = .next ({ s with registry := s.registry ++ [n] }.answered 0x2))

/-- R129, R130: LINK sets `bus_ref[n]` and SETNOTIFY sets `notify_en[n]`, and nothing else changes. -/
def Obligations.LinkAndSetnotifySetOneFlag : Prop :=
  ∀ (s : State) (n : NodeIdx), s.Ready → n.toNat < s.cfg.nNodes →
    exec (.link n) s = .next ((s.withNode n fun m => { m with busRef := true }).answered 0x6) ∧
    exec (.setnotify n) s = .next ((s.withNode n fun m => { m with notifyEn := true }).answered 0x7)

/-- R203: the first REALIZE of a node sets `realized[n]` and, if the node has its bus reference, registers it as ATTACH
does; a later one does nothing. -/
def Obligations.RealizeRegistersOnce : Prop :=
  ∀ (s : State) (n : NodeIdx), s.Ready → n.toNat < s.cfg.nNodes →
    let s' := s.withNode n fun m => { m with realized := true }
    ((s.node n).realized = true → exec (.realize n) s = .next (s.answered 0x8)) ∧
    ((s.node n).realized = false → (s.node n).busRef = false → exec (.realize n) s = .next (s'.answered 0x8)) ∧
    ((s.node n).realized = false → (s.node n).busRef = true → n ∈ s.registry →
      exec (.realize n) s = .next ((s'.reported 0x2 (n.setWidth 32)).answered 0x8)) ∧
    ((s.node n).realized = false → (s.node n).busRef = true → n ∉ s.registry → s.cfg.busCap ≤ s.registry.length →
      exec (.realize n) s = .next ((s'.reported 0x1 (n.setWidth 32)).answered 0x8)) ∧
    ((s.node n).realized = false → (s.node n).busRef = true → n ∉ s.registry → s.registry.length < s.cfg.busCap →
      exec (.realize n) s = .next ({ s' with registry := s.registry ++ [n] }.answered 0x8))

/-- R131: a reserved opcode changes no state outside its port's sequencer, reports BAD_OPCODE with the opcode, and is
answered by a word with the opcode in bits 3:0 and 0 elsewhere. -/
def Obligations.ReservedOpcodesReportBadOpcode : Prop :=
  ∀ s : State, s.Ready →
    exec .reserved0 s = .next ((s.reported 0x9 0x0).answered 0x0) ∧
    exec .reservedD s = .next ((s.reported 0x9 0xD).answered 0xD) ∧
    exec .reservedE s = .next ((s.reported 0x9 0xE).answered 0xE) ∧
    exec .reservedF s = .next ((s.reported 0x9 0xF).answered 0xF)

/-- R132: a command that uses its node field and names no node goes to EXEC, and there reports BAD_NODE with the index, is
answered by its opcode alone, and changes nothing else. -/
def Obligations.BadNodeIsReportedAndChangesNothing : Prop :=
  ∀ (s : State) (i : Instr) (n : NodeIdx), s.Ready → i.nodeOperand = some n → s.cfg.nNodes ≤ n.toNat →
    firstPhase s.cfg ((encode i).extractLsb' 0 4) n = .exec ∧
    exec i s = .next ((s.reported 0xA (n.setWidth 32)).answered ((encode i).extractLsb' 0 4 |>.setWidth 128))

/-- R125: the loop head of a broadcast. Past the last entry it answers; at the sender's own entry the cursor moves on;
at any other entry that node becomes the target and its lock is waited for. -/
def Obligations.ScanVisitsRegistryInOrder : Prop :=
  ∀ (s : State) (snd : NodeIdx) (f : Frame), (s.port s.active).phase = .tScan →
    let cur := (s.port s.active).cur
    (s.registry.length ≤ cur → exec (.transmit snd f) s = .next (s.answered 0x3)) ∧
    (∀ e, s.registry[cur]? = some e → e = snd →
      exec (.transmit snd f) s = .next (s.withActive fun q => { q with cur := cur + 1 })) ∧
    (∀ e, s.registry[cur]? = some e → e ≠ snd →
      exec (.transmit snd f) s = .next (s.withActive fun q => { q with tgt := e, phase := .qAcq }))

/-- R128: the acknowledgement of a pending notification moves the cursor on and lets the broadcast scan again. -/
def Obligations.AcknowledgementResumesBroadcast : Prop :=
  ∀ (s : State) (p : Nat) (rest : List Event), p < s.cfg.nPorts → (s.port p).phase = .tNtf →
    step { s with schedule := .ack p :: rest } = .next { s with
      schedule := rest
      ports := s.ports.modify p fun q => { q with cur := q.cur + 1, phase := .tScan } }

/-- R128, R90: a pending notification stays presented, with its word unchanged, through every step but its own
acknowledgement and reset. -/
def Obligations.NotificationHoldsUntilAcknowledged : Prop :=
  ∀ (s t : State) (e : Event) (rest : List Event) (p : Nat), s.schedule = e :: rest → step s = .next t →
    s.ntfValid p = true → e ≠ .ack p → e ≠ .rst →
    t.ntfValid p = true ∧ t.ntfWord p = s.ntfWord p ∧ t.port p = s.port p

/-! ### The steps of a queue access -/

/-- R150: a port in Q_ACQ takes a FREE lock in one step; while the lock is held it waits and nothing changes. -/
def Obligations.AcquireTakesFreeLockOrWaits : Prop :=
  ∀ (s : State) (n : NodeIdx) (f : Frame), (s.port s.active).phase = .qAcq →
    let tgt := (s.port s.active).tgt
    let t := (s.withNode tgt fun m => { m with lock := .held s.active }).withActive fun q => { q with phase := .qBody }
    ((s.node tgt).lock = .free →
      exec (.enqueue n f) s = .next t ∧ exec (.dequeue n) s = .next t ∧ exec (.transmit n f) s = .next t) ∧
    (∀ p, (s.node tgt).lock = .held p →
      exec (.enqueue n f) s = .next s ∧ exec (.dequeue n) s = .next s ∧ exec (.transmit n f) s = .next s)

/-- R151: the store body of ENQUEUE and TRANSMIT: the frame goes to the slot at `head`, `head` advances modulo `C`;
`tail` and every other slot of every node keep what they held. -/
def Obligations.StoreBodyWritesHeadSlotOnly : Prop :=
  ∀ (s : State) (n : NodeIdx) (f : Frame), (s.port s.active).phase = .qBody →
    let tgt := (s.port s.active).tgt
    tgt.toNat < s.nodes.length →
    ∃ t, exec (.enqueue n f) s = .next t ∧ exec (.transmit n f) s = .next t ∧
      (t.node tgt).head = ((s.node tgt).head + 1) % s.cfg.queueCap ∧
      (∀ m i, t.slot m i = if m = tgt ∧ i = (s.node tgt).head then f else s.slot m i) ∧
      t.port s.active = { s.port s.active with phase := .qRel } ∧
      t = (s.withNode tgt fun m => { m with
          slots := (t.node tgt).slots, head := (t.node tgt).head }).withActive fun q => { q with phase := .qRel }

/-- R152: the load body of DEQUEUE: on an empty queue only `r_hit` is cleared; otherwise the frame in the slot at `tail`
is taken, `tail` advances modulo `C`, and no slot of any node changes. -/
def Obligations.LoadBodyTakesTailSlot : Prop :=
  ∀ (s : State) (n : NodeIdx), (s.port s.active).phase = .qBody →
    let tgt := (s.port s.active).tgt
    let m := s.node tgt
    (m.head = m.tail →
      exec (.dequeue n) s = .next (s.withActive fun q => { q with rHit := false, phase := .qRel })) ∧
    (m.head ≠ m.tail →
      exec (.dequeue n) s = .next ((s.withNode tgt fun m => { m with tail := (m.tail + 1) % s.cfg.queueCap }).withActive
        fun q => { q with rHit := true, rFrame := s.slot tgt m.tail, phase := .qRel }))

/-- R158 (b), R42: in a state that meets the invariant, the load body of a DEQUEUE that finds its target's queue not empty
takes a frame that was stored in the slot at `tail`, so the unspecified reset content of the slots is never returned. -/
def Obligations.LoadNeverReadsUnwrittenSlot : Prop :=
  ∀ (s : State) (n : NodeIdx), s.Inv → (s.port s.active).phase = .qBody → s.active < s.cfg.nPorts →
    let m := s.node (s.port s.active).tgt
    m.head ≠ m.tail → ∃ f t, Memory.read? m.slots m.tail = some f ∧ exec (.dequeue n) s = .next t ∧
      (t.port s.active).rHit = true ∧ (t.port s.active).rFrame = f

/-- R153: QRel frees the lock; ENQUEUE and DEQUEUE answer, a DEQUEUE with the frame it took or "empty"; a TRANSMIT
presents a notification where `notify_en` is set and otherwise scans the next entry. -/
def Obligations.ReleaseAnswersOrNotifies : Prop :=
  ∀ (s : State) (n : NodeIdx) (f : Frame), (s.port s.active).phase = .qRel →
    let q := s.port s.active
    let s' := s.withNode q.tgt fun m => { m with lock := .free }
    exec (.enqueue n f) s = .next (s'.answered 0x4) ∧
    (q.rHit = true → exec (.dequeue n) s = .next (s'.answered (answerFrame q.rFrame))) ∧
    (q.rHit = false → exec (.dequeue n) s = .next (s'.answered 0x5)) ∧
    ((s.node q.tgt).notifyEn = true →
      exec (.transmit n f) s = .next { (s'.withActive fun q => { q with phase := .tNtf }) with
        history := s.history ++ [.notification s.active (ntfWordOf q.tgt f)] }) ∧
    ((s.node q.tgt).notifyEn = false →
      exec (.transmit n f) s = .next (s'.withActive fun q => { q with cur := q.cur + 1, phase := .tScan }))

/-! ### Whole operations, undisturbed -/

/-- R154, R266: an ENQUEUE whose target's lock is free and which no other agent's step falls into takes four steps
(Accept, Q_ACQ, Q_BODY, Q_REL), stores its frame once, makes no notification, and answers. -/
def Obligations.EnqueueRunsInFourSteps : Prop :=
  ∀ (s : State) (p : Nat) (w : CmdWord) (rest : List Event), s.Inv → p < s.cfg.nPorts → (s.port p).phase = .idle →
    opField w = 0x4 → (nodeField w).toNat < s.cfg.nNodes → (s.node (nodeField w)).lock = .free →
    ∃ t, Sys2Proof.core.run 4 { s with schedule := [.accept p w, .run p, .run p, .run p] ++ rest } = .next t ∧
      t.nodes = s.nodes.modify (nodeField w).toNat (fun m => m.store s.cfg.queueCap (frameField w)) ∧
      t.history = s.history ++ [.response p 0x4] ∧ t.schedule = rest ∧ t.registry = s.registry ∧
      t.serial = s.serial ∧ t.cfg = s.cfg ∧ (t.port p).phase = .idle ∧ ∀ q, q ≠ p → t.port q = s.port q

/-- R155, R266: a DEQUEUE whose target's lock is free and which no other agent's step falls into takes four steps; it
answers "empty" and changes no node, or answers the frame at `tail` and advances `tail`. -/
def Obligations.DequeueRunsInFourSteps : Prop :=
  ∀ (s : State) (p : Nat) (w : CmdWord) (rest : List Event), s.Inv → p < s.cfg.nPorts → (s.port p).phase = .idle →
    opField w = 0x5 → (nodeField w).toNat < s.cfg.nNodes → (s.node (nodeField w)).lock = .free →
    let n := nodeField w
    let m := s.node n
    ∃ t, Sys2Proof.core.run 4 { s with schedule := [.accept p w, .run p, .run p, .run p] ++ rest } = .next t ∧
      (m.head = m.tail → t.nodes = s.nodes ∧ t.history = s.history ++ [.response p 0x5]) ∧
      (m.head ≠ m.tail →
        t.nodes = s.nodes.modify n.toNat (fun m => { m with tail := (m.tail + 1) % s.cfg.queueCap }) ∧
        t.history = s.history ++ [.response p (answerFrame (s.slot n m.tail))]) ∧
      t.schedule = rest ∧ t.registry = s.registry ∧ t.serial = s.serial ∧ t.cfg = s.cfg ∧
      (t.port p).phase = .idle ∧ ∀ q, q ≠ p → t.port q = s.port q

/-- R133, R124, R266: a TRANSMIT into which no other agent's step falls, all its receivers' locks free and every
notification acknowledged at once: exactly one store of the frame into each registered node but the sender, in
registry order; exactly one notification for each of those with `notify_en`, in that order; then the response; in
`1 + (m + 1) + 3 (m - s) + t` steps; and nothing else changes. -/
def Obligations.BroadcastDeliversOnceToEveryReceiver : Prop :=
  ∀ (s : State) (p : Nat) (w : CmdWord) (rest : List Event), s.Inv → p < s.cfg.nPorts → (s.port p).phase = .idle →
    opField w = 0x3 → (nodeField w).toNat < s.cfg.nNodes →
    let snd := nodeField w
    let f := frameField w
    let receivers := s.registry.filter (· ≠ snd)
    let notified := receivers.filter fun e => (s.node e).notifyEn
    let steps := Event.accept p w :: broadcastSteps s p snd s.registry
    (∀ e ∈ receivers, (s.node e).lock = .free) →
    steps.length = 1 + (s.registry.length + 1) + 3 * receivers.length + notified.length ∧
    ∃ t, Sys2Proof.core.run steps.length { s with schedule := steps ++ rest } = .next t ∧
      t.nodes = receivers.foldl (fun ms e => ms.modify e.toNat fun m => m.store s.cfg.queueCap f) s.nodes ∧
      t.history = s.history ++ notified.map (fun e => .notification p (ntfWordOf e f)) ++ [.response p 0x3] ∧
      t.schedule = rest ∧ t.registry = s.registry ∧ t.serial = s.serial ∧ t.cfg = s.cfg ∧
      (t.port p).phase = .idle ∧ ∀ q, q ≠ p → t.port q = s.port q

/-- R133 (b): no step of a TRANSMIT writes its sender's queue, whatever other steps fall between. -/
def Obligations.SenderQueueIsNeverWritten : Prop :=
  ∀ (s t : State) (p : Nat) (rest : List Event), s.Inv → s.schedule = .run p :: rest → step s = .next t →
    (s.port p).phase ≠ .idle → (s.port p).op = 0x3 →
    let snd := (s.port p).aNode
    (t.node snd).head = (s.node snd).head ∧ (t.node snd).tail = (s.node snd).tail ∧
      (t.node snd).slots = (s.node snd).slots

/-! ### Laws of the queue -/

/-- R24, R65: a stored slot reads back the whole frame stored, and every other slot keeps what it held; and storage in
canonical form is determined by what its slots read as. -/
def Obligations.SlotStorageReadsBack : Prop :=
  (∀ (m : Memory) (i j : Nat) (f : Frame),
    Memory.read? (Memory.write m i f) j = if j = i then some f else Memory.read? m j) ∧
  ∀ m m' : Memory, Memory.wf m → Memory.wf m' → (∀ j, Memory.read? m j = Memory.read? m' j) → m = m'

/-- R157, R25, R26: the apparent occupancy is below `C` and 0 exactly when the queue is empty. A store into a queue with
apparent occupancy at most `C - 2` makes it one more; a store that meets `C - 1` makes the queue empty, and has written
only the slot at `head`, which held no pending frame. -/
def Obligations.OverflowEmptiesQueue : Prop :=
  ∀ (c : Nat) (m : Node) (f : Frame), 2 ≤ c → m.head < c → m.tail < c →
    let t := m.store c f
    m.occ c < c ∧ (m.occ c = 0 ↔ m.head = m.tail) ∧
    (m.occ c ≤ c - 2 → t.occ c = m.occ c + 1 ∧ t.isEmpty = false) ∧
    (m.occ c = c - 1 → t.occ c = 0 ∧ t.isEmpty = true ∧ ∀ j < m.occ c, (m.tail + j) % c ≠ m.head) ∧
    t.tail = m.tail

/-- R158: after any sequence of `k` stores and loads of which `d` returned a frame: `head = k mod C`, `tail = d mod C`,
`k >= d`, `occ = (k - d) mod C`; the returned frames are a subsequence of the stored ones; and a load that finds
`occ >= 1` returns the frame of store number `k - occ`. -/
def Obligations.QueueReturnsFramesInStoreOrder : Prop :=
  ∀ (c : Nat) (bs : List Body), 2 ≤ c →
    let r := QueueRun.after c bs
    let k := r.stored.length
    let d := r.returned.length
    r.node.head = k % c ∧ r.node.tail = d % c ∧ d ≤ k ∧ r.node.occ c = (k - d) % c ∧
      r.returned.Sublist r.stored ∧
      (1 ≤ r.node.occ c → Memory.read? r.node.slots r.node.tail = r.stored[k - r.node.occ c]?) ∧
      (1 ≤ r.node.occ c → (QueueRun.body c r .load).returned = r.returned ++ (r.stored[k - r.node.occ c]?).toList)

/-- R158, R159, R72: in every interleaving of commands, acknowledgements, receptions and resets from reset, on any
number of ports: the frames a node's queue has returned since the last reset are a subsequence of the frames stored
there, in store order, none twice; `head` and `tail` are the counts modulo `C`; and the next frame is the oldest of
the `occ` last stored. -/
def Obligations.EveryInterleavingKeepsQueueOrder : Prop :=
  ∀ (c : Config) (es : List Event) (n : NodeIdx) (k : Nat) (t : State) (stored returned : List Frame), c.wf →
    n.toNat < c.nNodes →
    runLogged n k { State.resetOf c with schedule := es } ([], []) = some (t, stored, returned) →
    let m := t.node n
    m.head = stored.length % c.queueCap ∧ m.tail = returned.length % c.queueCap ∧
      returned.length ≤ stored.length ∧ returned.Sublist stored ∧
      m.occ c.queueCap = (stored.length - returned.length) % c.queueCap ∧
      (m.head ≠ m.tail → stored[stored.length - m.occ c.queueCap]? = some (t.slot n m.tail))

/-- R158, R159: the step form of the law of the queue. Every step of every agent keeps the relation between node `n`'s
queue and the frames stored there and returned from there since the last reset: `head` and `tail` count them modulo
`C`, no more were returned than stored, the `occ` pending slots hold the `occ` last stored frames in store order, and
the returned frames are a subsequence of those stored before them. -/
def Obligations.EveryStepKeepsQueueRecord : Prop :=
  ∀ (s t : State) (n : NodeIdx) (log : List Frame × List Frame), 2 ≤ s.cfg.queueCap → n.toNat < s.nodes.length →
    (s.node n).Recorded s.cfg.queueCap log → step s = .next t →
    (t.node n).Recorded t.cfg.queueCap (bodyLogStep n s log)

/-- R160, R24: apart from reset, no step writes a node's `head`, `tail` or slots but a body step of a port whose target
it is. -/
def Obligations.OnlyBodiesWriteQueues : Prop :=
  ∀ (s t : State) (e : Event) (rest : List Event) (n : NodeIdx), s.schedule = e :: rest → step s = .next t →
    e ≠ .rst → (∀ p, e = .run p → (s.port p).phase = .qBody → (s.port p).tgt ≠ n) →
    (t.node n).head = (s.node n).head ∧ (t.node n).tail = (s.node n).tail ∧ (t.node n).slots = (s.node n).slots

/-! ### The lock -/

/-- R27, R75: two ports never hold one node's lock at once: in a state that meets the invariant, ports in Q_BODY or
Q_REL with the same target are the same port. -/
def Obligations.LockExcludesOtherPorts : Prop :=
  ∀ (s : State) (p q : Nat), s.Inv → p < s.cfg.nPorts → q < s.cfg.nPorts →
    (s.port p).phase.locked = true → (s.port q).phase.locked = true → (s.port p).tgt = (s.port q).tgt → p = q

/-- R78: every lock that is HELD becomes FREE within two more steps of its holder, whatever state the rest is in. -/
def Obligations.HolderFreesLockWithinTwoSteps : Prop :=
  ∀ (s : State) (p : Nat) (rest : List Event), s.Inv → p < s.cfg.nPorts →
    let n := (s.port p).tgt
    ((s.port p).phase = .qRel →
      ∃ t, Sys2Proof.core.run 1 { s with schedule := .run p :: rest } = .next t ∧ (t.node n).lock = .free) ∧
    ((s.port p).phase = .qBody →
      ∃ t, Sys2Proof.core.run 2 { s with schedule := .run p :: .run p :: rest } = .next t ∧ (t.node n).lock = .free)

/-! ### The serial register file -/

/-- R171, R172, R173: SERRD at BAUD, STAT and CTRL answer the register and change nothing. -/
def Obligations.SerialReadsWithoutSideEffect : Prop :=
  ∀ s : State, s.Ready →
    let baud := s.answered (answerValue 0xB s.serial.baud)
    let stat := s.answered (answerValue 0xB
      ((if s.serial.tdre then 0x00800000 else 0) ||| (if s.serial.rdrf then 0x00200000 else 0)))
    let ctrl := s.answered (answerValue 0xB s.serial.ctrl)
    exec .serrdBaud s = .next baud ∧ exec (.serrd 0x10) s = .next baud ∧
    exec .serrdStat s = .next stat ∧ exec (.serrd 0x14) s = .next stat ∧
    exec .serrdCtrl s = .next ctrl ∧ exec (.serrd 0x18) s = .next ctrl

/-- R174: SERRD at DATA answers the latch zero-extended, clears `RDRF`, lowers the line exactly when the parameter says
so, and changes nothing else. -/
def Obligations.SerialDataReadClearsReceiveFlag : Prop :=
  ∀ s : State, s.Ready →
    let t := { s with serial := { s.serial with
        rdrf := false
        irq := if s.cfg.serIrqClearOnRead then false else s.serial.irq } }.answered
      (answerValue 0xB (s.serial.data.setWidth 32))
    exec .serrdData s = .next t ∧ exec (.serrd 0x1C) s = .next t

/-- R177, R178: SERWR at BAUD stores the value verbatim; SERWR at STAT changes nothing and reports nothing. -/
def Obligations.SerialBaudAndStatWrites : Prop :=
  ∀ (s : State) (v : Word32), s.Ready →
    let baud := { s with serial := { s.serial with baud := v } }.answered 0xC
    exec (.serwrBaud v) s = .next baud ∧ exec (.serwr 0x10 v) s = .next baud ∧
    exec (.serwrStat v) s = .next (s.answered 0xC) ∧ exec (.serwr 0x14 v) s = .next (s.answered 0xC)

/-- R179: SERWR at CTRL stores the value and sets `TDRE` if the value has TE (bit 19) set; nothing else changes. -/
def Obligations.SerialCtrlWriteSetsTransmitFlag : Prop :=
  ∀ (s : State) (v : Word32), s.Ready →
    let t := { s with serial := { s.serial with
        ctrl := v
        tdre := if v.getLsbD 19 then true else s.serial.tdre } }.answered 0xC
    exec (.serwrCtrl v) s = .next t ∧ exec (.serwr 0x18 v) s = .next t

/-- R180: SERWR at DATA: with TE clear the write is dropped and reported, and nothing else changes; with TE set the low
byte goes to the sink and `TDRE` is set, and nothing else changes. -/
def Obligations.SerialDataWriteForwardsOrDrops : Prop :=
  ∀ (s : State) (v : Word32), s.Ready →
    let dropped := (s.reported 0x3 v).answered 0xC
    let sent := { s with
      serial := { s.serial with tdre := true }
      history := s.history ++ [Output.tx (v.extractLsb' 0 8)] }.answered 0xC
    (s.serial.ctrl.getLsbD 19 = false →
      exec (.serwrData v) s = .next dropped ∧ exec (.serwr 0x1C v) s = .next dropped) ∧
    (s.serial.ctrl.getLsbD 19 = true →
      exec (.serwrData v) s = .next sent ∧ exec (.serwr 0x1C v) s = .next sent)

/-- R175, R183: at any other offset, misaligned ones among them, SERRD answers 0 and SERWR does nothing; both are
reported with the offset and change no state. -/
def Obligations.SerialUnknownOffsetsAreReported : Prop :=
  ∀ (s : State) (off v : Word32), s.Ready → off ≠ 0x10 → off ≠ 0x14 → off ≠ 0x18 → off ≠ 0x1C →
    let rd := (s.reported 0x5 off).answered 0xB
    let wr := (s.reported 0x6 off).answered 0xC
    exec (.serrdUnknown off) s = .next rd ∧ exec (.serrd off) s = .next rd ∧
    exec (.serwrUnknown off v) s = .next wr ∧ exec (.serwr off v) s = .next wr

/-- R184: a received byte is latched and sets `RDRF` and the line when RE (bit 18) is set, whatever they were; with RE
clear it is dropped and reported on port RX, and nothing else changes. -/
def Obligations.ReceptionLatchesOrDrops : Prop :=
  ∀ (s : State) (b : Byte) (rest : List Event),
    (s.serial.ctrl.getLsbD 18 = true →
      step { s with schedule := .rx b :: rest } = .next { s with
        schedule := rest
        serial := { s.serial with data := b, rdrf := true, irq := true } }) ∧
    (s.serial.ctrl.getLsbD 18 = false →
      step { s with schedule := .rx b :: rest } = .next { s with
        schedule := rest
        history := s.history ++ [.diagnostic .rx (eventWord 0x4 (b.setWidth 32))] })

/-- R181: no step but reset clears `TDRE`, and a step that sets it is a SERWR of CTRL with TE in the value or of DATA
with TE set. -/
def Obligations.TransmitFlagIsClearedOnlyByReset : Prop :=
  ∀ (s t : State) (e : Event) (rest : List Event), s.schedule = e :: rest → step s = .next t → e ≠ .rst →
    (s.serial.tdre = true → t.serial.tdre = true) ∧
    (s.serial.tdre = false → t.serial.tdre = true → ∃ p, e = .run p ∧
      ((∃ v, (s.port p).instr = .serwrCtrl v ∧ v.getLsbD 19 = true) ∨
        ∃ v, (s.port p).instr = .serwrData v ∧ s.serial.ctrl.getLsbD 19 = true))

/-- R186, R225: `RDRF` and the interrupt line rise only in a reception with RE set and, reset apart, fall only in a DATA
read. -/
def Obligations.ReceiveFlagChangesOnlyByReceptionAndRead : Prop :=
  ∀ (s t : State) (e : Event) (rest : List Event), s.schedule = e :: rest → step s = .next t → e ≠ .rst →
    (s.serial.rdrf = false ∧ t.serial.rdrf = true ∨ s.serial.irq = false ∧ t.serial.irq = true →
      (∃ b, e = .rx b) ∧ s.serial.ctrl.getLsbD 18 = true) ∧
    (s.serial.rdrf = true ∧ t.serial.rdrf = false ∨ s.serial.irq = true ∧ t.serial.irq = false →
      ∃ p, e = .run p ∧ (s.port p).instr = .serrdData)

/-- R2, R3: the serial file and the arbiter are independent. A step of a serial command or a reception writes no node
and no registry entry, and reads none: with any other nodes and registry the same step is taken. A step of any other
command, or of the environment, writes no serial state, and reads none: with any other serial file the same step is
taken, with the same outputs. Reset apart. -/
def Obligations.SerialFileAndArbiterAreIndependent : Prop :=
  ∀ (s t : State) (e : Event) (rest : List Event), s.schedule = e :: rest → step s = .next t → e ≠ .rst →
    ((∃ b, e = .rx b) ∨ (∃ p, e = .run p ∧ (s.port p).instr.isSerial = true) →
      t.nodes = s.nodes ∧ t.registry = s.registry ∧
        ∀ (nodes : List Node) (registry : List NodeIdx),
          step { s with nodes := nodes, registry := registry } =
            .next { t with nodes := nodes, registry := registry }) ∧
    ((∀ b, e ≠ .rx b) → (∀ p, e = .run p → (s.port p).instr.isSerial = false) →
      t.serial = s.serial ∧
        ∀ serial : Serial, step { s with serial := serial } = .next { t with serial := serial })

/-! ### The bus-controller register files -/

/-- R200: BCRD of a node that exists answers the register its offset selects and changes nothing. -/
def Obligations.BusControllerReads : Prop :=
  ∀ (s : State) (n : NodeIdx), s.Ready → n.toNat < s.cfg.nNodes →
    let value := fun v => Host.Outcome.next (ρ := Refusal) (φ := Fault) (s.answered (answerValue 0x9 v))
    exec (.bcrdMcr n) s = value (s.node n).mcr ∧ exec (.bcrd n 0x00) s = value (s.node n).mcr ∧
    exec (.bcrdCtrl n) s = value (s.node n).ctrlBc ∧ exec (.bcrd n 0x04) s = value (s.node n).ctrlBc ∧
    exec (.bcrdTfr n) s = value (s.node n).tfr ∧ exec (.bcrd n 0x08) s = value (s.node n).tfr ∧
    exec (.bcrdRfr n) s = value (s.node n).rfr ∧ exec (.bcrd n 0x0C) s = value (s.node n).rfr

/-- R201: BCWR of a node that exists stores all 32 bits in the register its offset selects and changes nothing else. -/
def Obligations.BusControllerWrites : Prop :=
  ∀ (s : State) (n : NodeIdx) (v : Word32), s.Ready → n.toNat < s.cfg.nNodes →
    let written := fun g => Host.Outcome.next (ρ := Refusal) (φ := Fault) ((s.withNode n g).answered 0xA)
    exec (.bcwrMcr n v) s = written (fun m => { m with mcr := v }) ∧
    exec (.bcwr n 0x00 v) s = written (fun m => { m with mcr := v }) ∧
    exec (.bcwrCtrl n v) s = written (fun m => { m with ctrlBc := v }) ∧
    exec (.bcwr n 0x04 v) s = written (fun m => { m with ctrlBc := v }) ∧
    exec (.bcwrTfr n v) s = written (fun m => { m with tfr := v }) ∧
    exec (.bcwr n 0x08 v) s = written (fun m => { m with tfr := v }) ∧
    exec (.bcwrRfr n v) s = written (fun m => { m with rfr := v }) ∧
    exec (.bcwr n 0x0C v) s = written (fun m => { m with rfr := v })

/-- R202: at any other offset BCRD answers 0 and BCWR does nothing; both are reported with the offset. -/
def Obligations.BusControllerUnknownOffsetsAreReported : Prop :=
  ∀ (s : State) (n : NodeIdx) (off v : Word32), s.Ready → n.toNat < s.cfg.nNodes →
    off ≠ 0x00 → off ≠ 0x04 → off ≠ 0x08 → off ≠ 0x0C →
    let rd := (s.reported 0x7 off).answered 0x9
    let wr := (s.reported 0x8 off).answered 0xA
    exec (.bcrdUnknown n off) s = .next rd ∧ exec (.bcrd n off) s = .next rd ∧
    exec (.bcwrUnknown n off v) s = .next wr ∧ exec (.bcwr n off v) s = .next wr

/-! ### Whole-machine rules -/

/-- R22: apart from reset, only INIT, ATTACH and REALIZE change the registry, INIT by emptying it, the other two by
appending the node they name, so that no entry changes its position. -/
def Obligations.OnlyRegistrationChangesRegistry : Prop :=
  ∀ (s t : State) (e : Event) (rest : List Event), s.schedule = e :: rest → step s = .next t → e ≠ .rst →
    t.registry = s.registry ∨
    ∃ p, e = .run p ∧
      (((s.port p).instr = .init ∧ t.registry = []) ∨
        ∃ n, ((s.port p).instr = .attach n ∨ (s.port p).instr = .realize n) ∧ t.registry = s.registry ++ [n])

/-- R28, R29, R30: no step but reset clears `notify_en`, `bus_ref` or `realized`, and only SETNOTIFY, LINK and REALIZE
of that node set them. -/
def Obligations.NodeFlagsAreClearedOnlyByReset : Prop :=
  ∀ (s t : State) (e : Event) (rest : List Event) (n : NodeIdx), s.schedule = e :: rest → step s = .next t → e ≠ .rst →
    ((s.node n).notifyEn = true → (t.node n).notifyEn = true) ∧
    ((s.node n).busRef = true → (t.node n).busRef = true) ∧
    ((s.node n).realized = true → (t.node n).realized = true) ∧
    ((s.node n).notifyEn = false → (t.node n).notifyEn = true →
      ∃ p, e = .run p ∧ (s.port p).instr = .setnotify n) ∧
    ((s.node n).busRef = false → (t.node n).busRef = true → ∃ p, e = .run p ∧ (s.port p).instr = .link n) ∧
    ((s.node n).realized = false → (t.node n).realized = true → ∃ p, e = .run p ∧ (s.port p).instr = .realize n)

/-- R31, R200, R204: nothing but reset and a BCWR of that node and register changes a bus-controller register, and the
BCWR leaves the value it carries. -/
def Obligations.OnlyBcwrChangesControllerRegisters : Prop :=
  ∀ (s t : State) (e : Event) (rest : List Event) (n : NodeIdx), s.schedule = e :: rest → step s = .next t → e ≠ .rst →
    ((t.node n).mcr ≠ (s.node n).mcr → ∃ p, e = .run p ∧ (s.port p).instr = .bcwrMcr n (t.node n).mcr) ∧
    ((t.node n).ctrlBc ≠ (s.node n).ctrlBc → ∃ p, e = .run p ∧ (s.port p).instr = .bcwrCtrl n (t.node n).ctrlBc) ∧
    ((t.node n).tfr ≠ (s.node n).tfr → ∃ p, e = .run p ∧ (s.port p).instr = .bcwrTfr n (t.node n).tfr) ∧
    ((t.node n).rfr ≠ (s.node n).rfr → ∃ p, e = .run p ∧ (s.port p).instr = .bcwrRfr n (t.node n).rfr)

/-! ### Reset and the invariant -/

/-- R42: every state element with a reset value has it after reset; nothing is stored in any slot. `State.reset` is the
reset state of the default parameters (the model's choice, log entry 1). -/
def Obligations.ResetValues : Prop :=
  (∀ c : Config,
    let s := State.resetOf c
    s.cfg = c ∧ s.registry = [] ∧ s.nodes.length = c.nNodes ∧ s.ports.length = c.nPorts ∧
    (∀ m ∈ s.nodes, m.slots = [] ∧ m.head = 0 ∧ m.tail = 0 ∧ m.lock = .free ∧ m.notifyEn = false ∧
      m.busRef = false ∧ m.realized = false ∧ m.mcr = 0 ∧ m.ctrlBc = 0 ∧ m.tfr = 0 ∧ m.rfr = 0) ∧
    (∀ q ∈ s.ports, q.phase = .idle) ∧
    s.serial.baud = 0 ∧ s.serial.tdre = false ∧ s.serial.rdrf = false ∧ s.serial.ctrl = 0 ∧ s.serial.data = 0 ∧
    s.serial.irq = false) ∧
  State.reset = State.resetOf Config.default

/-- R250: hardware reset during a run gives every state element its reset value: every port is IDLE, no notification is
pending, every lock is FREE, every queue is empty, the line is low; no output is emitted, so an abandoned operation
is never answered. The schedule and the record stay (the model's choice, log entry 14). -/
def Obligations.HardwareResetAbandonsEverything : Prop :=
  ∀ (s : State) (rest : List Event), ∃ t, step { s with schedule := .rst :: rest } = .next t ∧
    { t with schedule := [], history := [] } = State.resetOf s.cfg ∧ t.schedule = rest ∧ t.history = s.history ∧
    (∀ p, (t.port p).phase = .idle ∧ t.cmdReady p = true ∧ t.ntfValid p = false) ∧ t.serIrq = false ∧
    ∀ n, (t.node n).lock = .free ∧ (t.node n).isEmpty = true

/-- R251: the reset state of every block meets the invariant. -/
def Obligations.ResetMeetsInvariant : Prop :=
  ∀ c : Config, c.wf → (State.resetOf c).Inv

/-- R22, R24, R27, R38, R182: every step of every agent keeps the invariant: registry bounded, duplicate-free and of
valid nodes; queue indices in range, storage canonical, every reachable slot stored to; a lock held exactly by the port
that is in its queue; the cursor in range; the serial flags consistent. -/
def Obligations.EveryStepKeepsInvariant : Prop :=
  ∀ s t : State, s.Inv → step s = .next t → t.Inv
end

