-- ==== Sys2Proof/Laws/State.lean ====
section
/-! SUPPORT. What each named update of State leaves and what it changes: one lemma per field per update, and the two
accessors `State.node` and `State.port` after each update. -/

namespace Sys2Proof.Machine


/-! ### `State.updNode` -/

@[simp] theorem State.updNode_cfg (s : State) (n : NodeIdx) (g : Node → Node) :
    (s.updNode n g).cfg = s.cfg := rfl

@[simp] theorem State.updNode_registry (s : State) (n : NodeIdx) (g : Node → Node) :
    (s.updNode n g).registry = s.registry := rfl

@[simp] theorem State.updNode_nodes (s : State) (n : NodeIdx) (g : Node → Node) :
    (s.updNode n g).nodes = s.nodes.modify n.toNat g := rfl

@[simp] theorem State.updNode_serial (s : State) (n : NodeIdx) (g : Node → Node) :
    (s.updNode n g).serial = s.serial := rfl

@[simp] theorem State.updNode_ports (s : State) (n : NodeIdx) (g : Node → Node) :
    (s.updNode n g).ports = s.ports := rfl

@[simp] theorem State.updNode_active (s : State) (n : NodeIdx) (g : Node → Node) :
    (s.updNode n g).active = s.active := rfl

@[simp] theorem State.updNode_schedule (s : State) (n : NodeIdx) (g : Node → Node) :
    (s.updNode n g).schedule = s.schedule := rfl

@[simp] theorem State.updNode_history (s : State) (n : NodeIdx) (g : Node → Node) :
    (s.updNode n g).history = s.history := rfl


/-! ### `State.updPort` -/

@[simp] theorem State.updPort_cfg (s : State) (p : Nat) (g : Port → Port) :
    (s.updPort p g).cfg = s.cfg := rfl

@[simp] theorem State.updPort_registry (s : State) (p : Nat) (g : Port → Port) :
    (s.updPort p g).registry = s.registry := rfl

@[simp] theorem State.updPort_nodes (s : State) (p : Nat) (g : Port → Port) :
    (s.updPort p g).nodes = s.nodes := rfl

@[simp] theorem State.updPort_serial (s : State) (p : Nat) (g : Port → Port) :
    (s.updPort p g).serial = s.serial := rfl

@[simp] theorem State.updPort_ports (s : State) (p : Nat) (g : Port → Port) :
    (s.updPort p g).ports = s.ports.modify p g := rfl

@[simp] theorem State.updPort_active (s : State) (p : Nat) (g : Port → Port) :
    (s.updPort p g).active = s.active := rfl

@[simp] theorem State.updPort_schedule (s : State) (p : Nat) (g : Port → Port) :
    (s.updPort p g).schedule = s.schedule := rfl

@[simp] theorem State.updPort_history (s : State) (p : Nat) (g : Port → Port) :
    (s.updPort p g).history = s.history := rfl


/-! ### `State.emit` -/

@[simp] theorem State.emit_cfg (s : State) (o : Output) :
    (s.emit o).cfg = s.cfg := rfl

@[simp] theorem State.emit_registry (s : State) (o : Output) :
    (s.emit o).registry = s.registry := rfl

@[simp] theorem State.emit_nodes (s : State) (o : Output) :
    (s.emit o).nodes = s.nodes := rfl

@[simp] theorem State.emit_serial (s : State) (o : Output) :
    (s.emit o).serial = s.serial := rfl

@[simp] theorem State.emit_ports (s : State) (o : Output) :
    (s.emit o).ports = s.ports := rfl

@[simp] theorem State.emit_active (s : State) (o : Output) :
    (s.emit o).active = s.active := rfl

@[simp] theorem State.emit_schedule (s : State) (o : Output) :
    (s.emit o).schedule = s.schedule := rfl

@[simp] theorem State.emit_history (s : State) (o : Output) :
    (s.emit o).history = s.history ++ [o] := rfl


/-! ### `State.setPhase` -/

@[simp] theorem State.setPhase_cfg (s : State) (p : Nat) (ph : Phase) :
    (s.setPhase p ph).cfg = s.cfg := rfl

@[simp] theorem State.setPhase_registry (s : State) (p : Nat) (ph : Phase) :
    (s.setPhase p ph).registry = s.registry := rfl

@[simp] theorem State.setPhase_nodes (s : State) (p : Nat) (ph : Phase) :
    (s.setPhase p ph).nodes = s.nodes := rfl

@[simp] theorem State.setPhase_serial (s : State) (p : Nat) (ph : Phase) :
    (s.setPhase p ph).serial = s.serial := rfl

@[simp] theorem State.setPhase_ports (s : State) (p : Nat) (ph : Phase) :
    (s.setPhase p ph).ports = s.ports.modify p fun q => { q with phase := ph } := rfl

@[simp] theorem State.setPhase_active (s : State) (p : Nat) (ph : Phase) :
    (s.setPhase p ph).active = s.active := rfl

@[simp] theorem State.setPhase_schedule (s : State) (p : Nat) (ph : Phase) :
    (s.setPhase p ph).schedule = s.schedule := rfl

@[simp] theorem State.setPhase_history (s : State) (p : Nat) (ph : Phase) :
    (s.setPhase p ph).history = s.history := rfl


/-! ### `State.diag` -/

@[simp] theorem State.diag_cfg (s : State) (p : Nat) (c : DiagCode) (info : Word32) :
    (s.diag p c info).cfg = s.cfg := rfl

@[simp] theorem State.diag_registry (s : State) (p : Nat) (c : DiagCode) (info : Word32) :
    (s.diag p c info).registry = s.registry := rfl

@[simp] theorem State.diag_nodes (s : State) (p : Nat) (c : DiagCode) (info : Word32) :
    (s.diag p c info).nodes = s.nodes := rfl

@[simp] theorem State.diag_serial (s : State) (p : Nat) (c : DiagCode) (info : Word32) :
    (s.diag p c info).serial = s.serial := rfl

@[simp] theorem State.diag_ports (s : State) (p : Nat) (c : DiagCode) (info : Word32) :
    (s.diag p c info).ports = s.ports := rfl

@[simp] theorem State.diag_active (s : State) (p : Nat) (c : DiagCode) (info : Word32) :
    (s.diag p c info).active = s.active := rfl

@[simp] theorem State.diag_schedule (s : State) (p : Nat) (c : DiagCode) (info : Word32) :
    (s.diag p c info).schedule = s.schedule := rfl

@[simp] theorem State.diag_history (s : State) (p : Nat) (c : DiagCode) (info : Word32) :
    (s.diag p c info).history = s.history ++ [.diagnostic (.port p) (diagnosticWord c info)] := rfl


/-! ### `State.respond` -/

@[simp] theorem State.respond_cfg (s : State) (p : Nat) (op : BitVec 4) (hit : Bool) (f : Frame) :
    (s.respond p op hit f).cfg = s.cfg := rfl

@[simp] theorem State.respond_registry (s : State) (p : Nat) (op : BitVec 4) (hit : Bool) (f : Frame) :
    (s.respond p op hit f).registry = s.registry := rfl

@[simp] theorem State.respond_nodes (s : State) (p : Nat) (op : BitVec 4) (hit : Bool) (f : Frame) :
    (s.respond p op hit f).nodes = s.nodes := rfl

@[simp] theorem State.respond_serial (s : State) (p : Nat) (op : BitVec 4) (hit : Bool) (f : Frame) :
    (s.respond p op hit f).serial = s.serial := rfl

@[simp] theorem State.respond_ports (s : State) (p : Nat) (op : BitVec 4) (hit : Bool) (f : Frame) :
    (s.respond p op hit f).ports = s.ports.modify p fun q => { q with phase := .idle } := rfl

@[simp] theorem State.respond_active (s : State) (p : Nat) (op : BitVec 4) (hit : Bool) (f : Frame) :
    (s.respond p op hit f).active = s.active := rfl

@[simp] theorem State.respond_schedule (s : State) (p : Nat) (op : BitVec 4) (hit : Bool) (f : Frame) :
    (s.respond p op hit f).schedule = s.schedule := rfl

@[simp] theorem State.respond_history (s : State) (p : Nat) (op : BitVec 4) (hit : Bool) (f : Frame) :
    (s.respond p op hit f).history = s.history ++ [.response p (responseWord op hit f)] := rfl


/-! ### `State.complete` -/

@[simp] theorem State.complete_cfg (s : State) (p : Nat) (op : BitVec 4) :
    (s.complete p op).cfg = s.cfg := rfl

@[simp] theorem State.complete_registry (s : State) (p : Nat) (op : BitVec 4) :
    (s.complete p op).registry = s.registry := rfl

@[simp] theorem State.complete_nodes (s : State) (p : Nat) (op : BitVec 4) :
    (s.complete p op).nodes = s.nodes := rfl

@[simp] theorem State.complete_serial (s : State) (p : Nat) (op : BitVec 4) :
    (s.complete p op).serial = s.serial := rfl

@[simp] theorem State.complete_ports (s : State) (p : Nat) (op : BitVec 4) :
    (s.complete p op).ports = s.ports.modify p fun q => { q with phase := .idle } := rfl

@[simp] theorem State.complete_active (s : State) (p : Nat) (op : BitVec 4) :
    (s.complete p op).active = s.active := rfl

@[simp] theorem State.complete_schedule (s : State) (p : Nat) (op : BitVec 4) :
    (s.complete p op).schedule = s.schedule := rfl

@[simp] theorem State.complete_history (s : State) (p : Nat) (op : BitVec 4) :
    (s.complete p op).history = s.history ++ [.response p (responseWord op false 0)] := rfl


/-! ### `State.respondValue` -/

@[simp] theorem State.respondValue_cfg (s : State) (p : Nat) (op : BitVec 4) (v : Word32) :
    (s.respondValue p op v).cfg = s.cfg := rfl

@[simp] theorem State.respondValue_registry (s : State) (p : Nat) (op : BitVec 4) (v : Word32) :
    (s.respondValue p op v).registry = s.registry := rfl

@[simp] theorem State.respondValue_nodes (s : State) (p : Nat) (op : BitVec 4) (v : Word32) :
    (s.respondValue p op v).nodes = s.nodes := rfl

@[simp] theorem State.respondValue_serial (s : State) (p : Nat) (op : BitVec 4) (v : Word32) :
    (s.respondValue p op v).serial = s.serial := rfl

@[simp] theorem State.respondValue_ports (s : State) (p : Nat) (op : BitVec 4) (v : Word32) :
    (s.respondValue p op v).ports = s.ports.modify p fun q => { q with phase := .idle } := rfl

@[simp] theorem State.respondValue_active (s : State) (p : Nat) (op : BitVec 4) (v : Word32) :
    (s.respondValue p op v).active = s.active := rfl

@[simp] theorem State.respondValue_schedule (s : State) (p : Nat) (op : BitVec 4) (v : Word32) :
    (s.respondValue p op v).schedule = s.schedule := rfl

@[simp] theorem State.respondValue_history (s : State) (p : Nat) (op : BitVec 4) (v : Word32) :
    (s.respondValue p op v).history = s.history ++ [.response p (responseWord op false (valuePayload v))] := rfl


/-! ### `State.unlock` -/

@[simp] theorem State.unlock_cfg (s : State) (p : Nat) :
    (s.unlock p).cfg = s.cfg := rfl

@[simp] theorem State.unlock_registry (s : State) (p : Nat) :
    (s.unlock p).registry = s.registry := rfl

@[simp] theorem State.unlock_nodes (s : State) (p : Nat) :
    (s.unlock p).nodes = s.nodes.modify (s.port p).tgt.toNat fun m => { m with lock := .free } := rfl

@[simp] theorem State.unlock_serial (s : State) (p : Nat) :
    (s.unlock p).serial = s.serial := rfl

@[simp] theorem State.unlock_ports (s : State) (p : Nat) :
    (s.unlock p).ports = s.ports := rfl

@[simp] theorem State.unlock_active (s : State) (p : Nat) :
    (s.unlock p).active = s.active := rfl

@[simp] theorem State.unlock_schedule (s : State) (p : Nat) :
    (s.unlock p).schedule = s.schedule := rfl

@[simp] theorem State.unlock_history (s : State) (p : Nat) :
    (s.unlock p).history = s.history := rfl


/-! ### `State.advance` -/

@[simp] theorem State.advance_cfg (s : State) (p : Nat) :
    (s.advance p).cfg = s.cfg := rfl

@[simp] theorem State.advance_registry (s : State) (p : Nat) :
    (s.advance p).registry = s.registry := rfl

@[simp] theorem State.advance_nodes (s : State) (p : Nat) :
    (s.advance p).nodes = s.nodes := rfl

@[simp] theorem State.advance_serial (s : State) (p : Nat) :
    (s.advance p).serial = s.serial := rfl

@[simp] theorem State.advance_ports (s : State) (p : Nat) :
    (s.advance p).ports = s.ports.modify p fun q => { q with cur := q.cur + 1, phase := .tScan } := rfl

@[simp] theorem State.advance_active (s : State) (p : Nat) :
    (s.advance p).active = s.active := rfl

@[simp] theorem State.advance_schedule (s : State) (p : Nat) :
    (s.advance p).schedule = s.schedule := rfl

@[simp] theorem State.advance_history (s : State) (p : Nat) :
    (s.advance p).history = s.history := rfl


/-! ### `State.notify` -/

@[simp] theorem State.notify_cfg (s : State) (p : Nat) (f : Frame) :
    (s.notify p f).cfg = s.cfg := rfl

@[simp] theorem State.notify_registry (s : State) (p : Nat) (f : Frame) :
    (s.notify p f).registry = s.registry := rfl

@[simp] theorem State.notify_nodes (s : State) (p : Nat) (f : Frame) :
    (s.notify p f).nodes = s.nodes := rfl

@[simp] theorem State.notify_serial (s : State) (p : Nat) (f : Frame) :
    (s.notify p f).serial = s.serial := rfl

@[simp] theorem State.notify_ports (s : State) (p : Nat) (f : Frame) :
    (s.notify p f).ports = s.ports.modify p fun q => { q with phase := .tNtf } := rfl

@[simp] theorem State.notify_active (s : State) (p : Nat) (f : Frame) :
    (s.notify p f).active = s.active := rfl

@[simp] theorem State.notify_schedule (s : State) (p : Nat) (f : Frame) :
    (s.notify p f).schedule = s.schedule := rfl

@[simp] theorem State.notify_history (s : State) (p : Nat) (f : Frame) :
    (s.notify p f).history = s.history ++ [.notification p (notificationWord (s.port p).tgt f)] := rfl


/-! ### `State.latch` -/

@[simp] theorem State.latch_cfg (s : State) (p : Nat) (w : CmdWord) :
    (s.latch p w).cfg = s.cfg := rfl

@[simp] theorem State.latch_registry (s : State) (p : Nat) (w : CmdWord) :
    (s.latch p w).registry = s.registry := rfl

@[simp] theorem State.latch_nodes (s : State) (p : Nat) (w : CmdWord) :
    (s.latch p w).nodes = s.nodes := rfl

@[simp] theorem State.latch_serial (s : State) (p : Nat) (w : CmdWord) :
    (s.latch p w).serial = s.serial := rfl

@[simp] theorem State.latch_ports (s : State) (p : Nat) (w : CmdWord) :
    (s.latch p w).ports = s.ports.modify p (Port.latch s.cfg w) := rfl

@[simp] theorem State.latch_active (s : State) (p : Nat) (w : CmdWord) :
    (s.latch p w).active = s.active := rfl

@[simp] theorem State.latch_schedule (s : State) (p : Nat) (w : CmdWord) :
    (s.latch p w).schedule = s.schedule := rfl

@[simp] theorem State.latch_history (s : State) (p : Nat) (w : CmdWord) :
    (s.latch p w).history = s.history := rfl


/-! ### `State.qBodyStore` -/

@[simp] theorem State.qBodyStore_cfg (s : State) (p : Nat) (f : Frame) :
    (s.qBodyStore p f).cfg = s.cfg := rfl

@[simp] theorem State.qBodyStore_registry (s : State) (p : Nat) (f : Frame) :
    (s.qBodyStore p f).registry = s.registry := rfl

@[simp] theorem State.qBodyStore_nodes (s : State) (p : Nat) (f : Frame) :
    (s.qBodyStore p f).nodes = s.nodes.modify (s.port p).tgt.toNat fun m => m.store s.cfg.queueCap f := rfl

@[simp] theorem State.qBodyStore_serial (s : State) (p : Nat) (f : Frame) :
    (s.qBodyStore p f).serial = s.serial := rfl

@[simp] theorem State.qBodyStore_ports (s : State) (p : Nat) (f : Frame) :
    (s.qBodyStore p f).ports = s.ports.modify p fun q => { q with phase := .qRel } := rfl

@[simp] theorem State.qBodyStore_active (s : State) (p : Nat) (f : Frame) :
    (s.qBodyStore p f).active = s.active := rfl

@[simp] theorem State.qBodyStore_schedule (s : State) (p : Nat) (f : Frame) :
    (s.qBodyStore p f).schedule = s.schedule := rfl

@[simp] theorem State.qBodyStore_history (s : State) (p : Nat) (f : Frame) :
    (s.qBodyStore p f).history = s.history := rfl

/-! ### The accessors -/

theorem toNat_inj_ne {m n : NodeIdx} (h : m ≠ n) : m.toNat ≠ n.toNat := fun e => h (BitVec.eq_of_toNat_eq e)

theorem getD_modify_self {α : Type} (l : List α) (i : Nat) (g : α → α) (d : α) (h : i < l.length) :
    (l.modify i g).getD i d = g (l.getD i d) := by
  simp [List.getD_eq_getElem?_getD, h]

theorem getD_modify_ne {α : Type} (l : List α) {i j : Nat} (g : α → α) (d : α) (h : i ≠ j) :
    (l.modify i g).getD j d = l.getD j d := by
  simp [List.getD_eq_getElem?_getD, h]

/-- The node changed reads as changed. -/
theorem State.node_updNode_self (s : State) (n : NodeIdx) (g : Node → Node) (h : n.toNat < s.nodes.length) :
    (s.updNode n g).node n = g (s.node n) := getD_modify_self _ _ _ _ h

/-- Every other node reads as before. -/
theorem State.node_updNode_ne (s : State) {m n : NodeIdx} (g : Node → Node) (h : m ≠ n) :
    (s.updNode n g).node m = s.node m := getD_modify_ne _ _ _ (toNat_inj_ne h).symm

/-- Any node after a node was changed. -/
theorem State.node_updNode (s : State) (m n : NodeIdx) (g : Node → Node) (h : n.toNat < s.nodes.length) :
    (s.updNode n g).node m = if m = n then g (s.node m) else s.node m := by
  split
  · next e => subst e; exact s.node_updNode_self m g h
  · next e => exact s.node_updNode_ne g e

/-- A projection that `g` keeps reads as before at every node, whether or not the node exists. -/
theorem State.node_updNode_proj {α : Type} (s : State) (m n : NodeIdx) (g : Node → Node) (π : Node → α)
    (hg : ∀ x, π (g x) = π x) : π ((s.updNode n g).node m) = π (s.node m) := by
  by_cases hn : n.toNat < s.nodes.length
  · rw [s.node_updNode m n g hn]; split <;> simp [hg]
  · have : s.nodes.modify n.toNat g = s.nodes := by
      rw [List.modify_eq_self]; omega
    simp [State.node, State.updNode, this]

/-- The sequencer changed reads as changed. -/
theorem State.port_updPort_self (s : State) (p : Nat) (g : Port → Port) (h : p < s.ports.length) :
    (s.updPort p g).port p = g (s.port p) := getD_modify_self _ _ _ _ h

/-- Every other sequencer reads as before. -/
theorem State.port_updPort_ne (s : State) {p q : Nat} (g : Port → Port) (h : q ≠ p) :
    (s.updPort p g).port q = s.port q := getD_modify_ne _ _ _ h.symm

/-- A port that the state does not hold reads as IDLE; so a port that is not IDLE is held. -/
theorem State.lt_of_phase_ne_idle {s : State} {p : Nat} (h : (s.port p).phase ≠ .idle) : p < s.ports.length := by
  by_contra hp
  apply h
  have : s.port p = Port.reset p := by
    simp only [State.port, List.getD_eq_getElem?_getD]
    rw [List.getElem?_eq_none (by omega)]; rfl
  rw [this]; rfl

/-- `State.node` reads only the nodes. -/
theorem State.node_congr {s t : State} (h : t.nodes = s.nodes) (n : NodeIdx) : t.node n = s.node n := by
  simp [State.node, h]

/-- `State.port` reads only the ports. -/
theorem State.port_congr {s t : State} (h : t.ports = s.ports) (p : Nat) : t.port p = s.port p := by
  simp [State.port, h]

/-- `State.slot` reads only the nodes. -/
theorem State.slot_congr {s t : State} (h : t.nodes = s.nodes) (n : NodeIdx) (i : Nat) : t.slot n i = s.slot n i := by
  simp [State.slot, State.node, h]

@[simp] theorem State.updNode_port (s : State) (n : NodeIdx) (g : Node → Node) (r : Nat) :
    (s.updNode n g).port r = s.port r := rfl

@[simp] theorem State.updPort_node (s : State) (p : Nat) (g : Port → Port) (m : NodeIdx) :
    (s.updPort p g).node m = s.node m := rfl

@[simp] theorem State.emit_node (s : State) (o : Output) (m : NodeIdx) :
    (s.emit o).node m = s.node m := rfl

@[simp] theorem State.emit_port (s : State) (o : Output) (r : Nat) :
    (s.emit o).port r = s.port r := rfl

@[simp] theorem State.setPhase_node (s : State) (p : Nat) (ph : Phase) (m : NodeIdx) :
    (s.setPhase p ph).node m = s.node m := rfl

@[simp] theorem State.diag_node (s : State) (p : Nat) (c : DiagCode) (info : Word32) (m : NodeIdx) :
    (s.diag p c info).node m = s.node m := rfl

@[simp] theorem State.diag_port (s : State) (p : Nat) (c : DiagCode) (info : Word32) (r : Nat) :
    (s.diag p c info).port r = s.port r := rfl

@[simp] theorem State.respond_node (s : State) (p : Nat) (op : BitVec 4) (hit : Bool) (f : Frame) (m : NodeIdx) :
    (s.respond p op hit f).node m = s.node m := rfl

@[simp] theorem State.complete_node (s : State) (p : Nat) (op : BitVec 4) (m : NodeIdx) :
    (s.complete p op).node m = s.node m := rfl

@[simp] theorem State.respondValue_node (s : State) (p : Nat) (op : BitVec 4) (v : Word32) (m : NodeIdx) :
    (s.respondValue p op v).node m = s.node m := rfl

@[simp] theorem State.unlock_port (s : State) (p : Nat) (r : Nat) :
    (s.unlock p).port r = s.port r := rfl

@[simp] theorem State.advance_node (s : State) (p : Nat) (m : NodeIdx) :
    (s.advance p).node m = s.node m := rfl

@[simp] theorem State.notify_node (s : State) (p : Nat) (f : Frame) (m : NodeIdx) :
    (s.notify p f).node m = s.node m := rfl

@[simp] theorem State.latch_node (s : State) (p : Nat) (w : CmdWord) (m : NodeIdx) :
    (s.latch p w).node m = s.node m := rfl

@[simp] theorem State.node_with_registry (s : State) (x : List NodeIdx) (m : NodeIdx) :
    State.node { s with registry := x } m = s.node m := rfl

@[simp] theorem State.port_with_registry (s : State) (x : List NodeIdx) (m : Nat) :
    State.port { s with registry := x } m = s.port m := rfl

@[simp] theorem State.node_with_serial (s : State) (x : Serial) (m : NodeIdx) :
    State.node { s with serial := x } m = s.node m := rfl

@[simp] theorem State.port_with_serial (s : State) (x : Serial) (m : Nat) :
    State.port { s with serial := x } m = s.port m := rfl

@[simp] theorem State.node_with_active (s : State) (x : Nat) (m : NodeIdx) :
    State.node { s with active := x } m = s.node m := rfl

@[simp] theorem State.port_with_active (s : State) (x : Nat) (m : Nat) :
    State.port { s with active := x } m = s.port m := rfl

@[simp] theorem State.node_with_schedule (s : State) (x : List Event) (m : NodeIdx) :
    State.node { s with schedule := x } m = s.node m := rfl

@[simp] theorem State.port_with_schedule (s : State) (x : List Event) (m : Nat) :
    State.port { s with schedule := x } m = s.port m := rfl

@[simp] theorem State.node_with_history (s : State) (x : List Output) (m : NodeIdx) :
    State.node { s with history := x } m = s.node m := rfl

@[simp] theorem State.port_with_history (s : State) (x : List Output) (m : Nat) :
    State.port { s with history := x } m = s.port m := rfl

end Sys2Proof.Machine
end

