-- ==== Sys2Proof/Laws/Words.lean ====
section
/-! SUPPORT. The words the block emits, bit by bit equal to the words written out from R98 to R100 and R172, and the
fields of a command word that `commandWord` builds. -/

namespace Sys2Proof

/-! ### Fields of a built command word (R91) -/

theorem opField_commandWord (op : BitVec 4) (n : NodeIdx) (f : Frame) : opField (commandWord op n f) = op := by
  apply BitVec.eq_of_getLsbD_eq
  intro i hi
  simp only [opField, commandWord, BitVec.getLsbD_extractLsb', BitVec.getLsbD_append]
  grind

theorem nodeField_commandWord (op : BitVec 4) (n : NodeIdx) (f : Frame) : nodeField (commandWord op n f) = n := by
  apply BitVec.eq_of_getLsbD_eq
  intro i hi
  simp only [nodeField, commandWord, BitVec.getLsbD_extractLsb', BitVec.getLsbD_append]
  grind

theorem frameField_commandWord (op : BitVec 4) (n : NodeIdx) (f : Frame) : frameField (commandWord op n f) = f := by
  apply BitVec.eq_of_getLsbD_eq
  intro i hi
  simp only [frameField, commandWord, BitVec.getLsbD_extractLsb', BitVec.getLsbD_append, BitVec.getLsbD_zero]
  grind

/-- Format R: the offset stands at the low end of the operand field. -/
theorem offField_commandWord (op : BitVec 4) (n : NodeIdx) (off val : Word32) :
    offField (commandWord op n (registerPayload off val)) = off := by
  apply BitVec.eq_of_getLsbD_eq
  intro i hi
  simp only [offField, commandWord, registerPayload, BitVec.getLsbD_extractLsb', BitVec.getLsbD_append,
    BitVec.getLsbD_zero]
  grind

/-- Format R: the value stands above the offset. -/
theorem valField_commandWord (op : BitVec 4) (n : NodeIdx) (off val : Word32) :
    valField (commandWord op n (registerPayload off val)) = val := by
  apply BitVec.eq_of_getLsbD_eq
  intro i hi
  simp only [valField, commandWord, registerPayload, BitVec.getLsbD_extractLsb', BitVec.getLsbD_append,
    BitVec.getLsbD_zero]
  grind

/-- Decoding a built word is the opcode row of its parts. -/
theorem decodeOperation_commandWord (op : BitVec 4) (n : NodeIdx) (f : Frame) :
    decodeOperation (commandWord op n f) =
      operationRow op n f (offField (commandWord op n f)) (valField (commandWord op n f)) := by
  simp only [decodeOperation, opField_commandWord, nodeField_commandWord, frameField_commandWord]

end Sys2Proof

namespace Sys2Proof.Machine

/-! ### Emitted words (R98 to R100) -/

/-- A register read's response word. -/
theorem responseWord_value (op : BitVec 4) (v : Word32) :
    responseWord op false (valuePayload v) = answerValue op v := by
  apply BitVec.eq_of_getLsbD_eq
  intro i hi
  have h := fun j => op.getLsbD_of_ge j
  simp only [responseWord, valuePayload, answerValue, BitVec.getLsbD_append, BitVec.getLsbD_setWidth,
    BitVec.getLsbD_or, BitVec.getLsbD_shiftLeft, BitVec.getLsbD_zero, BitVec.getLsbD_ofBool]
  grind

/-- A bare completion's response word: the opcode and nothing else. -/
theorem responseWord_bare (op : BitVec 4) : responseWord op false 0 = op.setWidth 128 := by
  have h := responseWord_value op 0
  simpa [answerValue, valuePayload] using h

/-- The response word of a DEQUEUE that returns a frame. -/
theorem responseWord_frame (f : Frame) : responseWord opDequeue true f = answerFrame f := by
  apply BitVec.eq_of_getLsbD_eq
  intro i hi
  have hw : ∀ j, (0x15#128).getLsbD j = (decide (j = 0) || decide (j = 2) || decide (j = 4)) := by
    intro j
    by_cases hj : j < 128
    · revert j; decide
    · rw [BitVec.getLsbD_of_ge _ _ (by omega)]; simp; omega
  have ho : ∀ j, opDequeue.getLsbD j = (decide (j = 0) || decide (j = 2)) := by
    intro j
    by_cases hj : j < 4
    · revert j; decide
    · rw [BitVec.getLsbD_of_ge _ _ (by omega)]; simp; omega
  simp only [responseWord, answerFrame, BitVec.getLsbD_append, BitVec.getLsbD_setWidth, BitVec.getLsbD_or,
    BitVec.getLsbD_shiftLeft, BitVec.getLsbD_zero, BitVec.getLsbD_ofBool, hw, ho]
  grind

/-- A diagnostic event's word. -/
theorem diagnosticWord_eq (c : DiagCode) (info : Word32) :
    diagnosticWord c info = eventWord (diagCode c) info := by
  apply BitVec.eq_of_getLsbD_eq
  intro i hi
  have h := fun j => (diagCode c).getLsbD_of_ge j
  simp only [diagnosticWord, eventWord, BitVec.getLsbD_append, BitVec.getLsbD_setWidth, BitVec.getLsbD_or,
    BitVec.getLsbD_shiftLeft]
  grind

/-- A notification's word. -/
theorem notificationWord_eq (n : NodeIdx) (f : Frame) : notificationWord n f = ntfWordOf n f := by
  apply BitVec.eq_of_getLsbD_eq
  intro i hi
  have h := fun j => n.getLsbD_of_ge j
  simp only [notificationWord, ntfWordOf, BitVec.getLsbD_append, BitVec.getLsbD_setWidth, BitVec.getLsbD_or,
    BitVec.getLsbD_shiftLeft]
  grind

/-- STAT by the values of its two flags (R172). -/
theorem Serial.stat_eq (r : Serial) :
    r.stat = ((if r.tdre then 0x00800000#32 else 0#32) ||| (if r.rdrf then 0x00200000#32 else 0#32)) := by
  unfold Serial.stat
  cases r.tdre <;> cases r.rdrf <;> decide

end Sys2Proof.Machine
end

