-- ==== Sys2Proof/Laws/Exec.lean ====
section
/-! SUPPORT. What one step can do, said once: the operations' answers in a ready state, and the inversion of `exec` and
of `step`. -/

namespace Sys2Proof.Machine

/-! ### Operations written out -/

theorem State.respond_eq_answered (s : State) (op : BitVec 4) (hit : Bool) (f : Frame) :
    s.respond s.active op hit f = s.answered (responseWord op hit f) := rfl

theorem State.complete_eq_answered (s : State) (op : BitVec 4) :
    s.complete s.active op = s.answered (op.setWidth 128) := by rw [← responseWord_bare]; rfl

theorem State.respondValue_eq_answered (s : State) (op : BitVec 4) (v : Word32) :
    s.respondValue s.active op v = s.answered (answerValue op v) := by rw [← responseWord_value]; rfl

theorem State.diag_eq_reported (s : State) (c : DiagCode) (info : Word32) :
    s.diag s.active c info = s.reported (diagCode c) info := by rw [State.reported, ← diagnosticWord_eq]; rfl

@[simp] theorem State.reported_active (s : State) (c : BitVec 4) (info : Word32) :
    (s.reported c info).active = s.active := rfl

/-- A node operand that names a node. -/
theorem badNode_of_lt {c : Config} {n : NodeIdx} (h : n.toNat < c.nNodes) : badNode c n = false := by
  simp [badNode, h]

/-- A node operand that names none. -/
theorem badNode_of_le {c : Config} {n : NodeIdx} (h : c.nNodes ≤ n.toNat) : badNode c n = true := by
  simp [badNode, h]

/-- The EXEC step of a ready port has its effect. -/
theorem State.execStep_ready {s : State} (h : s.Ready) (g : State → State) : s.execStep g = .next (g s) := by
  simp [State.execStep, h]

/-- The EXEC step of a ready port whose node operand names a node has its effect. -/
theorem State.execNodeStep_ready {s : State} {n : NodeIdx} (h : s.Ready) (hn : n.toNat < s.cfg.nNodes)
    (op : BitVec 4) (g : State → State) : s.execNodeStep op n g = .next (g s) := by
  simp [State.execNodeStep, State.execStep_ready h, badNode_of_lt hn]

/-- The EXEC step of a ready port whose node operand names none reports it. -/
theorem State.execNodeStep_bad {s : State} {n : NodeIdx} (h : s.Ready) (hn : s.cfg.nNodes ≤ n.toNat)
    (op : BitVec 4) (g : State → State) : s.execNodeStep op n g = .next (s.rejectNode op n) := by
  simp [State.execNodeStep, State.execStep_ready h, badNode_of_le hn]

/-! ### Sub-decode -/

/-- An operation row of format R means what the sub-decode row of its offset means (R97). -/
theorem exec_subDecode (i : Instr) (s : State) : exec i.subDecode s = exec i s := by
  cases i <;> try rfl
  case bcrd n off =>
    simp only [Instr.subDecode, bcrdRow, exec, execBcrd]
    rcases bcRegAt off with _ | ⟨_ | _ | _ | _⟩ <;> rfl
  case bcwr n off v =>
    simp only [Instr.subDecode, bcwrRow, exec, execBcwr]
    rcases bcRegAt off with _ | ⟨_ | _ | _ | _⟩ <;> rfl
  case serrd off =>
    simp only [Instr.subDecode, serrdRow, exec, execSerrd]
    rcases serRegAt off with _ | ⟨_ | _ | _ | _⟩ <;> rfl
  case serwr off v =>
    simp only [Instr.subDecode, serwrRow, exec, execSerwr]
    rcases serRegAt off with _ | ⟨_ | _ | _ | _⟩ <;> rfl

/-- No instruction's sub-decode row is an operation row of format R. -/
theorem isOperationRow_subDecode (i : Instr) : i.subDecode.isOperationRow = false := by
  cases i <;> try rfl
  case bcrd n off =>
    simp only [Instr.subDecode, bcrdRow]; rcases bcRegAt off with _ | ⟨_ | _ | _ | _⟩ <;> rfl
  case bcwr n off v =>
    simp only [Instr.subDecode, bcwrRow]; rcases bcRegAt off with _ | ⟨_ | _ | _ | _⟩ <;> rfl
  case serrd off =>
    simp only [Instr.subDecode, serrdRow]; rcases serRegAt off with _ | ⟨_ | _ | _ | _⟩ <;> rfl
  case serwr off v =>
    simp only [Instr.subDecode, serwrRow]; rcases serRegAt off with _ | ⟨_ | _ | _ | _⟩ <;> rfl

/-! ### The inversion of `exec` -/

/-- What a single-step operation does before it answers (R121). -/
inductive Effect (s : State) : Instr → State → Prop where
  /-- Nothing: a register read, a write to STAT, a REALIZE of a realized node. -/
  | none (i : Instr) : Effect s i s
  /-- A condition is reported. -/
  | report (i : Instr) (c : DiagCode) (info : Word32) : Effect s i (s.diag s.active c info)
  | init : Effect s .init { s with registry := [] }
  | attach (n : NodeIdx) (hn : n.toNat < s.cfg.nNodes) (new : n ∉ s.registry)
      (room : s.registry.length < s.cfg.busCap) : Effect s (.attach n) { s with registry := s.registry ++ [n] }
  | link (n : NodeIdx) : Effect s (.link n) (s.updNode n fun m => { m with busRef := true })
  | setnotify (n : NodeIdx) : Effect s (.setnotify n) (s.updNode n fun m => { m with notifyEn := true })
  | realize (n : NodeIdx) : Effect s (.realize n) (s.updNode n fun m => { m with realized := true })
  | realizeReport (n : NodeIdx) (c : DiagCode) (info : Word32) :
      Effect s (.realize n) ((s.updNode n fun m => { m with realized := true }).diag s.active c info)
  | realizeRegister (n : NodeIdx) (hn : n.toNat < s.cfg.nNodes) (new : n ∉ s.registry)
      (room : s.registry.length < s.cfg.busCap) :
      Effect s (.realize n)
        { (s.updNode n fun m => { m with realized := true }) with registry := s.registry ++ [n] }
  | bcwrMcr (n : NodeIdx) (v : Word32) : Effect s (.bcwrMcr n v) (s.updNode n fun m => { m with mcr := v })
  | bcwrCtrl (n : NodeIdx) (v : Word32) : Effect s (.bcwrCtrl n v) (s.updNode n fun m => { m with ctrlBc := v })
  | bcwrTfr (n : NodeIdx) (v : Word32) : Effect s (.bcwrTfr n v) (s.updNode n fun m => { m with tfr := v })
  | bcwrRfr (n : NodeIdx) (v : Word32) : Effect s (.bcwrRfr n v) (s.updNode n fun m => { m with rfr := v })
  | readData : Effect s .serrdData { s with serial := s.serial.readData s.cfg.serIrqClearOnRead }
  | writeBaud (v : Word32) : Effect s (.serwrBaud v) { s with serial := { s.serial with baud := v } }
  | writeCtrl (v : Word32) : Effect s (.serwrCtrl v) { s with serial := s.serial.writeCtrl v }
  | writeData (v : Word32) (te : teBit s.serial.ctrl = true) :
      Effect s (.serwrData v) ({ s with serial := { s.serial with tdre := true } }.emit (.tx (v.setWidth 8)))

/-- The instructions that access a queue. -/
def accessesQueue : Instr → Bool
  | .transmit _ _ | .enqueue _ _ | .dequeue _ => true
  | _ => false

/-- Every next state of one step of an instruction on the active port. -/
inductive Taken (s : State) : Instr → State → Prop where
  /-- No step of this instruction is enabled: it waits. A queue operation in Q_BODY or Q_REL never does (R78). -/
  | wait (i : Instr) (notLocked : accessesQueue i = true → (s.port s.active).phase.locked = false) : Taken s i s
  /-- A single-step operation takes effect and answers (R121). -/
  | answer (i : Instr) (s₁ : State) (op : BitVec 4) (f : Frame) (ready : s.Ready) (eff : Effect s i s₁) :
      Taken s i (s₁.respond s.active op false f)
  /-- QAcq takes a free lock (R150). -/
  | acquire (i : Instr) (hp : (s.port s.active).phase = .qAcq)
      (free : (s.node (s.port s.active).tgt).lock = .free)
      (hi : (∃ n f, i = .transmit n f) ∨ (∃ n f, i = .enqueue n f) ∨ ∃ n, i = .dequeue n) :
      Taken s i
        ((s.updNode (s.port s.active).tgt fun m => { m with lock := .held s.active }).setPhase s.active .qBody)
  /-- The store body (R151). -/
  | store (i : Instr) (f : Frame) (hp : (s.port s.active).phase = .qBody)
      (hi : (∃ n, i = .transmit n f) ∨ ∃ n, i = .enqueue n f) :
      Taken s i
        ((s.updNode (s.port s.active).tgt fun m => m.store s.cfg.queueCap f).setPhase s.active .qRel)
  /-- The load body on an empty queue (R152). -/
  | loadEmpty (n : NodeIdx) (hp : (s.port s.active).phase = .qBody)
      (empty : (s.node (s.port s.active).tgt).isEmpty = true) :
      Taken s (.dequeue n) ((s.updPort s.active fun q => { q with rHit := false }).setPhase s.active .qRel)
  /-- The load body on a queue that is not empty (R152). -/
  | loadHit (n : NodeIdx) (hp : (s.port s.active).phase = .qBody)
      (full : (s.node (s.port s.active).tgt).isEmpty = false) :
      Taken s (.dequeue n)
        (((s.updNode (s.port s.active).tgt fun m => m.load s.cfg.queueCap).updPort s.active fun q =>
          { q with
            rHit := true
            rFrame := s.slot (s.port s.active).tgt (s.node (s.port s.active).tgt).tail }).setPhase s.active .qRel)
  /-- QRel of an ENQUEUE (R153). -/
  | relEnqueue (n : NodeIdx) (f : Frame) (hp : (s.port s.active).phase = .qRel) :
      Taken s (.enqueue n f) ((s.unlock s.active).respond s.active opEnqueue false 0)
  /-- QRel of a DEQUEUE that took a frame (R153). -/
  | relHit (n : NodeIdx) (hp : (s.port s.active).phase = .qRel) (hit : (s.port s.active).rHit = true) :
      Taken s (.dequeue n) ((s.unlock s.active).respond s.active opDequeue true (s.port s.active).rFrame)
  /-- QRel of a DEQUEUE that found the queue empty (R153). -/
  | relEmpty (n : NodeIdx) (hp : (s.port s.active).phase = .qRel) (miss : (s.port s.active).rHit = false) :
      Taken s (.dequeue n) ((s.unlock s.active).respond s.active opDequeue false 0)
  /-- QRel of a TRANSMIT to a node with a notify capability (R153, R127). -/
  | relNotify (n : NodeIdx) (f : Frame) (hp : (s.port s.active).phase = .qRel)
      (en : (s.node (s.port s.active).tgt).notifyEn = true) :
      Taken s (.transmit n f) ((s.unlock s.active).notify s.active f)
  /-- QRel of a TRANSMIT to a node without one (R153). -/
  | relAdvance (n : NodeIdx) (f : Frame) (hp : (s.port s.active).phase = .qRel)
      (off : (s.node (s.port s.active).tgt).notifyEn = false) :
      Taken s (.transmit n f) ((s.unlock s.active).advance s.active)
  /-- TScan past the last entry (R125). -/
  | scanEnd (n : NodeIdx) (f : Frame) (hp : (s.port s.active).phase = .tScan)
      (past : s.registry[(s.port s.active).cur]? = none) :
      Taken s (.transmit n f) (s.respond s.active opTransmit false 0)
  /-- TScan at the sender's own entry (R125). -/
  | scanSkip (n : NodeIdx) (f : Frame) (hp : (s.port s.active).phase = .tScan)
      (own : s.registry[(s.port s.active).cur]? = some n) : Taken s (.transmit n f) (s.advance s.active)
  /-- TScan at another node's entry (R125). -/
  | scanTarget (n : NodeIdx) (f : Frame) (e : NodeIdx) (hp : (s.port s.active).phase = .tScan)
      (entry : s.registry[(s.port s.active).cur]? = some e) (other : e ≠ n) :
      Taken s (.transmit n f) (s.updPort s.active fun q => { q with tgt := e, phase := .qAcq })

/-! What every effect and every step of an instruction leaves alone. -/

theorem Effect.cfg {s t : State} {i : Instr} (h : Effect s i t) : t.cfg = s.cfg := by cases h <;> rfl

theorem Effect.ports {s t : State} {i : Instr} (h : Effect s i t) : t.ports = s.ports := by cases h <;> rfl

theorem Effect.active {s t : State} {i : Instr} (h : Effect s i t) : t.active = s.active := by cases h <;> rfl

theorem Effect.schedule {s t : State} {i : Instr} (h : Effect s i t) : t.schedule = s.schedule := by cases h <;> rfl

theorem Taken.cfg {s t : State} {i : Instr} (h : Taken s i t) : t.cfg = s.cfg := by
  cases h <;> try rfl
  case answer h => exact (Effect.cfg h :)

theorem Taken.schedule {s t : State} {i : Instr} (h : Taken s i t) : t.schedule = s.schedule := by
  cases h <;> try rfl
  case answer h => exact (Effect.schedule h :)

/-- Only the active port's sequencer moves. -/
theorem Taken.port_ne {s t : State} {i : Instr} {q : Nat} (h : Taken s i t) (hq : q ≠ s.active) :
    t.port q = s.port q := by
  have key : ∀ (u : State) (g : Port → Port), (u.updPort s.active g).port q = u.port q := fun u g =>
    u.port_updPort_ne g hq
  cases h
  case answer s₁ _ _ _ h => rw [← State.port_congr h.ports]; exact key _ _
  case wait => rfl
  case loadEmpty => exact (key _ _).trans (key _ _)
  case loadHit => exact (key _ _).trans (key _ _)
  all_goals exact key _ _

theorem taken_execStep {s t : State} {i : Instr} {op : BitVec 4} {f : State → Frame} {g : State → State}
    (hg : Effect s i (g s)) (h : (s.execStep fun s => (g s).respond s.active op false (f s)) = .next t)
    (hi : accessesQueue i = false := by rfl) : Taken s i t := by
  unfold State.execStep at h
  split at h
  · next hr => cases h; exact .answer i _ op _ hr hg
  · cases h; exact .wait i fun hq => by rw [hi] at hq; cases hq

theorem taken_rejectNode {s t : State} {i : Instr} {op : BitVec 4} {n : NodeIdx} (hr : s.Ready)
    (h : s.rejectNode op n = t) : Taken s i t := by
  subst h
  exact .answer i _ op 0 hr (.report i .badNode (n.setWidth 32))

theorem taken_execNodeStep {s t : State} {i : Instr} {n : NodeIdx} {op : BitVec 4} {f : State → Frame}
    {g : State → State} (hg : n.toNat < s.cfg.nNodes → Effect s i (g s))
    (h : (s.execNodeStep op n fun s => (g s).respond s.active op false (f s)) = .next t)
    (hi : accessesQueue i = false := by rfl) : Taken s i t := by
  unfold State.execNodeStep State.execStep at h
  split at h
  · next hr =>
    cases h
    by_cases hn : n.toNat < s.cfg.nNodes
    · simp only [badNode_of_lt hn]; exact .answer i _ op _ hr (hg hn)
    · simp only [badNode_of_le (Nat.le_of_not_lt hn)]; exact taken_rejectNode hr rfl
  · cases h; exact .wait i fun hq => by rw [hi] at hq; cases hq

theorem taken_queueExec {s t : State} {i : Instr} {n : NodeIdx} {op : BitVec 4} (hr : s.Ready)
    (h : s.queueExec op n = .next t) : Taken s i t := by
  unfold State.queueExec at h
  split at h
  · cases h; exact taken_rejectNode hr rfl
  · cases h; exact .wait i fun _ => by rw [hr]; rfl

theorem taken_qAcq {s : State} {i : Instr} (hp : (s.port s.active).phase = .qAcq)
    (hi : (∃ n f, i = .transmit n f) ∨ (∃ n f, i = .enqueue n f) ∨ ∃ n, i = .dequeue n) :
    Taken s i (s.qAcq s.active) := by
  unfold State.qAcq
  dsimp only
  split
  · next hl => exact .acquire i hp hl hi
  · exact .wait i fun _ => by rw [hp]; rfl

/-- Every next state `exec` answers for a resolved instruction is one of the cases of `Taken`. -/
theorem exec_taken {i : Instr} {s t : State} (hi : i.isOperationRow = false) (h : exec i s = .next t) :
    Taken s i t := by
  cases i <;> simp only [Instr.isOperationRow, reduceCtorEq] at hi <;> simp only [exec] at h
  case init => exact taken_execStep (f := fun _ => 0) (g := fun s => { s with registry := [] }) .init h
  case attach n =>
    refine taken_execNodeStep (f := fun _ => 0) (g := fun s => s.register s.active n) (fun hn => ?_) h
    unfold State.register
    split
    · exact .report _ _ _
    · split
      · next h1 h2 => exact .attach n hn h1 h2
      · exact .report _ _ _
  case realize n =>
    refine taken_execNodeStep (f := fun _ => 0) (g := fun s => s.realizeNode s.active n) (fun hn => ?_) h
    unfold State.realizeNode
    split
    · exact .none _
    · dsimp only
      split
      · unfold State.register
        split
        · exact .realizeReport n _ _
        · split
          · next h1 h2 => exact .realizeRegister n hn h1 h2
          · exact .realizeReport n _ _
      · exact .realize n
  case link n => exact taken_execNodeStep (f := fun _ => 0) (fun _ => .link n) h
  case setnotify n => exact taken_execNodeStep (f := fun _ => 0) (fun _ => .setnotify n) h
  case reserved0 => exact taken_execStep (f := fun _ => 0) (.report _ _ _) h
  case reservedD => exact taken_execStep (f := fun _ => 0) (.report _ _ _) h
  case reservedE => exact taken_execStep (f := fun _ => 0) (.report _ _ _) h
  case reservedF => exact taken_execStep (f := fun _ => 0) (.report _ _ _) h
  case transmit n f =>
    unfold execTransmit at h
    split at h
    · next hp => exact taken_queueExec hp h
    · next hp =>
      cases h
      unfold State.tScan
      split
      · next hr => exact .scanEnd n f hp hr
      · next e hr =>
        split
        · next he => subst he; exact .scanSkip _ f hp hr
        · next he => exact .scanTarget n f e hp hr he
    · next hp => cases h; exact taken_qAcq hp (.inl ⟨n, f, rfl⟩)
    · next hp => cases h; exact .store _ f hp (.inl ⟨n, rfl⟩)
    · next hp =>
      cases h
      unfold State.qRelTransmit
      split
      · next he => exact .relNotify n f hp he
      · next he => exact .relAdvance n f hp (by simpa using he)
    · next hp => cases h; exact .wait _ fun _ => by rw [hp]; rfl
    · next hp => cases h; exact .wait _ fun _ => by rw [hp]; rfl
  case enqueue n f =>
    unfold execEnqueue at h
    split at h
    · next hp => exact taken_queueExec hp h
    · next hp => cases h; exact taken_qAcq hp (.inr (.inl ⟨n, f, rfl⟩))
    · next hp => cases h; exact .store _ f hp (.inr ⟨n, rfl⟩)
    · next hp => cases h; exact .relEnqueue n f hp
    all_goals (next hp => cases h; exact .wait _ fun _ => by rw [hp]; rfl)
  case dequeue n =>
    unfold execDequeue at h
    split at h
    · next hp => exact taken_queueExec hp h
    · next hp => cases h; exact taken_qAcq hp (.inr (.inr ⟨n, rfl⟩))
    · next hp =>
      cases h
      unfold State.qBodyLoad
      dsimp only
      split
      · next he => exact .loadEmpty n hp he
      · next he => exact .loadHit n hp (by simpa using he)
    · next hp =>
      cases h
      unfold State.qRelDequeue
      split
      · next he => exact .relHit n hp he
      · next he => exact .relEmpty n hp (by simpa using he)
    all_goals (next hp => cases h; exact .wait _ fun _ => by rw [hp]; rfl)
  case serrdBaud => exact taken_execStep (f := fun s => valuePayload s.serial.baud) (g := id) (.none _) h
  case serrdStat => exact taken_execStep (f := fun s => valuePayload s.serial.stat) (g := id) (.none _) h
  case serrdCtrl => exact taken_execStep (f := fun s => valuePayload s.serial.ctrl) (g := id) (.none _) h
  case serrdData =>
    exact taken_execStep (f := fun s => valuePayload (s.serial.data.setWidth 32))
      (g := fun s => { s with serial := s.serial.readData s.cfg.serIrqClearOnRead }) .readData h
  case serrdUnknown off => exact taken_execStep (f := fun _ => valuePayload 0) (.report _ _ _) h
  case serwrBaud v =>
    exact taken_execStep (f := fun _ => 0) (g := fun s => { s with serial := { s.serial with baud := v } })
      (.writeBaud v) h
  case serwrStat v => exact taken_execStep (f := fun _ => 0) (g := id) (.none _) h
  case serwrCtrl v =>
    exact taken_execStep (f := fun _ => 0) (g := fun s => { s with serial := s.serial.writeCtrl v }) (.writeCtrl v) h
  case serwrData v =>
    refine taken_execStep (op := 0xC) (f := fun _ => 0)
      (g := fun s : State => if teBit s.serial.ctrl then
        State.emit { s with serial := { s.serial with tdre := true } } (.tx (v.setWidth 8))
        else s.diag s.active .serTxDisabled v) ?_ h
    dsimp only
    split
    · next te => exact .writeData v te
    · exact .report _ _ _
  case serwrUnknown off v => exact taken_execStep (f := fun _ => 0) (.report _ _ _) h
  case bcrdMcr n => exact taken_execNodeStep (f := fun s => valuePayload (s.node n).mcr) (g := id) (fun _ => .none _) h
  case bcrdCtrl n =>
    exact taken_execNodeStep (f := fun s => valuePayload (s.node n).ctrlBc) (g := id) (fun _ => .none _) h
  case bcrdTfr n => exact taken_execNodeStep (f := fun s => valuePayload (s.node n).tfr) (g := id) (fun _ => .none _) h
  case bcrdRfr n => exact taken_execNodeStep (f := fun s => valuePayload (s.node n).rfr) (g := id) (fun _ => .none _) h
  case bcrdUnknown n off => exact taken_execNodeStep (f := fun _ => valuePayload 0) (fun _ => .report _ _ _) h
  case bcwrMcr n v => exact taken_execNodeStep (f := fun _ => 0) (fun _ => .bcwrMcr n v) h
  case bcwrCtrl n v => exact taken_execNodeStep (f := fun _ => 0) (fun _ => .bcwrCtrl n v) h
  case bcwrTfr n v => exact taken_execNodeStep (f := fun _ => 0) (fun _ => .bcwrTfr n v) h
  case bcwrRfr n v => exact taken_execNodeStep (f := fun _ => 0) (fun _ => .bcwrRfr n v) h
  case bcwrUnknown n off v => exact taken_execNodeStep (f := fun _ => 0) (fun _ => .report _ _ _) h

/-! ### No instruction stops (R220) -/

theorem State.execStep_next (s : State) (g : State → State) : ∃ t, s.execStep g = .next t := by
  unfold State.execStep; split <;> exact ⟨_, rfl⟩

theorem State.execNodeStep_next (s : State) (op : BitVec 4) (n : NodeIdx) (g : State → State) :
    ∃ t, s.execNodeStep op n g = .next t := s.execStep_next _

theorem State.queueExec_next (s : State) (op : BitVec 4) (n : NodeIdx) : ∃ t, s.queueExec op n = .next t := by
  unfold State.queueExec; split <;> exact ⟨_, rfl⟩

/-- Every instruction answers a next state in every state. -/
theorem exec_next (i : Instr) (s : State) : ∃ t, exec i s = .next t := by
  rw [← exec_subDecode]
  have hi := isOperationRow_subDecode i
  generalize i.subDecode = j at hi
  cases j <;> simp only [Instr.isOperationRow, reduceCtorEq] at hi <;> simp only [exec] <;>
    first
      | exact s.execStep_next _
      | exact s.execNodeStep_next _ _ _
      | (unfold execTransmit; split <;> first | exact s.queueExec_next _ _ | exact ⟨_, rfl⟩)
      | (unfold execEnqueue; split <;> first | exact s.queueExec_next _ _ | exact ⟨_, rfl⟩)
      | (unfold execDequeue; split <;> first | exact s.queueExec_next _ _ | exact ⟨_, rfl⟩)

/-! ### The inversion of `step` -/

/-- Every next state of one step of the event `e` in `s`. -/
inductive Stepped (s : State) : Event → State → Prop where
  | accept (p : Nat) (w : CmdWord) (hp : p < s.cfg.nPorts) (idle : (s.port p).phase = .idle) :
      Stepped s (.accept p w) (s.latch p w)
  | acceptBusy (p : Nat) (w : CmdWord) (hp : p < s.cfg.nPorts) (busy : (s.port p).phase ≠ .idle) :
      Stepped s (.accept p w) s
  | runIdle (p : Nat) (hp : p < s.cfg.nPorts) (idle : (s.port p).phase = .idle) : Stepped s (.run p) s
  | run (p : Nat) (i : Instr) (t : State) (hp : p < s.cfg.nPorts) (busy : (s.port p).phase ≠ .idle)
      (hi : (s.port p).instr = i) (taken : Taken { s with active := p } i t) : Stepped s (.run p) t
  | ack (p : Nat) (hp : p < s.cfg.nPorts) (pending : (s.port p).phase = .tNtf) : Stepped s (.ack p) (s.advance p)
  | ackNone (p : Nat) (hp : p < s.cfg.nPorts) (none : (s.port p).phase ≠ .tNtf) : Stepped s (.ack p) s
  | rxLatched (b : Byte) (re : reBit s.serial.ctrl = true) :
      Stepped s (.rx b) { s with serial := s.serial.receive b }
  | rxDropped (b : Byte) (re : reBit s.serial.ctrl = false) :
      Stepped s (.rx b) (s.emit (.diagnostic .rx (diagnosticWord .serRxDisabled (b.setWidth 32))))
  | rst : Stepped s .rst s.hardReset

/-- Every next state of an event is one of the cases of `Stepped`. -/
theorem runEvent_stepped {e : Event} {s t : State} (h : runEvent e s = .next t) : Stepped s e t := by
  cases e <;> simp only [runEvent, State.onPort] at h
  case accept p w =>
    split at h
    · next hp =>
      cases h
      unfold State.accept
      split
      · next hi => exact .accept p w hp hi
      · next hi => exact .acceptBusy p w hp hi
    · cases h
  case run p =>
    split at h
    · next hp =>
      unfold State.runPort at h
      split at h
      · next hi => cases h; exact .runIdle p hp hi
      · next hi => exact .run p _ t hp hi rfl (exec_taken (isOperationRow_subDecode _) h)
    · cases h
  case ack p =>
    split at h
    · next hp =>
      cases h
      unfold State.ntfAck
      split
      · next hi => exact .ack p hp hi
      · next hi => exact .ackNone p hp hi
    · cases h
  case rx b =>
    cases h
    unfold State.rx
    split
    · next hr => exact .rxLatched b hr
    · next hr => exact .rxDropped b (by simpa using hr)
  case rst => cases h; exact .rst

/-- A step with nothing scheduled leaves the state; a step with an event scheduled is one of the cases of `Stepped`. -/
theorem step_stepped {s t : State} (h : step s = .next t) :
    (s.schedule = [] ∧ t = s) ∨ ∃ e rest, s.schedule = e :: rest ∧ Stepped { s with schedule := rest } e t := by
  unfold step at h
  split at h
  · next hs => cases h; exact .inl ⟨hs, rfl⟩
  · next e rest hs => exact .inr ⟨e, rest, hs, runEvent_stepped h⟩

end Sys2Proof.Machine
end

