-- ==== Sys2Proof/Laws/Memory.lean ====
section
/-! SUPPORT. Queue storage keeps its canonical form, and index arithmetic modulo `C` (R24, R156). -/

namespace Sys2Proof.Machine

/-! ### The canonical form -/

/-- Empty storage is canonical. -/
theorem Memory.wf_nil : Memory.wf [] := List.Pairwise.nil

/-- A store lists the slot stored to and otherwise only slots already listed. -/
theorem Memory.mem_write {m : Memory} {i k : Nat} {f : Frame} (h : k ∈ (Memory.write m i f).map Prod.fst) :
    k = i ∨ k ∈ m.map Prod.fst := by
  induction m with
  | nil => simpa [Memory.write] using h
  | cons a m ih =>
    simp only [Memory.write] at h
    split at h
    · simpa using h
    · split at h <;> simp only [List.map_cons, List.mem_cons] at h ⊢ <;> tauto

/-- A store keeps the canonical form. -/
theorem Memory.wf_write {m : Memory} (h : Memory.wf m) (i : Nat) (f : Frame) : Memory.wf (Memory.write m i f) := by
  induction m with
  | nil => simp [Memory.write, Memory.wf]
  | cons a m ih =>
    simp only [Memory.wf, List.map_cons, List.pairwise_cons] at h
    simp only [Memory.write]
    split
    · next hi =>
      simp only [Memory.wf, List.map_cons, List.pairwise_cons, List.mem_cons]
      refine ⟨fun k hk => ?_, h⟩
      rcases hk with rfl | hk
      · exact hi
      · exact hi.trans (h.1 k hk)
    · split
      · next hi => subst hi; simpa only [Memory.wf, List.map_cons, List.pairwise_cons] using h
      · next h1 h2 =>
        simp only [Memory.wf, List.map_cons, List.pairwise_cons]
        refine ⟨fun k hk => ?_, ih h.2⟩
        rcases Memory.mem_write hk with rfl | hk
        · omega
        · exact h.1 k hk

/-- Every node's storage is canonical right after reset. -/
theorem State.reset_wf (c : Config) : ∀ m ∈ (State.resetOf c).nodes, Memory.wf m.slots := by
  intro m hm
  rw [List.eq_of_mem_replicate hm]
  exact Memory.wf_nil

/-! ### Indices modulo `C` -/

/-- The index `j` places after `x`, both below `C`. -/
theorem add_mod_cap {c x j : Nat} (hx : x < c) (hj : j < c) :
    (x + j) % c = if x + j < c then x + j else x + j - c := by
  split
  · rw [Nat.mod_eq_of_lt ‹_›]
  · rw [show x + j = (x + j - c) + c by omega, Nat.add_mod_right, Nat.mod_eq_of_lt (by omega)]; omega

/-- The next index of an index below `C` (R156). -/
theorem nextIndex_eq {c x : Nat} (hc : 2 ≤ c) (hx : x < c) :
    nextIndex c x = if x + 1 < c then x + 1 else 0 := by
  unfold nextIndex
  rw [add_mod_cap hx (by omega)]
  split <;> omega

/-- The apparent occupancy of a queue with indices below `C` (R26). -/
theorem Node.occ_eq {c : Nat} {m : Node} (hh : m.head < c) (ht : m.tail < c) :
    m.occ c = if m.tail ≤ m.head then m.head - m.tail else m.head + c - m.tail := by
  unfold Node.occ
  split
  · rw [show m.head + c - m.tail = (m.head - m.tail) + c by omega, Nat.add_mod_right, Nat.mod_eq_of_lt (by omega)]
  · rw [Nat.mod_eq_of_lt (by omega)]

end Sys2Proof.Machine
end

