-- ==== Sys2Proof/Laws/Invariant.lean ====
section
/-! SUPPORT. What each shared operation does to the parts of the invariant: changes of a node, of a sequencer, taking and
freeing a lock, and the two queue bodies. -/

namespace Sys2Proof.Machine

/-! ### Members of a changed list -/

theorem mem_modify {α : Type} {l : List α} {i : Nat} {g : α → α} {x : α} (h : x ∈ l.modify i g) :
    x ∈ l ∨ ∃ y, l[i]? = some y ∧ x = g y := by
  obtain ⟨j, hj⟩ := List.mem_iff_getElem?.1 h
  rw [List.getElem?_modify] at hj
  by_cases hij : i = j
  · subst hij
    cases hy : l[i]? with
    | none => simp [hy] at hj
    | some y => exact .inr ⟨y, rfl, by simpa [hy] using hj.symm⟩
  · exact .inl (List.mem_iff_getElem?.2 ⟨j, by simpa [hij] using hj⟩)

theorem State.getElem?_ports {s : State} {p : Nat} (h : p < s.ports.length) : s.ports[p]? = some (s.port p) := by
  simp [State.port, List.getD_eq_getElem?_getD, h]

theorem State.getElem?_nodes {s : State} {n : NodeIdx} (h : n.toNat < s.nodes.length) :
    s.nodes[n.toNat]? = some (s.node n) := by
  simp [State.node, List.getD_eq_getElem?_getD, h]

/-- A property of every node holds after one was changed, if the changed one has it. -/
theorem State.forall_updNode {s : State} {P : Node → Prop} (h : ∀ m ∈ s.nodes, P m) (n : NodeIdx) (g : Node → Node)
    (hg : P (s.node n) → P (g (s.node n))) : ∀ m ∈ (s.updNode n g).nodes, P m := by
  intro m hm
  rcases mem_modify hm with hm | ⟨y, hy, rfl⟩
  · exact h m hm
  · have hl : n.toNat < s.nodes.length := (List.getElem?_eq_some_iff.1 hy).1
    obtain rfl : s.node n = y := by rw [State.getElem?_nodes hl] at hy; exact Option.some.inj hy
    exact hg (h _ (List.mem_of_getElem? hy))

/-- A property of every sequencer holds after one was changed, if the changed one has it. -/
theorem State.forall_updPort {s : State} {P : Port → Prop} (h : ∀ q ∈ s.ports, P q) (p : Nat) (g : Port → Port)
    (hg : P (s.port p) → P (g (s.port p))) : ∀ q ∈ (s.updPort p g).ports, P q := by
  intro q hq
  rcases mem_modify hq with hq | ⟨y, hy, rfl⟩
  · exact h q hq
  · have hl : p < s.ports.length := (List.getElem?_eq_some_iff.1 hy).1
    obtain rfl : s.port p = y := by rw [State.getElem?_ports hl] at hy; exact Option.some.inj hy
    exact hg (h _ (List.mem_of_getElem? hy))

/-! ### Locks -/

/-- Locks agree with the sequencers as long as the locks, which ports hold one, and their targets stay. -/
theorem State.LockInv.congr {s t : State} (hs : s.LockInv) (hc : t.cfg = s.cfg)
    (hn : ∀ n, (t.node n).lock = (s.node n).lock)
    (hp : ∀ p, (t.port p).phase.locked = (s.port p).phase.locked ∧
      ((s.port p).phase.locked = true → (t.port p).tgt = (s.port p).tgt)) : t.LockInv := by
  obtain ⟨h1, h2⟩ := hs
  refine ⟨fun n hl => ?_, fun p hl h => ?_⟩
  · rw [hc] at hl
    rw [hn]
    rcases h1 n hl with h | ⟨p, hp', e1, e2, e3⟩
    · exact .inl h
    · exact .inr ⟨p, by rwa [hc], e1, by rw [(hp p).1, e2], by rw [(hp p).2 e2, e3]⟩
  · rw [hc] at hl
    rw [(hp p).1] at h
    rw [(hp p).2 h, hn]
    exact h2 p hl h

/-- A change of a sequencer that neither takes nor frees a lock. -/
theorem State.LockInv.updPort {s : State} (hs : s.LockInv) (p : Nat) (g : Port → Port)
    (hg : (g (s.port p)).phase.locked = (s.port p).phase.locked ∧
      ((s.port p).phase.locked = true → (g (s.port p)).tgt = (s.port p).tgt)) : (s.updPort p g).LockInv := by
  refine hs.congr rfl (fun n => by simp) fun r => ?_
  by_cases h : r = p
  · subst h
    by_cases hl : r < s.ports.length
    · rwa [State.port_updPort_self _ _ _ hl]
    · have : (s.updPort r g).ports = s.ports := by
        rw [State.updPort_ports, List.modify_eq_self]; omega
      simp [State.port_congr this]
  · simp [State.port_updPort_ne _ _ h]

/-- A change of a node that leaves its lock. -/
theorem State.LockInv.updNode {s : State} (hs : s.LockInv) (n : NodeIdx) (g : Node → Node)
    (hg : ∀ m, (g m).lock = m.lock) : (s.updNode n g).LockInv :=
  hs.congr rfl (fun m => s.node_updNode_proj m n g Node.lock hg) fun _ => by simp

/-- Taking a FREE lock and entering Q_BODY (R150). -/
theorem State.LockInv.acquire {s : State} (hs : s.LockInv) (hsh : s.ShapeInv) {p : Nat} (hp : p < s.cfg.nPorts)
    (ht : (s.port p).tgt.toNat < s.cfg.nNodes) (hph : (s.port p).phase = .qAcq)
    (hf : (s.node (s.port p).tgt).lock = .free) :
    ((s.updNode (s.port p).tgt fun m => { m with lock := .held p }).setPhase p .qBody).LockInv := by
  obtain ⟨h1, h2⟩ := hs
  have hpl : p < s.ports.length := by rwa [hsh.2]
  have hnl : (s.port p).tgt.toNat < s.nodes.length := by rwa [hsh.1]
  generalize hT : (s.updNode (s.port p).tgt fun m => { m with lock := .held p }).setPhase p .qBody = t
  have hc : t.cfg = s.cfg := by rw [← hT]; rfl
  have hpp : t.port p = { s.port p with phase := .qBody } := by
    rw [← hT, State.setPhase, State.port_updPort_self _ _ _ (by simpa using hpl)]; simp
  have hpr : ∀ r, r ≠ p → t.port r = s.port r := fun r hr => by
    rw [← hT, State.setPhase, State.port_updPort_ne _ _ hr]; simp
  have hnn : (t.node (s.port p).tgt).lock = .held p := by
    rw [← hT, State.setPhase_node, State.node_updNode_self _ _ _ hnl]
  have hnr : ∀ m, m ≠ (s.port p).tgt → t.node m = s.node m := fun m hm => by
    rw [← hT, State.setPhase_node, State.node_updNode_ne _ _ hm]
  refine ⟨fun n hl => ?_, fun q hl h => ?_⟩
  · rw [hc] at hl
    by_cases hn : BitVec.ofNat 8 n = (s.port p).tgt
    · exact .inr ⟨p, by rwa [hc], by rw [hn]; exact hnn, by rw [hpp]; rfl, by rw [hpp]; exact hn.symm⟩
    · rw [hnr _ hn]
      rcases h1 n hl with h | ⟨q, hq, e1, e2, e3⟩
      · exact .inl h
      · have : q ≠ p := by rintro rfl; rw [hph] at e2; cases e2
        exact .inr ⟨q, by rwa [hc], e1, by rwa [hpr _ this], by rwa [hpr _ this]⟩
  · rw [hc] at hl
    by_cases hq : q = p
    · subst hq; rw [hpp]; exact hnn
    · rw [hpr _ hq] at h ⊢
      have hh := h2 q hl h
      rwa [hnr]
      intro e
      rw [e, hf] at hh
      cases hh

/-- Freeing the lock and leaving Q_REL (R153). -/
theorem State.LockInv.release {s : State} (hs : s.LockInv) (hsh : s.ShapeInv) {p : Nat} (hp : p < s.cfg.nPorts)
    (ht : (s.port p).tgt.toNat < s.cfg.nNodes) (hph : (s.port p).phase = .qRel) (g : Port → Port)
    (hg : (g (s.port p)).phase.locked = false) : ((s.unlock p).updPort p g).LockInv := by
  obtain ⟨h1, h2⟩ := hs
  have hpl : p < s.ports.length := by rwa [hsh.2]
  have hnl : (s.port p).tgt.toNat < s.nodes.length := by rwa [hsh.1]
  generalize hT : (s.unlock p).updPort p g = t
  have hc : t.cfg = s.cfg := by rw [← hT]; rfl
  have hpp : t.port p = g (s.port p) := by
    rw [← hT, State.port_updPort_self _ _ _ (by simpa using hpl)]; simp
  have hpr : ∀ r, r ≠ p → t.port r = s.port r := fun r hr => by
    rw [← hT, State.port_updPort_ne _ _ hr]; simp
  have hnn : (t.node (s.port p).tgt).lock = .free := by
    rw [← hT, State.updPort_node, State.unlock, State.node_updNode_self _ _ _ hnl]
  have hnr : ∀ m, m ≠ (s.port p).tgt → t.node m = s.node m := fun m hm => by
    rw [← hT, State.updPort_node, State.unlock, State.node_updNode_ne _ _ hm]
  have hh : (s.node (s.port p).tgt).lock = .held p := h2 p hp (by rw [hph]; rfl)
  refine ⟨fun n hl => ?_, fun q hl h => ?_⟩
  · rw [hc] at hl
    by_cases hn : BitVec.ofNat 8 n = (s.port p).tgt
    · left; rw [hn]; exact hnn
    · rw [hnr _ hn]
      rcases h1 n hl with h | ⟨q, hq, e1, e2, e3⟩
      · exact .inl h
      · have : q ≠ p := by rintro rfl; exact hn e3.symm
        exact .inr ⟨q, by rwa [hc], e1, by rwa [hpr _ this], by rwa [hpr _ this]⟩
  · rw [hc] at hl
    by_cases hq : q = p
    · subst hq; rw [hpp, hg] at h; cases h
    · rw [hpr _ hq] at h ⊢
      have hq' := h2 q hl h
      rwa [hnr]
      intro e
      rw [e, hh] at hq'
      exact hq (Lock.held.inj hq').symm

/-! ### The invariant after the shared changes -/

/-- The invariant speaks of neither `active`, `schedule` nor `history`. -/
theorem State.Inv.congr {s t : State} (h : s.Inv) (h1 : t.cfg = s.cfg) (h2 : t.registry = s.registry)
    (h3 : t.nodes = s.nodes) (h4 : t.serial = s.serial) (h5 : t.ports = s.ports) : t.Inv where
  cfg := h1 ▸ h.cfg
  shape := by unfold State.ShapeInv; rw [h1, h3, h5]; exact h.shape
  registry := by unfold State.RegistryInv; rw [h1, h2]; exact h.registry
  queues := by rw [h1, h3]; exact h.queues
  sequencers := by rw [h1, h5]; exact h.sequencers
  locks := h.locks.congr h1 (fun n => by rw [State.node_congr h3]) fun p => by rw [State.port_congr h5]; simp
  serial := by unfold State.SerialInv; rw [h1, h4]; exact h.serial

/-- A change of a node that leaves its lock and keeps its queue's invariant. -/
theorem State.Inv.updNode {s : State} (h : s.Inv) (n : NodeIdx) (g : Node → Node) (hg : ∀ m, (g m).lock = m.lock)
    (hq : (s.node n).QueueInv s.cfg.queueCap → (g (s.node n)).QueueInv s.cfg.queueCap) : (s.updNode n g).Inv where
  cfg := h.cfg
  shape := ⟨by simpa using h.shape.1, h.shape.2⟩
  registry := h.registry
  queues := State.forall_updNode h.queues n g hq
  sequencers := h.sequencers
  locks := h.locks.updNode n g hg
  serial := h.serial

/-- A change of a sequencer that neither takes nor frees a lock. -/
theorem State.Inv.updPort {s : State} (h : s.Inv) (p : Nat) (g : Port → Port)
    (hs : (s.port p).SeqInv s.cfg → (g (s.port p)).SeqInv s.cfg)
    (hl : (g (s.port p)).phase.locked = (s.port p).phase.locked ∧
      ((s.port p).phase.locked = true → (g (s.port p)).tgt = (s.port p).tgt)) : (s.updPort p g).Inv where
  cfg := h.cfg
  shape := ⟨h.shape.1, by simpa using h.shape.2⟩
  registry := h.registry
  queues := h.queues
  sequencers := State.forall_updPort h.sequencers p g hs
  locks := h.locks.updPort p g hl
  serial := h.serial

/-- An IDLE sequencer meets every sequencer invariant. -/
theorem Port.seqInv_idle (q : Port) (c : Config) : ({ q with phase := .idle } : Port).SeqInv c := by
  simp [Port.SeqInv, Phase.inQueue]

/-- Answering from a phase that holds no lock (R121, R125). -/
theorem State.Inv.respond {s : State} (h : s.Inv) (p : Nat) (op : BitVec 4) (hit : Bool) (f : Frame)
    (hp : (s.port p).phase.locked = false) : (s.respond p op hit f).Inv :=
  State.Inv.updPort (s := s.emit (.response p (responseWord op hit f))) (h.congr rfl rfl rfl rfl rfl) p
    (fun q => { q with phase := .idle }) (fun _ => Port.seqInv_idle _ _)
    ⟨by rw [State.emit_port, hp]; rfl, fun e => by rw [State.emit_port, hp] at e⟩

/-- Freeing the lock and leaving Q_REL (R153). -/
theorem State.Inv.release {s : State} (h : s.Inv) (p : Nat) (hp : p < s.cfg.nPorts) (hph : (s.port p).phase = .qRel)
    (g : Port → Port) (hg : (g (s.port p)).phase.locked = false)
    (hs : (s.port p).SeqInv s.cfg → (g (s.port p)).SeqInv s.cfg) : ((s.unlock p).updPort p g).Inv := by
  have hpl : p < s.ports.length := by rw [h.shape.2]; exact hp
  have hseq := h.sequencers _ (List.mem_of_getElem? (State.getElem?_ports hpl))
  have ht := (hseq.2.2.2 (.inl (by rw [hph]; rfl))).1
  exact
    { cfg := h.cfg
      shape := ⟨by simpa using h.shape.1, by simpa using h.shape.2⟩
      registry := h.registry
      queues := State.forall_updNode h.queues _ _ id
      sequencers := State.forall_updPort h.sequencers p g hs
      locks := h.locks.release h.shape hp ht hph g hg
      serial := h.serial }

/-! ### The queue bodies -/

/-- Which latches make a sequencer's instruction a queue operation, and with which operands (R38, R94). -/
theorem Port.instr_queue {q : Port} :
    (∀ n f, q.instr = .transmit n f ↔ q.op = opTransmit ∧ q.aNode = n ∧ q.aFrame = f) ∧
    (∀ n f, q.instr = .enqueue n f ↔ q.op = opEnqueue ∧ q.aNode = n ∧ q.aFrame = f) ∧
    (∀ n, q.instr = .dequeue n ↔ q.op = opDequeue ∧ q.aNode = n) := by
  have key : ∀ (k : Fin 16) (n : NodeIdx) (f : Frame) (off val : Word32) (m : NodeIdx) (g : Frame),
      ((operationRow (BitVec.ofNat 4 k) n f off val).subDecode = .transmit m g ↔
        BitVec.ofNat 4 k = opTransmit ∧ n = m ∧ f = g) ∧
      ((operationRow (BitVec.ofNat 4 k) n f off val).subDecode = .enqueue m g ↔
        BitVec.ofNat 4 k = opEnqueue ∧ n = m ∧ f = g) ∧
      ((operationRow (BitVec.ofNat 4 k) n f off val).subDecode = .dequeue m ↔
        BitVec.ofNat 4 k = opDequeue ∧ n = m) := by
    intro k n f off val m g
    fin_cases k <;>
      simp [operationRow, Instr.subDecode, opTransmit, opEnqueue, opDequeue, serrdRow, serwrRow, bcrdRow, bcwrRow]
    all_goals (refine ⟨?_, ?_, ?_⟩ <;> split <;> simp)
  have key' := key q.op.toFin q.aNode q.aFrame q.aOff q.aVal
  rw [show BitVec.ofNat 4 q.op.toFin = q.op by simp] at key'
  exact ⟨fun n f => (key' n f).1, fun n f => (key' n f).2.1, fun n => (key' n 0).2.2⟩

/-- The load body on a queue that is not empty (R152). -/
theorem Node.QueueInv.load {c : Nat} {m : Node} (hc : 2 ≤ c) (h : m.QueueInv c) (he : m.isEmpty = false) :
    (m.load c).QueueInv c := by
  obtain ⟨h1, h2, h3, h4, h5⟩ := h
  have hlt : (m.load c).tail < c := Nat.mod_lt _ (by omega)
  refine ⟨h1, h2, h3, hlt, fun j hj => ?_⟩
  have ht : (m.load c).tail = if m.tail + 1 < c then m.tail + 1 else 0 := nextIndex_eq hc h4
  rw [Node.occ_eq (m := m.load c) h3 hlt, ht, show (m.load c).head = m.head from rfl] at hj
  simp only [Node.isEmpty, beq_eq_false_iff_ne] at he
  have hr := h5 (j + 1) (by rw [Node.occ_eq h3 h4]; split_ifs at hj ⊢ <;> omega)
  have hi : ((m.load c).tail + j) % c = (m.tail + (j + 1)) % c := by
    rw [show (m.load c).tail = (m.tail + 1) % c from rfl, Nat.mod_add_mod]
    congr 1
    omega
  rw [hi]
  exact hr

end Sys2Proof.Machine
end

