-- ==== Sys2Proof/Laws/PerInstr.lean ====
section
/-! SUPPORT. Statements made of every instruction, one lemma per constructor. -/

namespace Sys2Proof

/-! ### The register an offset selects (R97) -/

theorem serRegAt_eq_some {off : Word32} {r : SerReg} (h : serRegAt off = some r) :
    (r = .baud ∧ off = 0x10#32) ∨ (r = .stat ∧ off = 0x14#32) ∨ (r = .ctrl ∧ off = 0x18#32) ∨
      (r = .data ∧ off = 0x1C#32) := by
  unfold serRegAt at h
  split_ifs at h <;> simp_all

theorem bcRegAt_eq_some {off : Word32} {r : BcReg} (h : bcRegAt off = some r) :
    (r = .mcr ∧ off = 0x00#32) ∨ (r = .ctrl ∧ off = 0x04#32) ∨ (r = .tfr ∧ off = 0x08#32) ∨
      (r = .rfr ∧ off = 0x0C#32) := by
  unfold bcRegAt at h
  split_ifs at h <;> simp_all

end Sys2Proof

namespace Sys2Proof.Laws.SubDecodeEncoding

/-- Register sub-decode (R97) changes the name of a command, not its word. -/
def Statement (i : Instr) : Prop := encode i.subDecode = encode i

theorem init : Statement .init := rfl

theorem attach (n : NodeIdx) : Statement (.attach n) := rfl

theorem transmit (n : NodeIdx) (f : Frame) : Statement (.transmit n f) := rfl

theorem enqueue (n : NodeIdx) (f : Frame) : Statement (.enqueue n f) := rfl

theorem dequeue (n : NodeIdx) : Statement (.dequeue n) := rfl

theorem link (n : NodeIdx) : Statement (.link n) := rfl

theorem setnotify (n : NodeIdx) : Statement (.setnotify n) := rfl

theorem realize (n : NodeIdx) : Statement (.realize n) := rfl

theorem bcrd (n : NodeIdx) (off : Word32) : Statement (.bcrd n off) := by
  simp only [Statement, Instr.subDecode, bcrdRow]
  rcases h : bcRegAt off with _ | r
  · rfl
  · rcases bcRegAt_eq_some h with ⟨rfl, rfl⟩ | ⟨rfl, rfl⟩ | ⟨rfl, rfl⟩ | ⟨rfl, rfl⟩ <;> rfl

theorem bcwr (n : NodeIdx) (off : Word32) (val : Word32) : Statement (.bcwr n off val) := by
  simp only [Statement, Instr.subDecode, bcwrRow]
  rcases h : bcRegAt off with _ | r
  · rfl
  · rcases bcRegAt_eq_some h with ⟨rfl, rfl⟩ | ⟨rfl, rfl⟩ | ⟨rfl, rfl⟩ | ⟨rfl, rfl⟩ <;> rfl

theorem serrd (off : Word32) : Statement (.serrd off) := by
  simp only [Statement, Instr.subDecode, serrdRow]
  rcases h : serRegAt off with _ | r
  · rfl
  · rcases serRegAt_eq_some h with ⟨rfl, rfl⟩ | ⟨rfl, rfl⟩ | ⟨rfl, rfl⟩ | ⟨rfl, rfl⟩ <;> rfl

theorem serwr (off : Word32) (val : Word32) : Statement (.serwr off val) := by
  simp only [Statement, Instr.subDecode, serwrRow]
  rcases h : serRegAt off with _ | r
  · rfl
  · rcases serRegAt_eq_some h with ⟨rfl, rfl⟩ | ⟨rfl, rfl⟩ | ⟨rfl, rfl⟩ | ⟨rfl, rfl⟩ <;> rfl

theorem reserved0 : Statement .reserved0 := rfl

theorem reservedD : Statement .reservedD := rfl

theorem reservedE : Statement .reservedE := rfl

theorem reservedF : Statement .reservedF := rfl

theorem serrdBaud : Statement .serrdBaud := rfl

theorem serwrBaud (val : Word32) : Statement (.serwrBaud val) := rfl

theorem serrdStat : Statement .serrdStat := rfl

theorem serwrStat (val : Word32) : Statement (.serwrStat val) := rfl

theorem serrdCtrl : Statement .serrdCtrl := rfl

theorem serwrCtrl (val : Word32) : Statement (.serwrCtrl val) := rfl

theorem serrdData : Statement .serrdData := rfl

theorem serwrData (val : Word32) : Statement (.serwrData val) := rfl

theorem serrdUnknown (off : Word32) : Statement (.serrdUnknown off) := rfl

theorem serwrUnknown (off : Word32) (val : Word32) : Statement (.serwrUnknown off val) := rfl

theorem bcrdMcr (n : NodeIdx) : Statement (.bcrdMcr n) := rfl

theorem bcwrMcr (n : NodeIdx) (val : Word32) : Statement (.bcwrMcr n val) := rfl

theorem bcrdCtrl (n : NodeIdx) : Statement (.bcrdCtrl n) := rfl

theorem bcwrCtrl (n : NodeIdx) (val : Word32) : Statement (.bcwrCtrl n val) := rfl

theorem bcrdTfr (n : NodeIdx) : Statement (.bcrdTfr n) := rfl

theorem bcwrTfr (n : NodeIdx) (val : Word32) : Statement (.bcwrTfr n val) := rfl

theorem bcrdRfr (n : NodeIdx) : Statement (.bcrdRfr n) := rfl

theorem bcwrRfr (n : NodeIdx) (val : Word32) : Statement (.bcwrRfr n val) := rfl

theorem bcrdUnknown (n : NodeIdx) (off : Word32) : Statement (.bcrdUnknown n off) := rfl

theorem bcwrUnknown (n : NodeIdx) (off : Word32) (val : Word32) : Statement (.bcwrUnknown n off val) := rfl

end Sys2Proof.Laws.SubDecodeEncoding
end

