-- ==== Sys2Proof/Tests/Slice0.lean ====
section
/-! SUPPORT. Tests. Words and results come from `spec/95_test_vectors.md` (S, E, B, Q, SR, BC, RS and P entries), from
R105 of `spec/30_encoding.md`, or from a word written out field by field as R91 and R97 place the fields. -/

namespace Sys2Proof.Tests

open Sys2Proof.Machine

/-! ### Well-formedness -/

/-- R97: an "unknown" row never names a register's offset. -/
theorem test_wf_refuses_known_serial_read : (Instr.serrdUnknown 0x10).wf = false := by decide

theorem test_wf_refuses_known_serial_write : (Instr.serwrUnknown 0x1C 5).wf = false := by decide

theorem test_wf_refuses_known_bc_read : (Instr.bcrdUnknown 1 0x00).wf = false := by decide

theorem test_wf_refuses_known_bc_write : (Instr.bcwrUnknown 1 0x0C 5).wf = false := by decide

/-- R97: a misaligned offset is an unknown offset. -/
theorem test_wf_accepts_misaligned_offsets :
    (Instr.serrdUnknown 0x15).wf = true ∧ (Instr.bcwrUnknown 0 0x02 1).wf = true := by decide

/-! ### Decoding -/

/-- E7 and P4: opcode 1 is INIT whatever the node field; the other words of formats Z and N. -/
theorem test_decode_bus_family :
    decode 0x0000_0000_0000_0000_0000_0000_0000_0091#128 = .init ∧
    decode 0x0000_abc0_0000_0000_0000_0000_0000_f012#128 = .attach 1 ∧
    decode 0x0000_0000_0000_0000_0000_0000_0000_0036#128 = .link 3 ∧
    decode 0x0000_0000_0000_0000_0000_0000_0000_0017#128 = .setnotify 1 := by decide

/-- E1 and E2: every defined bit 1, and the same with the reserved bits 1. -/
theorem test_decode_transmit_all_ones :
    decode 0x00ff_ffff_ffff_ffff_ffff_ffff_ffff_0ff3#128 =
      .transmit 255 (frameOf 0xffffffff 0xff 0xff 0xff 0xff 0xff 0xff 0xff 0xff 0xff) ∧
    decode 0xffff_ffff_ffff_ffff_ffff_ffff_ffff_fff3#128 =
      decode 0x00ff_ffff_ffff_ffff_ffff_ffff_ffff_0ff3#128 := by decide

/-- E13, E14 and R94: the four reserved opcodes. -/
theorem test_decode_reserved :
    decode 0x0000_0000_0000_0000_0000_0000_0000_0000#128 = .reserved0 ∧
    decode 0x0000_0000_0000_0000_0000_0000_0000_000d#128 = .reservedD ∧
    decode 0x0000_0000_0000_0000_0000_0000_0000_ff5e#128 = .reservedE ∧
    decode 0xffff_ffff_ffff_ffff_ffff_ffff_ffff_ffff#128 = .reservedF := by decide

/-- E3, E4 and B14. -/
theorem test_decode_node_queue_family :
    decode 0x0008_8877_6655_4433_2211_1fff_ffff_0034#128 =
      .enqueue 3 (frameOf 0x1fffffff 0x11 0x22 0x33 0x44 0x55 0x66 0x77 0x88 8) ∧
    decode 0x0003_0000_0000_0003_0201_0000_0456_1234#128 = .enqueue 35 (frameOf 0x456 1 2 3 0 0 0 0 0 3) ∧
    decode 0x0000_0000_0000_0000_0000_0000_0000_0c85#128 = .dequeue 200 := by decide

/-- R105, E6, P5 and R91: every serial register, read and written. -/
theorem test_decode_serial_family :
    decode 0x0000_0000_0000_0000_0000_0000_0010_000b#128 = .serrdBaud ∧
    decode 0x0000_0000_0000_0000_0000_0000_0014_000b#128 = .serrdStat ∧
    decode 0x0000_0000_0000_0000_0000_0000_0018_000b#128 = .serrdCtrl ∧
    decode 0x0000_0000_0000_dead_beef_0000_001c_005b#128 = .serrdData ∧
    decode 0x0000_0000_0000_0000_0000_0000_0020_000b#128 = .serrdUnknown 0x20 ∧
    decode 0x0000_0000_0000_0000_2580_0000_0010_000c#128 = .serwrBaud 0x2580 ∧
    decode 0x0000_0000_0000_ffff_ffff_0000_0014_000c#128 = .serwrStat 0xffffffff ∧
    decode 0x0000_0000_0000_000c_0000_0000_0018_000c#128 = .serwrCtrl 0x000c0000 ∧
    decode 0x0000_0000_0000_0000_0141_0000_001c_000c#128 = .serwrData 0x141 ∧
    decode 0x0000_0000_0000_0000_0001_0000_0012_000c#128 = .serwrUnknown 0x12 1 := by decide

/-- E8, BC2, P4 and R91: REALIZE and every bus-controller register, read and written. -/
theorem test_decode_bus_controller_family :
    decode 0x0000_0000_0000_0000_0000_0000_0000_0038#128 = .realize 3 ∧
    decode 0x0000_0000_0000_0000_0000_0000_0000_0049#128 = .bcrdMcr 4 ∧
    decode 0x0000_0000_0000_0000_0000_0000_0004_0019#128 = .bcrdCtrl 1 ∧
    decode 0x0000_0000_0000_0000_0000_0000_0008_0029#128 = .bcrdTfr 2 ∧
    decode 0x0000_0000_0000_0000_0000_0000_000c_0029#128 = .bcrdRfr 2 ∧
    decode 0x0000_0000_0000_0000_0000_0000_0010_0009#128 = .bcrdUnknown 0 0x10 ∧
    decode 0x0000_0000_0000_0000_0001_0000_0000_000a#128 = .bcwrMcr 0 1 ∧
    decode 0x0000_0000_0000_ffff_ffff_0000_0004_000a#128 = .bcwrCtrl 0 0xffffffff ∧
    decode 0x0000_0000_0000_dead_beef_0000_0008_002a#128 = .bcwrTfr 2 0xdeadbeef ∧
    decode 0x0000_0000_0000_1234_5678_0000_000c_000a#128 = .bcwrRfr 0 0x12345678 ∧
    decode 0x0000_0000_0000_0000_0001_ffff_fffc_000a#128 = .bcwrUnknown 0 0xfffffffc 1 := by decide

/-- R94: the operation rows of format R, before their sub-decode. -/
theorem test_decode_operation_rows :
    decodeOperation 0x0000_0000_0000_0000_0000_0000_0014_000b#128 = .serrd 0x14 ∧
    decodeOperation 0x0000_0000_0000_0000_0001_0000_0012_000c#128 = .serwr 0x12 1 ∧
    decodeOperation 0x0000_0000_0000_0000_0000_0000_000c_0029#128 = .bcrd 2 0x0c ∧
    decodeOperation 0x0000_0000_0000_dead_beef_0000_0008_002a#128 = .bcwr 2 0x08 0xdeadbeef := by decide

/-- R91, R101: a command is one 128-bit word. -/
theorem test_decode_rejects_longer_words :
    decodeTableWord 128 0x12 = some (.attach 1) ∧ decodeTableWord 136 0x12 = none := by decide

/-! ### Small states -/

/-- Three nodes, a registry of two, queues of four, two ports. -/
def smallConfig : Config where
  nNodes := 3
  busCap := 2
  queueCap := 4
  nPorts := 2
  serIrqClearOnRead := true

/-- The source's example frame, `id` 0x123, `dlc` 2, data 01 02 (R105). -/
def exampleFrame : Frame := 0x02_0000_0000_0000_0201_0000_0123#104

/-- A sequencer in phase `ph` of opcode `op` with node operand `n` and target `tgt`. -/
def portIn (ph : Phase) (op : BitVec 4) (n tgt : NodeIdx) : Port where
  phase := ph
  op := op
  aNode := n
  aFrame := exampleFrame
  aOff := 0
  aVal := 0
  cur := 0
  tgt := tgt
  rHit := false
  rFrame := 0

/-- Registry `[n0, n1]`, everything else as after reset, port 0 as given and active, port 1 IDLE. -/
def withPort (q : Port) : State where
  cfg := smallConfig
  registry := [0, 1]
  nodes := List.replicate 3 Node.reset
  serial := Serial.reset
  ports := [q, portIn .idle 0 0 0]
  active := 0
  schedule := []
  history := []

/-- Port 0 is to take an EXEC step. -/
def ready : State := withPort (portIn .exec 0 0 0)

/-- The next state of an answer. -/
def nextState : Answer → Option State
  | .next s => some s
  | .fault _ | .refused _ => none

/-- What the next state of an answer holds. -/
def view {α : Type} (a : Answer) (f : State → α) : Option α := (nextState a).map f

/-! ### The Bus family -/

/-- B10: INIT empties the registry and leaves the queues. -/
theorem test_init :
    view (exec .init (ready.updNode 1 fun m => { m with head := 1 })) (fun t => (t.registry, (t.node 1).head)) =
      some ([], 1) := by decide

/-- P4: `(ATTACH_FULL, 2)` is 0x000000021, and the response has only the opcode. -/
theorem test_attach_full :
    view (exec (.attach 2) ready) (fun t => (t.registry, t.history)) =
      some ([0, 1], [.diagnostic (.port 0) 0x000000021, .response 0 0x2]) := by decide

/-- B9: a duplicate is tested before a full registry; `(ATTACH_DUP, 1)` is 0x000000012. -/
theorem test_attach_duplicate_before_full :
    view (exec (.attach 1) ready) State.history =
      some [.diagnostic (.port 0) 0x000000012, .response 0 0x2] := by decide

/-- R124's example: the T_SCAN at the sender's entry skips it. -/
theorem test_transmit_skips_sender :
    view (exec (.transmit 0 exampleFrame) (withPort (portIn .tScan 3 0 2)))
      (fun t => ((t.port 0).phase, (t.port 0).cur)) = some (.tScan, 1) := by decide

/-- E16 and B6: the notification word, presented after the lock is FREE. -/
theorem test_transmit_notifies_after_release :
    view (exec (.transmit 0 exampleFrame) ((withPort (portIn .qRel 3 0 1)).updNode 1 fun m =>
        { m with lock := .held 0, notifyEn := true }))
      (fun t => (t.history, (t.node 1).lock, (t.port 0).phase)) =
      some ([.notification 0 0x02_0000_0000_0000_0201_0000_0123_01], .free, .tNtf) := by decide

/-- R129's and R130's examples. -/
theorem test_link : view (exec (.link 2) ready) (fun t => ((t.node 2).busRef, t.registry)) = some (true, [0, 1]) := by
  decide

theorem test_setnotify :
    view (exec (.setnotify 1) ready) (fun t => ((t.node 1).notifyEn, (t.node 0).notifyEn)) = some (true, false) := by
  decide

/-- E14 and E13; R131 for the other two. -/
theorem test_reserved :
    view (exec .reserved0 ready) State.history = some [.diagnostic (.port 0) 0x000000009, .response 0 0x0] ∧
    view (exec .reservedD ready) State.history = some [.diagnostic (.port 0) 0x0000000d9, .response 0 0xD] ∧
    view (exec .reservedE ready) State.history = some [.diagnostic (.port 0) 0x0000000e9, .response 0 0xE] ∧
    view (exec .reservedF ready) State.history = some [.diagnostic (.port 0) 0x0000000f9, .response 0 0xF] := by decide

/-- B14 with `N_NODES` 3: `(BAD_NODE, 0xc8)` is 0x000000c8a, and the response's `hit` is 0. -/
theorem test_bad_node :
    view (exec (.dequeue 200) ready) State.history =
      some [.diagnostic (.port 0) 0x000000c8a, .response 0 0x5] := by decide

/-! ### The Node Queue family -/

/-- Q5: the store that meets `occ = C - 1` brings `head` onto `tail`; no slot but that at `head` changes. -/
theorem test_enqueue_wraps :
    view (exec (.enqueue 0 exampleFrame) ((withPort (portIn .qBody 4 0 0)).updNode 0 fun m =>
        { m with head := 3, slots := [(0, 7), (1, 8), (2, 9)] }))
      (fun t => ((t.node 0).head, (t.node 0).tail, (t.node 0).slots)) =
      some (0, 0, [(0, 7), (1, 8), (2, 9), (3, exampleFrame)]) := by decide

/-- R150: a held lock is waited for. -/
theorem test_enqueue_waits_for_lock :
    view (exec (.enqueue 0 exampleFrame) ((withPort (portIn .qAcq 4 0 0)).updNode 0 fun m => { m with lock := .held 1 }))
      (fun t => ((t.port 0).phase, (t.node 0).lock)) = some (.qAcq, .held 1) := by decide

/-- Q4: a load at `tail = C - 1` returns that slot and wraps `tail`; the slot keeps its frame. -/
theorem test_dequeue_wraps :
    view (exec (.dequeue 0) ((withPort (portIn .qBody 5 0 0)).updNode 0 fun m =>
        { m with head := 1, tail := 3, slots := [(0, 4), (3, exampleFrame)] }))
      (fun t => ((t.port 0).rHit, (t.port 0).rFrame, (t.node 0).tail, (t.node 0).slots)) =
      some (true, exampleFrame, 0, [(0, 4), (3, exampleFrame)]) := by decide

/-- R105: the response to a DEQUEUE that returns the example frame. -/
theorem test_dequeue_response :
    view (exec (.dequeue 1) (withPort { portIn .qRel 5 1 1 with rHit := true, rFrame := exampleFrame })) State.history =
      some [.response 0 0x0002_0000_0000_0000_0201_0000_0123_0015] := by decide

/-! ### The Serial register file -/

/-- P5: the response to `SERRD BAUD` returning 0x2580. -/
theorem test_serrd_baud :
    view (exec .serrdBaud { ready with serial := { Serial.reset with baud := 0x2580 } }) State.history =
      some [.response 0 0x0000_0000_0000_0000_0000_0000_2580_000b] := by decide

/-- E10: STAT with both flags. -/
theorem test_serrd_stat :
    view (exec .serrdStat { ready with serial := { Serial.reset with tdre := true, rdrf := true } })
      (fun t => (t.history, t.serial.rdrf)) =
      some ([.response 0 0x0000_0000_0000_0000_0000_00a0_0000_000b], true) := by decide

/-- P5: all 32 bits of CTRL read back. -/
theorem test_serrd_ctrl :
    view (exec .serrdCtrl { ready with serial := { Serial.reset with ctrl := 0xfff3ffff } }) State.history =
      some [.response 0 0x0000_0000_0000_0000_0000_fff3_ffff_000b] := by decide

/-- SR11: a DATA read clears `RDRF`, and the line when the parameter says so; the latch stays. -/
theorem test_serrd_data :
    view (exec .serrdData { ready with serial := { Serial.reset with rdrf := true, irq := true, data := 0x62 } })
      (fun t => (t.history, t.serial.rdrf, t.serial.irq, t.serial.data)) =
      some ([.response 0 0x0000_0000_0000_0000_0000_0000_0062_000b], false, false, 0x62) := by decide

/-- SR11 with `SER_IRQ_CLEAR_ON_READ` false: the line stays up. -/
theorem test_serrd_data_keeps_line :
    view (exec .serrdData { ready with
        cfg := { smallConfig with serIrqClearOnRead := false }
        serial := { Serial.reset with rdrf := true, irq := true } })
      (fun t => (t.serial.rdrf, t.serial.irq)) = some (false, true) := by decide

/-- SR13: a misaligned offset. -/
theorem test_serrd_unknown :
    view (exec (.serrdUnknown 0x15) ready) State.history =
      some [.diagnostic (.port 0) 0x000000155, .response 0 0xB] := by decide

/-- SR2. -/
theorem test_serwr_baud : view (exec (.serwrBaud 0xffffffff) ready) (fun t => t.serial.baud) = some 0xffffffff := by decide

/-- SR12: a STAT write changes no flag and reports nothing. -/
theorem test_serwr_stat :
    view (exec (.serwrStat 0) { ready with serial := { Serial.reset with tdre := true } })
      (fun t => (t.serial.tdre, t.history)) = some (true, [.response 0 0xC]) := by decide

/-- SR4: RE alone does not set `TDRE`. -/
theorem test_serwr_ctrl_re_only :
    view (exec (.serwrCtrl 0x00040000) ready) (fun t => (t.serial.ctrl, t.serial.tdre)) =
      some (0x00040000, false) := by decide

/-- SR5: clearing TE leaves `TDRE`. -/
theorem test_serwr_ctrl_clears_te :
    view (exec (.serwrCtrl 0) { ready with serial := { Serial.reset with tdre := true, ctrl := 0x00080000 } })
      (fun t => (t.serial.ctrl, t.serial.tdre)) = some (0, true) := by decide

/-- SR6: the low byte only; the latch is not touched. -/
theorem test_serwr_data_sent :
    view (exec (.serwrData 0x12345641) { ready with serial := { Serial.reset with ctrl := 0x00080000, data := 0x62 } })
      (fun t => (t.history, t.serial.tdre, t.serial.data)) =
      some ([.tx 0x41, .response 0 0xC], true, 0x62) := by decide

/-- SR7. -/
theorem test_serwr_data_dropped :
    view (exec (.serwrData 0x41) ready) (fun t => (t.history, t.serial.tdre)) =
      some ([.diagnostic (.port 0) 0x000000413, .response 0 0xC], false) := by decide

/-- SR14. -/
theorem test_serwr_unknown :
    view (exec (.serwrUnknown 0x0c 0xffffffff) ready) State.history =
      some [.diagnostic (.port 0) 0x0000000c6, .response 0 0xC] := by decide

/-- An operation row means what the row of its offset means (R97). -/
theorem test_serial_operation_rows :
    view (exec (.serrd 0x20) ready) State.history = some [.diagnostic (.port 0) 0x000000205, .response 0 0xB] ∧
    view (exec (.serwr 0x10 7) ready) (fun t => t.serial.baud) = some 7 := by decide

/-- SR9 and SR10. -/
theorem test_reception :
    view (runEvent (.rx 0x62) { ready with
        serial := { Serial.reset with ctrl := 0x00040000, rdrf := true, irq := true, data := 0x61 } })
      (fun t => (t.serial.data, t.serial.rdrf, t.history)) = some (0x62, true, []) ∧
    view (runEvent (.rx 0x55) ready) (fun t => (t.serial.data, t.history)) =
      some (0, [.diagnostic .rx 0x000000554]) := by decide

/-! ### The bus-controller register files -/

/-- P4: a REALIZE that finds the registry full sets the flag and reports `(ATTACH_FULL, 2)`. -/
theorem test_realize_full :
    view (exec (.realize 2) (ready.updNode 2 fun m => { m with busRef := true }))
      (fun t => ((t.node 2).realized, t.registry, t.history)) =
      some (true, [0, 1], [.diagnostic (.port 0) 0x000000021, .response 0 0x8]) := by decide

/-- BC11: realization happens once. -/
theorem test_realize_once :
    view (exec (.realize 2) ({ ready with registry := [] }.updNode 2 fun m => { m with busRef := true, realized := true }))
      (fun t => (t.registry, t.history)) = some ([], [.response 0 0x8]) := by decide

/-- Node 2 with a different value in each register. -/
def registers : State := ready.updNode 2 fun m => { m with mcr := 1, ctrlBc := 2, tfr := 0xdeadbeef, rfr := 4 }

/-- E9, and the same for the other registers. -/
theorem test_bcrd :
    view (exec (.bcrdMcr 2) registers) State.history = some [.response 0 0x0001_0009] ∧
    view (exec (.bcrdCtrl 2) registers) State.history = some [.response 0 0x0002_0009] ∧
    view (exec (.bcrdTfr 2) registers) State.history =
      some [.response 0 0x0000_0000_0000_0000_0000_dead_beef_0009] ∧
    view (exec (.bcrdRfr 2) registers) State.history = some [.response 0 0x0004_0009] := by decide

/-- BC5 and BC7. -/
theorem test_bcrd_unknown :
    view (exec (.bcrdUnknown 0 0x10) ready) State.history = some [.diagnostic (.port 0) 0x000000107, .response 0 0x9] ∧
    view (exec (.bcrd 0 0x02) ready) State.history = some [.diagnostic (.port 0) 0x000000027, .response 0 0x9] := by
  decide

/-- BC9: a bad node is tested before the offset. -/
theorem test_bcrd_bad_node_first :
    view (exec (.bcrd 3 0x10) ready) State.history = some [.diagnostic (.port 0) 0x00000003a, .response 0 0x9] := by decide

/-- BC2 and BC4: the register selected and no other. -/
theorem test_bcwr :
    view (exec (.bcwrMcr 2 9) registers) (fun t => let m := t.node 2; (m.mcr, m.ctrlBc, m.tfr, m.rfr)) =
      some (9, 2, 0xdeadbeef, 4) ∧
    view (exec (.bcwrCtrl 2 9) registers) (fun t => let m := t.node 2; (m.mcr, m.ctrlBc, m.tfr, m.rfr)) =
      some (1, 9, 0xdeadbeef, 4) ∧
    view (exec (.bcwrTfr 2 9) registers) (fun t => let m := t.node 2; (m.mcr, m.ctrlBc, m.tfr, m.rfr)) =
      some (1, 2, 9, 4) ∧
    view (exec (.bcwrRfr 2 9) registers) (fun t => let m := t.node 2; (m.mcr, m.ctrlBc, m.tfr, m.rfr)) =
      some (1, 2, 0xdeadbeef, 9) := by decide

/-- BC8 and BC6. -/
theorem test_bcwr_unknown :
    view (exec (.bcwrUnknown 0 0xfffffffc 1) ready) State.history =
      some [.diagnostic (.port 0) 0xfffffffc8, .response 0 0xA] ∧
    view (exec (.bcwr 0 0x10 5) ready) State.history = some [.diagnostic (.port 0) 0x000000108, .response 0 0xA] := by
  decide

/-! ### The step -/

/-- R120, B13: a bad node goes to EXEC, a TRANSMIT to T_SCAN, a queue operation to Q_ACQ with its target. -/
theorem test_accept :
    view (runEvent (.accept 1 0x33) ready) (fun t => ((t.port 1).phase, (t.port 1).op)) = some (.exec, 3) ∧
    view (runEvent (.accept 1 0x23) ready) (fun t => ((t.port 1).phase, (t.port 1).cur)) = some (.tScan, 0) ∧
    view (runEvent (.accept 1 0x25) ready) (fun t => ((t.port 1).phase, (t.port 1).tgt)) = some (.qAcq, 2) := by decide

/-- RS1 and P1: a command right after reset. -/
theorem test_first_command_after_reset :
    view (step (State.reset.withFetchWord 128 0x12)) State.registry = some [1] ∧
    view (step (State.reset.withFetchWord 128 0x14000b)) State.history = some [.response 0 0xB] := by decide

/-- RS2: hardware reset during a pending notification. -/
theorem test_reset_abandons :
    view (step { withPort (portIn .tNtf 3 0 1) with schedule := [.rst] })
      (fun t => ((t.port 0).phase, t.ntfValid 0, t.registry, t.history)) = some (.idle, false, [], []) := by decide

/-- A port the block does not have is the model's own fault (log entry 9). -/
theorem test_no_such_port : nextState (step { ready with schedule := [.run 2] }) = none := by decide

/-! ### Witnesses: a state and operands that meet every hypothesis of a statement, clause by clause

Named after the statement of `Sys2Proof/Certificates/Slice0/Obligations.lean`. -/

/-- A step of `s` exists and its next state is as `f` says. -/
def stepsTo (s : State) (f : State → Bool) : Bool :=
  match step s with
  | .next t => f t
  | .fault _ | .refused _ => false

theorem witness_DecodeOfEncodeGivesInstruction :
    (Instr.serrdUnknown 0x11).wf = true ∧ (Instr.serrd 0x10).wf = true ∧ Instr.init.isOperationRow = false := by decide

theorem witness_IgnoredBitsDoNotChangeCommand :
    opField 0x0091#128 = opField 0x0001#128 ∧
    0x0091#128 &&& usedBits (opField 0x0091#128) = 0x0001#128 &&& usedBits (opField 0x0091#128) := by decide

theorem witness_StepRunsLatchedInstruction :
    1 < ready.cfg.nPorts ∧ (ready.port 0).phase ≠ .idle ∧ 1 < ready.ports.length ∧ (ready.port 1).phase = .idle := by
  decide

theorem witness_AcceptLatchesCommand : 1 < ready.cfg.nPorts ∧ (ready.port 1).phase = .idle := by decide

theorem witness_DisabledStepsChangeNothing :
    (ready.port 0).phase ≠ .idle ∧ (ready.port 1).phase = .idle ∧ (ready.port 0).phase ≠ .tNtf ∧
    ((withPort (portIn .tNtf 3 0 1)).port 0).phase = .tNtf ∧ 0 < (withPort (portIn .tNtf 3 0 1)).cfg.nPorts := by decide

theorem witness_AcknowledgementResumesBroadcast :
    0 < (withPort (portIn .tNtf 3 0 1)).cfg.nPorts ∧ ((withPort (portIn .tNtf 3 0 1)).port 0).phase = .tNtf := by decide

/-- A step of port 0 that answers, whose event is neither reset nor a step of port 1. -/
theorem witness_steps :
    stepsTo { ready with schedule := [.run 0] } (fun t => (t.port 0).phase == .idle && t.responses 0 == 1) = true ∧
    Event.run 0 ≠ .rst ∧ Event.run 0 ≠ .run 1 ∧ Event.run 0 ≠ .ack 1 ∧ ∀ w, Event.run 0 ≠ .accept 1 w :=
  ⟨by decide, by decide, by decide, by decide, fun _ h => by cases h⟩

theorem witness_NoStepChangesParameters : stepsTo { ready with schedule := [.rst] } (fun _ => true) = true := by decide

theorem witness_NoStepReadsHistory :
    stepsTo { ready with schedule := [.run 0] } (fun t => t.history.length == 2) = true := by decide

/-- Two states that differ in the target latch of a port in EXEC. -/
theorem witness_DeadLatchesAreUnobservable :
    (withPort (portIn .exec 0 0 0)).liveOnly = (withPort (portIn .exec 0 0 7)).liveOnly ∧
    withPort (portIn .exec 0 0 0) ≠ withPort (portIn .exec 0 0 7) := by decide

/-- Statements whose hypotheses are a ready port and a node that exists: the largest node index. -/
theorem witness_ready_node : ready.Ready ∧ (2 : NodeIdx).toNat < ready.cfg.nNodes := by decide

theorem witness_InitEmptiesRegistry : ready.Ready ∧ ready.registry ≠ [] := by decide

theorem witness_AttachAppendsOrReports :
    1 ∈ ready.registry ∧ (2 ∉ ready.registry ∧ ready.cfg.busCap ≤ ready.registry.length) ∧
    2 ∉ { ready with registry := [0] }.registry ∧
    { ready with registry := [0] }.registry.length < { ready with registry := [0] }.cfg.busCap := by decide

theorem witness_RealizeRegistersOnce :
    let r := fun (s : State) (realized linked : Bool) =>
      s.updNode 2 fun m => { m with realized := realized, busRef := linked }
    ((r ready true true).node 2).realized = true ∧
    (((r ready false false).node 2).realized = false ∧ ((r ready false false).node 2).busRef = false) ∧
    (((r { ready with registry := [2] } false true).node 2).busRef = true ∧
      2 ∈ (r { ready with registry := [2] } false true).registry) ∧
    (((r ready false true).node 2).busRef = true ∧ 2 ∉ (r ready false true).registry ∧
      (r ready false true).cfg.busCap ≤ (r ready false true).registry.length) ∧
    (((r { ready with registry := [0] } false true).node 2).realized = false ∧
      2 ∉ (r { ready with registry := [0] } false true).registry ∧
      (r { ready with registry := [0] } false true).registry.length < 2) := by decide

theorem witness_BadNodeIsReportedAndChangesNothing :
    ready.Ready ∧ (Instr.bcrdUnknown 3 0x10).nodeOperand = some 3 ∧ ready.cfg.nNodes ≤ (3 : NodeIdx).toNat := by decide

/-- The cursor at the sender's entry, at another node's, and just past the last. -/
theorem witness_ScanVisitsRegistryInOrder :
    let s := fun cur => withPort { portIn .tScan 3 0 0 with cur := cur }
    (s 0).registry[((s 0).port 0).cur]? = some 0 ∧ (s 1).registry[((s 1).port 0).cur]? = some 1 ∧
    (s 2).registry.length ≤ ((s 2).port 0).cur ∧ ((s 2).port (s 2).active).phase = .tScan := by decide

theorem witness_NotificationHoldsUntilAcknowledged :
    (withPort (portIn .tNtf 3 0 1)).ntfValid 0 = true ∧
    stepsTo { withPort (portIn .tNtf 3 0 1) with schedule := [.run 0] } (fun _ => true) = true ∧
    Event.run 0 ≠ .ack 0 ∧ Event.run 0 ≠ .rst := by decide

theorem witness_AcquireTakesFreeLockOrWaits :
    ((withPort (portIn .qAcq 4 0 1)).port 0).phase = .qAcq ∧ ((withPort (portIn .qAcq 4 0 1)).node 1).lock = .free ∧
    (((withPort (portIn .qAcq 4 0 1)).updNode 1 fun m => { m with lock := .held 1 }).node 1).lock = .held 1 := by decide

/-- A target that exists, with an empty queue and with one that is not. -/
theorem witness_queue_bodies :
    ((withPort (portIn .qBody 5 2 2)).port 0).phase = .qBody ∧
    (2 : NodeIdx).toNat < (withPort (portIn .qBody 5 2 2)).nodes.length ∧
    ((withPort (portIn .qBody 5 2 2)).node 2).head = ((withPort (portIn .qBody 5 2 2)).node 2).tail ∧
    (((withPort (portIn .qBody 5 2 2)).updNode 2 fun m => { m with head := 1 }).node 2).head ≠
      (((withPort (portIn .qBody 5 2 2)).updNode 2 fun m => { m with head := 1 }).node 2).tail := by decide

theorem witness_ReleaseAnswersOrNotifies :
    let s := fun en hit => (withPort { portIn .qRel 3 0 1 with rHit := hit }).updNode 1 fun m => { m with notifyEn := en }
    ((s true true).port 0).phase = .qRel ∧ ((s true true).port 0).rHit = true ∧ ((s true false).port 0).rHit = false ∧
    ((s true true).node 1).notifyEn = true ∧ ((s false true).node 1).notifyEn = false := by decide

/-! Statements whose hypothesis is the invariant: a state in the middle of things meets it. Port 0 is in a phase of a
queue access of node 1, whose lock it holds and whose queue has wrapped past the end of its storage. -/

/-- Port 0 in `ph` with opcode `op`, node operand `n`, target 1 and lock of node 1 as given. -/
def busy (ph : Phase) (op : BitVec 4) (n : NodeIdx) (lock : Lock) : State :=
  (withPort (portIn ph op n 1)).updNode 1 fun m =>
    { m with head := 1, tail := 3, slots := [(0, 4), (1, 5), (2, 6), (3, 7)], lock := lock }

theorem witness_inv_dequeue_body : (busy .qBody 5 1 (.held 0)).Inv :=
  ⟨by decide, by decide, by decide, by decide, by decide, by decide, by decide⟩

theorem witness_inv_transmit_release : (busy .qRel 3 0 (.held 0)).Inv :=
  ⟨by decide, by decide, by decide, by decide, by decide, by decide, by decide⟩

theorem witness_inv_idle : (busy .idle 0 0 .free).Inv :=
  ⟨by decide, by decide, by decide, by decide, by decide, by decide, by decide⟩

theorem witness_LoadNeverReadsUnwrittenSlot :
    ((busy .qBody 5 1 (.held 0)).port 0).phase = .qBody ∧ (busy .qBody 5 1 (.held 0)).active < 2 ∧
    ((busy .qBody 5 1 (.held 0)).node 1).head ≠ ((busy .qBody 5 1 (.held 0)).node 1).tail := by decide

/-- The two ports of the statement are the same one, as it concludes. -/
theorem witness_LockExcludesOtherPorts :
    0 < (busy .qBody 5 1 (.held 0)).cfg.nPorts ∧ ((busy .qBody 5 1 (.held 0)).port 0).phase.locked = true := by decide

theorem witness_HolderFreesLockWithinTwoSteps :
    0 < (busy .qBody 5 1 (.held 0)).cfg.nPorts ∧ ((busy .qBody 5 1 (.held 0)).port 0).phase = .qBody ∧
    ((busy .qRel 3 0 (.held 0)).port 0).phase = .qRel := by decide

theorem witness_EveryStepKeepsInvariant :
    stepsTo (busy .qBody 5 1 (.held 0)) (fun _ => true) = true ∧
    stepsTo { busy .qBody 5 1 (.held 0) with schedule := [.run 0] } (fun t => (t.node 1).tail == 0) = true := by decide

theorem witness_SenderQueueIsNeverWritten :
    stepsTo { busy .qRel 3 0 (.held 0) with schedule := [.run 0] } (fun _ => true) = true ∧
    ((busy .qRel 3 0 (.held 0)).port 0).phase ≠ .idle ∧ ((busy .qRel 3 0 (.held 0)).port 0).op = 0x3 := by decide

/-- ENQUEUE n1 of the example frame, DEQUEUE n1 of a queue that holds frames, DEQUEUE n0 of an empty queue. -/
theorem witness_undisturbed_queue_operations :
    let s := busy .idle 0 0 .free
    0 < s.cfg.nPorts ∧ (s.port 0).phase = .idle ∧ (s.node 1).lock = .free ∧ (s.node 0).lock = .free ∧
    opField 0x0002_0000_0000_0000_0201_0000_0123_0014#128 = 0x4 ∧
    (nodeField 0x0002_0000_0000_0000_0201_0000_0123_0014#128).toNat < s.cfg.nNodes ∧
    opField 0x15#128 = 0x5 ∧ (nodeField 0x15#128).toNat < s.cfg.nNodes ∧ (s.node 1).head ≠ (s.node 1).tail ∧
    opField 0x05#128 = 0x5 ∧ (nodeField 0x05#128).toNat < s.cfg.nNodes ∧ (s.node 0).head = (s.node 0).tail := by decide

/-- Everything IDLE, node 1 with a wrapped queue and, as `en` says, a notify capability. -/
def receiver (en : Bool) : State := (busy .idle 0 0 .free).updNode 1 fun m => { m with notifyEn := en }

theorem witness_inv_receiver (en : Bool) : (receiver en).Inv := by
  cases en <;> exact ⟨by decide, by decide, by decide, by decide, by decide, by decide, by decide⟩

/-- TRANSMIT n0 of the example frame, with n0 and n1 registered: one receiver, with a FREE lock, once without a notify
capability and once with one. -/
theorem witness_BroadcastDeliversOnceToEveryReceiver (en : Bool) :
    let s := receiver en
    let w := 0x0002_0000_0000_0000_0201_0000_0123_0003#128
    0 < s.cfg.nPorts ∧ (s.port 0).phase = .idle ∧ opField w = 0x3 ∧ (nodeField w).toNat < s.cfg.nNodes ∧
    s.registry.filter (· ≠ nodeField w) = [1] ∧ (s.node 1).lock = .free ∧
    ([1].filter fun e => (s.node e).notifyEn) = if en then [1] else [] := by
  cases en <;> decide

theorem witness_SlotStorageReadsBack : Memory.wf [(0, 4), (3, 7)] := by decide

/-- `C = 2` and `C = 4`, with the occupancies where the clauses meet: `C - 2` and `C - 1`. -/
theorem witness_OverflowEmptiesQueue :
    { Node.reset with head := 0, tail := 0 }.occ 2 = 2 - 2 ∧ { Node.reset with head := 1, tail := 0 }.occ 2 = 2 - 1 ∧
    { Node.reset with head := 1, tail := 3 }.occ 4 = 4 - 2 ∧ { Node.reset with head := 2, tail := 3 }.occ 4 = 4 - 1 := by
  decide

/-- Q9: three stores and a load with `C = 2`; the load finds one frame, of store number 2. -/
theorem witness_QueueReturnsFramesInStoreOrder :
    2 ≤ 2 ∧ (QueueRun.after 2 [.store 0, .store 1, .store 2]).node.occ 2 = 1 ∧
    (QueueRun.after 2 [.store 0, .store 1, .store 2, .load]).returned = [2] := by decide

/-- ENQUEUE n1 to its end on port 1 and one DEQUEUE body on port 0. -/
theorem witness_EveryInterleavingKeepsQueueOrder :
    smallConfig.wf ∧ (1 : NodeIdx).toNat < smallConfig.nNodes ∧
    (runLogged 1 7 { State.resetOf smallConfig with
        schedule := [.accept 1 0x14, .accept 0 0x15, .run 1, .run 1, .run 1, .run 0, .run 0] } ([], [])).map
      (fun r => r.2) = some ([0], [0]) := by decide

/-- Q8 before its last load, `k` 6 and `d` 1, with one frame pending; and right after reset. The step is that load. -/
theorem witness_EveryStepKeepsQueueRecord :
    let s := { (withPort (portIn .qBody 5 0 0)).updNode 0 fun m =>
      { m with head := 2, tail := 1, slots := [(0, 4), (1, 5), (2, 2), (3, 3)] } with schedule := [.run 0] }
    2 ≤ s.cfg.queueCap ∧ (0 : NodeIdx).toNat < s.nodes.length ∧
    (s.node 0).Recorded 4 ([0, 1, 2, 3, 4, 5], [0]) ∧ (s.node 2).Recorded 4 ([], []) ∧
    stepsTo s (fun t => (t.node 0).tail == 2) = true ∧
    bodyLogStep 0 s ([0, 1, 2, 3, 4, 5], [0]) = ([0, 1, 2, 3, 4, 5], [0, 5]) := by decide

theorem witness_OnlyBodiesWriteQueues :
    stepsTo { busy .qBody 5 1 (.held 0) with schedule := [.run 0] } (fun _ => true) = true ∧
    ((busy .qBody 5 1 (.held 0)).port 0).tgt ≠ 2 := by decide

/-- Offsets next to the known ones. -/
theorem witness_SerialUnknownOffsetsAreReported :
    0x0F#32 ≠ 0x10#32 ∧ 0x0F#32 ≠ 0x14#32 ∧ 0x0F#32 ≠ 0x18#32 ∧ 0x0F#32 ≠ 0x1C#32 ∧
    0x1D#32 ≠ 0x10#32 ∧ 0x1D#32 ≠ 0x14#32 ∧ 0x1D#32 ≠ 0x18#32 ∧ 0x1D#32 ≠ 0x1C#32 := by decide

theorem witness_BusControllerUnknownOffsetsAreReported :
    0x01#32 ≠ 0x00#32 ∧ 0x01#32 ≠ 0x04#32 ∧ 0x01#32 ≠ 0x08#32 ∧ 0x01#32 ≠ 0x0C#32 ∧
    0x10#32 ≠ 0x00#32 ∧ 0x10#32 ≠ 0x04#32 ∧ 0x10#32 ≠ 0x08#32 ∧ 0x10#32 ≠ 0x0C#32 := by decide

theorem witness_SerialDataWriteForwardsOrDrops :
    ready.Ready ∧ ready.serial.ctrl.getLsbD 19 = false ∧ (0x00080000 : Word32).getLsbD 19 = true := by decide

theorem witness_ReceptionLatchesOrDrops :
    ready.serial.ctrl.getLsbD 18 = false ∧ (0x00040000 : Word32).getLsbD 18 = true := by decide

/-- A step that sets `TDRE`: SERWR CTRL with TE. -/
theorem witness_TransmitFlagIsClearedOnlyByReset :
    let s := { withPort { portIn .exec 0xC 0 0 with aOff := 0x18, aVal := 0x00080000 } with schedule := [.run 0] }
    s.serial.tdre = false ∧ stepsTo s (fun t => t.serial.tdre) = true ∧
    stepsTo { s with serial := { Serial.reset with tdre := true }, schedule := [.rx 0] } (fun t => t.serial.tdre) = true := by
  decide

/-- A reception that raises `RDRF` and the line, and a DATA read that lowers them. -/
theorem witness_ReceiveFlagChangesOnlyByReceptionAndRead :
    stepsTo { ready with serial := { Serial.reset with ctrl := 0x00040000 }, schedule := [.rx 0] }
      (fun t => t.serial.rdrf && t.serial.irq) = true ∧
    stepsTo { withPort { portIn .exec 0xB 0 0 with aOff := 0x1C } with
        serial := { Serial.reset with rdrf := true, irq := true }, schedule := [.run 0] }
      (fun t => !t.serial.rdrf && !t.serial.irq) = true := by decide

theorem witness_SerialFileAndArbiterAreIndependent :
    stepsTo { ready with schedule := [.rx 0] } (fun _ => true) = true ∧
    ((withPort { portIn .exec 0xB 0 0 with aOff := 0x1C }).port 0).instr.isSerial = true ∧
    (ready.port 0).instr.isSerial = false ∧ stepsTo { ready with schedule := [.run 0] } (fun _ => true) = true := by decide

/-- A step that changes the registry: INIT. -/
theorem witness_OnlyRegistrationChangesRegistry :
    stepsTo { withPort (portIn .exec 1 0 0) with schedule := [.run 0] } (fun t => t.registry == []) = true ∧
    Event.run 0 ≠ .rst := by decide

/-- Steps that set each flag of node 2, and one that finds all three set. -/
theorem witness_NodeFlagsAreClearedOnlyByReset :
    stepsTo { withPort (portIn .exec 7 2 0) with schedule := [.run 0] } (fun t => (t.node 2).notifyEn) = true ∧
    stepsTo { withPort (portIn .exec 6 2 0) with schedule := [.run 0] } (fun t => (t.node 2).busRef) = true ∧
    stepsTo { withPort (portIn .exec 8 2 0) with schedule := [.run 0] } (fun t => (t.node 2).realized) = true ∧
    stepsTo { ready.updNode 2 (fun m => { m with notifyEn := true, busRef := true, realized := true }) with
      schedule := [.run 0] } (fun t => (t.node 2).notifyEn && (t.node 2).busRef && (t.node 2).realized) = true := by decide

/-- Steps that change each register of node 2. -/
theorem witness_OnlyBcwrChangesControllerRegisters :
    let s := fun off => { withPort { portIn .exec 0xA 2 0 with aOff := off, aVal := 9 } with schedule := [.run 0] }
    stepsTo (s 0x00) (fun t => (t.node 2).mcr == 9) = true ∧ stepsTo (s 0x04) (fun t => (t.node 2).ctrlBc == 9) = true ∧
    stepsTo (s 0x08) (fun t => (t.node 2).tfr == 9) = true ∧ stepsTo (s 0x0C) (fun t => (t.node 2).rfr == 9) = true ∧
    ((s 0).node 2).mcr = 0 ∧ ((s 0).node 2).ctrlBc = 0 ∧ ((s 0).node 2).tfr = 0 ∧ ((s 0).node 2).rfr = 0 := by decide

theorem witness_ResetMeetsInvariant : smallConfig.wf ∧ Config.default.wf := by decide

end Sys2Proof.Tests
end

section
/-! PROOFS. The scope of the block (`00_scope.md`): the steps that are not enabled, and the independence of the serial
file and the arbiter. -/

namespace Sys2Proof.Machine

/-! ### Steps that are not enabled -/

/-- A port the block has takes its step (R8). -/
theorem State.onPort_of_lt {s : State} {p : Nat} (hp : p < s.cfg.nPorts) (f : State → Answer) :
    s.onPort p f = f s := if_pos hp

/-- A port that is not IDLE takes no command word. -/
theorem runEvent_accept_of_busy {s : State} {p : Nat} (hp : p < s.cfg.nPorts) (h : (s.port p).phase ≠ .idle)
    (w : CmdWord) : runEvent (.accept p w) s = .next s := by
  rw [runEvent, State.onPort_of_lt hp, State.accept, if_neg h]

/-- The sequencer of an IDLE port has no step. -/
theorem runEvent_run_of_idle {s : State} {p : Nat} (hp : p < s.cfg.nPorts) (h : (s.port p).phase = .idle) :
    runEvent (.run p) s = .next s := by
  rw [runEvent, State.onPort_of_lt hp, State.runPort, if_pos h]

/-- The sequencer of a port that is not IDLE runs the instruction latched there (R38). -/
theorem runEvent_run_of_busy {s : State} {p : Nat} (hp : p < s.cfg.nPorts) (h : (s.port p).phase ≠ .idle) :
    runEvent (.run p) s = exec (s.port p).instr { s with active := p } := by
  rw [runEvent, State.onPort_of_lt hp, State.runPort, if_neg h]

/-- Outside T_NTF there is nothing to acknowledge. -/
theorem runEvent_ack_of_ne_tNtf {s : State} {p : Nat} (hp : p < s.cfg.nPorts) (h : (s.port p).phase ≠ .tNtf) :
    runEvent (.ack p) s = .next s := by
  rw [runEvent, State.onPort_of_lt hp, State.ntfAck, if_neg h]

/-- No instruction moves in T_NTF: each of `Taken`'s moves starts in another phase. -/
theorem Taken.eq_of_tNtf {s t : State} {i : Instr} (h : Taken s i t) (hn : (s.port s.active).phase = .tNtf) :
    t = s := by
  cases h
  case wait => rfl
  all_goals simp_all only [reduceCtorEq]

/-- In T_NTF every resolved instruction waits for the acknowledgement (R128). -/
theorem exec_of_tNtf {s : State} {i : Instr} (hi : i.isOperationRow = false)
    (hn : (s.port s.active).phase = .tNtf) : exec i s = .next s := by
  obtain ⟨t, ht⟩ := exec_next i s
  rw [ht, (exec_taken hi ht).eq_of_tNtf hn]

/-- The sequencer of a port in T_NTF waits; the port is the active one. -/
theorem runEvent_run_of_tNtf {s : State} {p : Nat} (hp : p < s.cfg.nPorts) (h : (s.port p).phase = .tNtf) :
    runEvent (.run p) s = .next { s with active := p } := by
  rw [runEvent_run_of_busy hp (by simp [h])]
  exact exec_of_tNtf (isOperationRow_subDecode _) h

/-- Settles O8: each clause is the rule of its event whose guard is false, in the state whose schedule has moved on. -/
theorem disabledStepsChangeNothing : Obligations.DisabledStepsChangeNothing := fun s _ rest hp =>
  let s' : State := { s with schedule := rest }
  ⟨fun h w => runEvent_accept_of_busy (s := s') hp h w, fun h => runEvent_run_of_idle (s := s') hp h,
    fun h => runEvent_run_of_tNtf (s := s') hp h, fun h => runEvent_ack_of_ne_tNtf (s := s') hp h⟩

/-! ### Steps that a change of the state commutes with

A change `g` of the state commutes with a step when the step from `g s` is the step from `s` followed by `g`. A step
that commutes with every replacement of a part of the state does not read that part, and so cannot write it either:
replacing the part by itself changes nothing. -/

/-- An answer with its next state changed by `g`. -/
def mapNext (g : State → State) : Answer → Answer
  | .next t => .next (g t)
  | .fault r => .fault r
  | .refused r => .refused r

/-- `s` with the serial file `x`. -/
def State.withSerial (x : Serial) (s : State) : State := { s with serial := x }

/-- `s` with the nodes `ns` and the registry `r`. -/
def State.withArbiter (ns : List Node) (r : List NodeIdx) (s : State) : State := { s with nodes := ns, registry := r }

/-- `g` leaves the parameters, the sequencers and the choice of the active one, and does not depend on that choice. -/
structure KeepsPorts (g : State → State) : Prop where
  cfg : ∀ s, (g s).cfg = s.cfg
  ports : ∀ s, (g s).ports = s.ports
  active : ∀ s, (g s).active = s.active
  setActive : ∀ s p, g { s with active := p } = { g s with active := p }

theorem keepsPorts_withSerial (x : Serial) : KeepsPorts (State.withSerial x) :=
  ⟨fun _ => rfl, fun _ => rfl, fun _ => rfl, fun _ _ => rfl⟩

theorem keepsPorts_withArbiter (ns : List Node) (r : List NodeIdx) : KeepsPorts (State.withArbiter ns r) :=
  ⟨fun _ => rfl, fun _ => rfl, fun _ => rfl, fun _ _ => rfl⟩

section
variable {g : State → State} (hg : KeepsPorts g)
include hg

theorem KeepsPorts.port (s : State) (p : Nat) : (g s).port p = s.port p := State.port_congr (hg.ports s) p

/-- An EXEC step commutes with `g` when its effect does. -/
theorem KeepsPorts.execStep (s : State) {f : State → State} (hf : f (g s) = g (f s)) :
    (g s).execStep f = mapNext g (s.execStep f) := by
  unfold State.execStep
  rw [hg.port, hg.active, hf]
  split <;> rfl

/-- A step that involves a port commutes with `g` when its body does. -/
theorem KeepsPorts.onPort (s : State) (p : Nat) {f : State → Answer} (hf : f (g s) = mapNext g (f s)) :
    (g s).onPort p f = mapNext g (s.onPort p f) := by
  unfold State.onPort
  rw [hg.cfg, hf]
  split <;> rfl

/-- A sequencer's step commutes with `g` when the meaning of the instruction latched there does. -/
theorem KeepsPorts.runEvent_run {s : State} {p : Nat}
    (hf : exec (s.port p).instr (g { s with active := p }) = mapNext g (exec (s.port p).instr { s with active := p })) :
    runEvent (.run p) (g s) = mapNext g (runEvent (.run p) s) := by
  simp only [runEvent]
  refine hg.onPort s p ?_
  unfold State.runPort
  rw [hg.port, ← hg.setActive, hf]
  split <;> rfl

end

/-- A step with an event scheduled is the step of that event. -/
theorem step_of_schedule {s : State} {e : Event} {rest : List Event} (hs : s.schedule = e :: rest) :
    step s = runEvent e { s with schedule := rest } := by
  unfold step
  split
  · next h => cases hs.symm.trans h
  · next h => cases hs.symm.trans h; rfl

/-! ### The serial file does not read the arbiter (R2) -/

/-- Reception reads the receive enable only. -/
theorem rx_withArbiter (b : Byte) (s : State) (ns : List Node) (r : List NodeIdx) :
    (s.withArbiter ns r).rx b = (s.rx b).withArbiter ns r := by
  unfold State.rx
  rw [apply_ite (State.withArbiter ns r)]
  rfl

/-- A serial instruction is one EXEC step, whose effect is on the serial file, the port and the record of outputs; only
the effect of a SERWR of DATA branches, on the transmit enable. -/
theorem exec_withArbiter {i : Instr} (hi : i.isSerial = true) (hr : i.isOperationRow = false) (s : State)
    (ns : List Node) (r : List NodeIdx) :
    exec i (s.withArbiter ns r) = mapNext (State.withArbiter ns r) (exec i s) := by
  cases i <;> simp only [Instr.isSerial, Instr.isOperationRow, reduceCtorEq] at hi hr <;> simp only [exec] <;>
    refine (keepsPorts_withArbiter ns r).execStep s ?_
  case serwrData v =>
    have hser : (s.withArbiter ns r).serial = s.serial := rfl
    simp only [hser]
    split <;> rfl
  all_goals rfl

/-- A reception and a step of a serial command are the same with any other nodes and registry. -/
theorem runEvent_withArbiter {e : Event} {s : State}
    (he : (∃ b, e = .rx b) ∨ ∃ p, e = .run p ∧ (s.port p).instr.isSerial = true) (ns : List Node)
    (r : List NodeIdx) : runEvent e (s.withArbiter ns r) = mapNext (State.withArbiter ns r) (runEvent e s) := by
  obtain ⟨b, rfl⟩ | ⟨p, rfl, hi⟩ := he
  · exact congrArg Host.Outcome.next (rx_withArbiter b s ns r)
  · exact (keepsPorts_withArbiter ns r).runEvent_run (exec_withArbiter hi (isOperationRow_subDecode _) _ ns r)

/-! ### The arbiter does not read the serial file (R3)

The operations' tests read ports, nodes and the registry only: `apply_ite` moves the replacement of the serial file into
the branches, and there it commutes by definition. -/

section
variable (x : Serial) (s : State)

theorem execStep_withSerial {f : State → State} (hf : f (s.withSerial x) = (f s).withSerial x) :
    (s.withSerial x).execStep f = mapNext (State.withSerial x) (s.execStep f) :=
  (keepsPorts_withSerial x).execStep s hf

theorem execNodeStep_withSerial {f : State → State} (hf : f (s.withSerial x) = (f s).withSerial x) (op : BitVec 4)
    (n : NodeIdx) : (s.withSerial x).execNodeStep op n f = mapNext (State.withSerial x) (s.execNodeStep op n f) := by
  refine execStep_withSerial x s ?_
  rw [apply_ite (State.withSerial x), ← hf]
  rfl

theorem queueExec_withSerial (op : BitVec 4) (n : NodeIdx) :
    (s.withSerial x).queueExec op n = mapNext (State.withSerial x) (s.queueExec op n) := by
  unfold State.queueExec
  rw [apply_ite (mapNext (State.withSerial x))]
  rfl

theorem register_withSerial (p : Nat) (n : NodeIdx) :
    (s.withSerial x).register p n = (s.register p n).withSerial x := by
  unfold State.register
  rw [apply_ite (State.withSerial x), apply_ite (State.withSerial x)]
  rfl

theorem realizeNode_withSerial (p : Nat) (n : NodeIdx) :
    (s.withSerial x).realizeNode p n = (s.realizeNode p n).withSerial x := by
  unfold State.realizeNode
  rw [apply_ite (State.withSerial x), apply_ite (State.withSerial x), ← register_withSerial]
  rfl

theorem tScan_withSerial (p : Nat) (snd : NodeIdx) :
    (s.withSerial x).tScan p snd = (s.tScan p snd).withSerial x := by
  have hreg : (s.withSerial x).registry[((s.withSerial x).port p).cur]? = s.registry[(s.port p).cur]? := rfl
  unfold State.tScan
  rw [hreg]
  split
  · rfl
  · rw [apply_ite (State.withSerial x)]
    rfl

theorem qAcq_withSerial (p : Nat) : (s.withSerial x).qAcq p = (s.qAcq p).withSerial x := by
  unfold State.qAcq
  rw [apply_ite (State.withSerial x)]
  rfl

theorem qBodyLoad_withSerial (p : Nat) : (s.withSerial x).qBodyLoad p = (s.qBodyLoad p).withSerial x := by
  unfold State.qBodyLoad
  rw [apply_ite (State.withSerial x)]
  rfl

theorem qRelTransmit_withSerial (p : Nat) (f : Frame) :
    (s.withSerial x).qRelTransmit p f = (s.qRelTransmit p f).withSerial x := by
  unfold State.qRelTransmit
  rw [apply_ite (State.withSerial x)]
  rfl

theorem qRelDequeue_withSerial (p : Nat) : (s.withSerial x).qRelDequeue p = (s.qRelDequeue p).withSerial x := by
  unfold State.qRelDequeue
  rw [apply_ite (State.withSerial x)]
  rfl

theorem accept_withSerial (p : Nat) (w : CmdWord) : (s.withSerial x).accept p w = (s.accept p w).withSerial x := by
  unfold State.accept
  rw [apply_ite (State.withSerial x)]
  rfl

theorem ntfAck_withSerial (p : Nat) : (s.withSerial x).ntfAck p = (s.ntfAck p).withSerial x := by
  unfold State.ntfAck
  rw [apply_ite (State.withSerial x)]
  rfl

theorem execTransmit_withSerial (n : NodeIdx) (f : Frame) :
    execTransmit n f (s.withSerial x) = mapNext (State.withSerial x) (execTransmit n f s) := by
  have hph : ((s.withSerial x).port (s.withSerial x).active).phase = (s.port s.active).phase := rfl
  unfold execTransmit
  rw [hph]
  split
  · exact queueExec_withSerial x s _ n
  · exact congrArg Host.Outcome.next (tScan_withSerial x s _ n)
  · exact congrArg Host.Outcome.next (qAcq_withSerial x s _)
  · rfl
  · exact congrArg Host.Outcome.next (qRelTransmit_withSerial x s _ f)
  · rfl
  · rfl

theorem execEnqueue_withSerial (n : NodeIdx) (f : Frame) :
    execEnqueue n f (s.withSerial x) = mapNext (State.withSerial x) (execEnqueue n f s) := by
  have hph : ((s.withSerial x).port (s.withSerial x).active).phase = (s.port s.active).phase := rfl
  unfold execEnqueue
  rw [hph]
  split
  · exact queueExec_withSerial x s _ n
  · exact congrArg Host.Outcome.next (qAcq_withSerial x s _)
  all_goals rfl

theorem execDequeue_withSerial (n : NodeIdx) :
    execDequeue n (s.withSerial x) = mapNext (State.withSerial x) (execDequeue n s) := by
  have hph : ((s.withSerial x).port (s.withSerial x).active).phase = (s.port s.active).phase := rfl
  unfold execDequeue
  rw [hph]
  split
  · exact queueExec_withSerial x s _ n
  · exact congrArg Host.Outcome.next (qAcq_withSerial x s _)
  · exact congrArg Host.Outcome.next (qBodyLoad_withSerial x s _)
  · exact congrArg Host.Outcome.next (qRelDequeue_withSerial x s _)
  all_goals rfl

/-- No instruction of the bus, of the queues or of the bus controllers reads the serial file. -/
theorem exec_withSerial {i : Instr} (hi : i.isSerial = false) (hr : i.isOperationRow = false) :
    exec i (s.withSerial x) = mapNext (State.withSerial x) (exec i s) := by
  cases i <;> simp only [Instr.isSerial, Instr.isOperationRow, reduceCtorEq] at hi hr <;> simp only [exec]
  case transmit n f => exact execTransmit_withSerial x s n f
  case enqueue n f => exact execEnqueue_withSerial x s n f
  case dequeue n => exact execDequeue_withSerial x s n
  case attach n =>
    refine execNodeStep_withSerial x s ?_ _ n
    rw [register_withSerial]
    rfl
  case realize n =>
    refine execNodeStep_withSerial x s ?_ _ n
    rw [realizeNode_withSerial]
    rfl
  case init | reserved0 | reservedD | reservedE | reservedF => exact execStep_withSerial x s rfl
  all_goals
    refine execNodeStep_withSerial x s ?_ _ _
    rfl

end

/-- A step that is no reset, no reception and no step of a serial command is the same with any other serial file. -/
theorem runEvent_withSerial {e : Event} {s : State} (hrst : e ≠ .rst) (hrx : ∀ b, e ≠ .rx b)
    (hrun : ∀ p, e = .run p → (s.port p).instr.isSerial = false) (x : Serial) :
    runEvent e (s.withSerial x) = mapNext (State.withSerial x) (runEvent e s) := by
  have hk := keepsPorts_withSerial x
  cases e with
  | accept p w => exact hk.onPort s p (f := fun s => .next (s.accept p w)) (congrArg _ (accept_withSerial x s p w))
  | run p => exact hk.runEvent_run (exec_withSerial x _ (hrun p rfl) (isOperationRow_subDecode _))
  | ack p => exact hk.onPort s p (f := fun s => .next (s.ntfAck p)) (congrArg _ (ntfAck_withSerial x s p))
  | rx b => exact absurd rfl (hrx b)
  | rst => exact absurd rfl hrst

/-! ### Neither reads nor writes -/

/-- Settles O49: a step commutes with every replacement of the side it does not read, and replacing that side by itself
shows that the step leaves it. -/
theorem serialFileAndArbiterAreIndependent : Obligations.SerialFileAndArbiterAreIndependent := by
  intro s t e rest hs h hrst
  let s' : State := { s with schedule := rest }
  have hrun : runEvent e s' = .next t := (step_of_schedule hs).symm.trans h
  refine ⟨fun he => ?_, fun hrx hser => ?_⟩
  · have key (ns : List Node) (r : List NodeIdx) :
        step (s.withArbiter ns r) = .next (t.withArbiter ns r) := by
      rw [step_of_schedule (s := s.withArbiter ns r) hs]
      exact (runEvent_withArbiter (s := s') he ns r).trans (congrArg _ hrun)
    have frame : t = t.withArbiter s.nodes s.registry :=
      Host.Outcome.next.inj (h.symm.trans (key s.nodes s.registry))
    exact ⟨(congrArg State.nodes frame :), (congrArg State.registry frame :), key⟩
  · have key (x : Serial) : step (s.withSerial x) = .next (t.withSerial x) := by
      rw [step_of_schedule (s := s.withSerial x) hs]
      exact (runEvent_withSerial (s := s') hrst hrx hser x).trans (congrArg _ hrun)
    have frame : t = t.withSerial s.serial := Host.Outcome.next.inj (h.symm.trans (key s.serial))
    exact ⟨(congrArg State.serial frame :), key⟩

end Sys2Proof.Machine
end

section
/-! PROOFS. The state of the block (`10_state.md`): steps do not tell apart states that differ only in the record of
outputs (R39, R223) or in latches that are not loaded (R38, R42). -/

namespace Sys2Proof.Machine

/-! ### The first phase of an accepted command (R120) -/

theorem firstPhase_cases (c : Config) (op : BitVec 4) (n : NodeIdx) :
    (firstPhase c op n = .exec ∧ (op = opTransmit ∨ op = opEnqueue ∨ op = opDequeue → c.nNodes ≤ n.toNat)) ∨
    (firstPhase c op n = .tScan ∧ op = opTransmit) ∨
    (firstPhase c op n = .qAcq ∧ (op = opEnqueue ∨ op = opDequeue) ∧ n.toNat < c.nNodes) := by
  unfold firstPhase
  split_ifs with bad transmit queue
  · simp only [badNode, Bool.and_eq_true, decide_eq_true_eq] at bad
    exact .inl ⟨rfl, fun _ => bad.2⟩
  · exact .inr (.inl ⟨rfl, transmit⟩)
  · have uses : usesNode op = true := by rcases queue with rfl | rfl <;> rfl
    exact .inr (.inr ⟨rfl, queue, by simpa [uses, badNode] using bad⟩)
  · exact .inl ⟨rfl, fun h => absurd h (by simp [transmit, not_or.1 queue])⟩

/-! ### Sequencers that agree on their live latches -/

/-- Two sequencers that differ only in latches that no step may read. -/
abbrev Port.Alike (a b : Port) : Prop := a.liveOnly = b.liveOnly

theorem Port.liveOnly_phase (q : Port) : q.liveOnly.phase = q.phase := by
  unfold Port.liveOnly
  split <;> simp [*]

/-- Outside IDLE only the target and the result latches can be dead. -/
theorem Port.liveOnly_of_ne_idle {q : Port} (hq : q.phase ≠ .idle) :
    q.liveOnly = { q with tgt := q.liveOnly.tgt, rHit := q.liveOnly.rHit, rFrame := q.liveOnly.rFrame } := by
  unfold Port.liveOnly
  split
  · next h => exact absurd h hq
  all_goals rfl

/-- The target is live while a queue is accessed or a notification is pending. -/
theorem Port.liveOnly_tgt {q : Port} (hq : q.phase.inQueue = true ∨ q.phase = .tNtf) :
    q.liveOnly.tgt = q.tgt := by
  unfold Port.liveOnly
  split
  case h_1 h | h_2 h | h_3 h => simp [h, Phase.inQueue] at hq
  all_goals rfl

/-- The result latches are live in the release of a DEQUEUE, `r_frame` after a hit. -/
theorem Port.liveOnly_result {q : Port} (hq : q.phase = .qRel) (hop : q.op = opDequeue) :
    q.liveOnly.rHit = q.rHit ∧ q.liveOnly.rFrame = if q.rHit then q.rFrame else 0 := by
  simp [Port.liveOnly, hq, hop]

namespace Port.Alike

variable {a b : Port} (h : a.Alike b)
include h

theorem phase : b.phase = a.phase := by
  rw [← a.liveOnly_phase, ← b.liveOnly_phase, h]

/-- Outside IDLE, sequencers that agree on their live latches differ at most in the target and the result latches. -/
theorem eq_with (ha : a.phase ≠ .idle) : b = { a with tgt := b.tgt, rHit := b.rHit, rFrame := b.rFrame } := by
  have hb : b.phase ≠ .idle := h.phase ▸ ha
  have e := (Port.liveOnly_of_ne_idle ha).symm.trans (Eq.trans h (Port.liveOnly_of_ne_idle hb))
  obtain ⟨⟩ := a
  obtain ⟨⟩ := b
  simp only [Port.mk.injEq] at e ⊢
  simp [e]

theorem op (ha : a.phase ≠ .idle) : b.op = a.op := (congrArg Port.op (h.eq_with ha) :)

theorem cur (ha : a.phase ≠ .idle) : b.cur = a.cur := (congrArg Port.cur (h.eq_with ha) :)

theorem instr (ha : a.phase ≠ .idle) : b.instr = a.instr := by rw [h.eq_with ha]; rfl

theorem tgt (ha : a.phase.inQueue = true ∨ a.phase = .tNtf) : b.tgt = a.tgt := by
  rw [← Port.liveOnly_tgt ha, ← Port.liveOnly_tgt (h.phase ▸ ha), h]

/-- The cursor's advance (R125, R128, R153). -/
theorem advance (ha : a.phase ≠ .idle) :
    ({ a with cur := a.cur + 1, phase := .tScan } : Port).Alike { b with cur := b.cur + 1, phase := .tScan } := by
  rw [h.eq_with ha]; rfl

/-- The scan loads the target (R125). -/
theorem target (ha : a.phase ≠ .idle) (n : NodeIdx) :
    ({ a with tgt := n, phase := .qAcq } : Port).Alike { b with tgt := n, phase := .qAcq } := by
  rw [h.eq_with ha]; rfl

/-- A move from a queue access to the next phase that keeps the target and no result. -/
theorem keepTarget (ha : a.phase.inQueue = true) {ph : Phase} (hph : ph = .qBody ∨ ph = .tNtf) :
    ({ a with phase := ph } : Port).Alike { b with phase := ph } := by
  have ha' : a.phase ≠ .idle := by rintro e; rw [e] at ha; cases ha
  rw [h.eq_with ha', h.tgt (.inl ha)]
  rcases hph with rfl | rfl <;> rfl

/-- The store body of an operation that returns no frame (R151). -/
theorem stored (ha : a.phase = .qBody) (hop : a.op ≠ opDequeue) :
    ({ a with phase := .qRel } : Port).Alike { b with phase := .qRel } := by
  rw [h.eq_with (by simp [ha]), h.tgt (.inl (by simp [ha, Phase.inQueue]))]
  have hop' : (a.op == opDequeue) = false := by simpa using hop
  simp [Port.Alike, Port.liveOnly, hop']

/-- The load body loads the result: the hit, and the frame if there is one (R152). -/
theorem loaded (ha : a.phase = .qBody) (f : Frame) :
    ({ a with rHit := true, rFrame := f, phase := .qRel } : Port).Alike
      { b with rHit := true, rFrame := f, phase := .qRel } := by
  rw [h.eq_with (by simp [ha]), h.tgt (.inl (by simp [ha, Phase.inQueue]))]

theorem missed (ha : a.phase = .qBody) :
    ({ a with rHit := false, phase := .qRel } : Port).Alike { b with rHit := false, phase := .qRel } := by
  rw [h.eq_with (by simp [ha]), h.tgt (.inl (by simp [ha, Phase.inQueue]))]
  rfl

/-- The release of a DEQUEUE reads alike results (R153). -/
theorem result (ha : a.phase = .qRel) (hop : a.op = opDequeue) :
    b.rHit = a.rHit ∧ (a.rHit = true → b.rFrame = a.rFrame) := by
  obtain ⟨a1, a2⟩ := Port.liveOnly_result ha hop
  obtain ⟨b1, b2⟩ := Port.liveOnly_result (h.phase.trans ha) ((h.op (by simp [ha])).trans hop)
  rw [← h] at b1 b2
  have hit : b.rHit = a.rHit := b1.symm.trans a1
  refine ⟨hit, fun e => ?_⟩
  simpa [hit, e] using b2.symm.trans a2

end Port.Alike

/-- In IDLE every latch is dead. -/
theorem Port.alike_idle (a b : Port) : ({ a with phase := .idle } : Port).Alike { b with phase := .idle } := rfl

/-- Accept loads every latch that the first phase can read (R120). -/
theorem Port.alike_latch (c : Config) (w : CmdWord) (a b : Port) : (a.latch c w).Alike (b.latch c w) := by
  unfold Port.latch
  obtain ⟨e, -⟩ | ⟨e, -⟩ | ⟨e, -⟩ := firstPhase_cases c (opField w) (nodeField w) <;> rw [e] <;> rfl

/-! ### Relations between states that no step tells apart -/

/-- `R` relates states that a step cannot tell apart: related states agree on what a step reads, and the same change of
both keeps them related. -/
structure Indistinct (R : State → State → Prop) : Prop where
  agree {s u} : R s u → ∃ ps os, u = { s with ports := ps, history := os }
  port {s u} : R s u → ∀ p, (s.port p).Alike (u.port p)
  emit {s u} : R s u → ∀ o, R (s.emit o) (u.emit o)
  updNode {s u} : R s u → ∀ n g, R (s.updNode n g) (u.updNode n g)
  updPort {s u} : R s u → ∀ p g, (g (s.port p)).Alike (g (u.port p)) → R (s.updPort p g) (u.updPort p g)
  setRegistry {s u} : R s u → ∀ r, R { s with registry := r } { u with registry := r }
  setSerial {s u} : R s u → ∀ x, R { s with serial := x } { u with serial := x }
  setActive {s u} : R s u → ∀ p, R { s with active := p } { u with active := p }
  setSchedule {s u} : R s u → ∀ es, R { s with schedule := es } { u with schedule := es }
  hardReset {s u} : R s u → R s.hardReset u.hardReset

/-- Answers with related next states, or the same stop. -/
def RelatedAnswers (R : State → State → Prop) : Answer → Answer → Prop
  | .next t, .next u => R t u
  | .fault a, .fault b => a = b
  | .refused a, .refused b => a = b
  | _, _ => False

/-- Two changes of one sequencer are one. -/
theorem State.setPhase_updPort (s : State) (p : Nat) (g : Port → Port) (ph : Phase) :
    (s.updPort p g).setPhase p ph = s.updPort p fun q => { g q with phase := ph } := by
  simp [State.setPhase, State.updPort, List.modify_modify_eq, Function.comp_def]

namespace Indistinct

variable {R : State → State → Prop} (hR : Indistinct R) {s u : State} (h : R s u)
include hR h

theorem cfg : u.cfg = s.cfg := by obtain ⟨_, _, rfl⟩ := hR.agree h; rfl

theorem registry : u.registry = s.registry := by obtain ⟨_, _, rfl⟩ := hR.agree h; rfl

theorem active : u.active = s.active := by obtain ⟨_, _, rfl⟩ := hR.agree h; rfl

theorem schedule : u.schedule = s.schedule := by obtain ⟨_, _, rfl⟩ := hR.agree h; rfl

theorem node (n : NodeIdx) : u.node n = s.node n := by obtain ⟨_, _, rfl⟩ := hR.agree h; rfl

theorem slot (n : NodeIdx) (i : Nat) : u.slot n i = s.slot n i := by obtain ⟨_, _, rfl⟩ := hR.agree h; rfl

theorem diag (p : Nat) (c : DiagCode) (info : Word32) : R (s.diag p c info) (u.diag p c info) := hR.emit h _

theorem respond (p : Nat) (op : BitVec 4) (hit : Bool) (f : Frame) :
    R (s.respond p op hit f) (u.respond p op hit f) :=
  hR.updPort (hR.emit h _) p _ (Port.alike_idle _ _)

theorem complete (p : Nat) (op : BitVec 4) : R (s.complete p op) (u.complete p op) := hR.respond h p op false 0

theorem respondValue (p : Nat) (op : BitVec 4) (v : Word32) : R (s.respondValue p op v) (u.respondValue p op v) :=
  hR.respond h p op false _

theorem register (p : Nat) (n : NodeIdx) : R (s.register p n) (u.register p n) := by
  obtain ⟨ps, os, rfl⟩ := hR.agree h
  unfold State.register
  split_ifs
  · exact hR.diag h p _ _
  · exact hR.setRegistry h _
  · exact hR.diag h p _ _

theorem realizeNode (p : Nat) (n : NodeIdx) : R (s.realizeNode p n) (u.realizeNode p n) := by
  unfold State.realizeNode
  rw [hR.node h]
  dsimp only
  split_ifs
  · exact h
  · exact hR.register (hR.updNode h n _) p n
  · exact hR.updNode h n _

theorem rejectNode (op : BitVec 4) (n : NodeIdx) : R (s.rejectNode op n) (u.rejectNode op n) := by
  unfold State.rejectNode
  rw [hR.active h]
  exact hR.complete (hR.diag h _ _ _) _ op

/-- The EXEC steps of related states are related when their effects are. -/
theorem execStep {f : State → State} (hf : R (f s) (f u)) : RelatedAnswers R (s.execStep f) (u.execStep f) := by
  unfold State.execStep
  rw [hR.active h, (hR.port h _).phase]
  split_ifs
  · exact hf
  · exact h

theorem execNodeStep (op : BitVec 4) (n : NodeIdx) {f : State → State} (hf : R (f s) (f u)) :
    RelatedAnswers R (s.execNodeStep op n f) (u.execNodeStep op n f) := by
  refine hR.execStep h ?_
  rw [hR.cfg h]
  split_ifs
  · exact hR.rejectNode h op n
  · exact hf

theorem queueExec (op : BitVec 4) (n : NodeIdx) : RelatedAnswers R (s.queueExec op n) (u.queueExec op n) := by
  unfold State.queueExec
  rw [hR.cfg h]
  split_ifs
  · exact hR.rejectNode h op n
  · exact h

/-! The steps of a queue access and of a broadcast, each in its own phase. -/

variable {p : Nat}

theorem advance (hp : (s.port p).phase ≠ .idle) : R (s.advance p) (u.advance p) :=
  hR.updPort h p _ ((hR.port h p).advance hp)

theorem tScan (hp : (s.port p).phase = .tScan) (snd : NodeIdx) : R (s.tScan p snd) (u.tScan p snd) := by
  have busy : (s.port p).phase ≠ .idle := by simp [hp]
  unfold State.tScan
  rw [hR.registry h, (hR.port h p).cur busy]
  split
  · exact hR.complete h p _
  · split_ifs
    · exact hR.advance h busy
    · exact hR.updPort h p _ ((hR.port h p).target busy _)

theorem qAcq (hp : (s.port p).phase = .qAcq) : R (s.qAcq p) (u.qAcq p) := by
  have inQ : (s.port p).phase.inQueue = true := by rw [hp]; rfl
  unfold State.qAcq
  dsimp only
  rw [(hR.port h p).tgt (.inl inQ), hR.node h]
  split_ifs
  · exact hR.updPort (hR.updNode h _ _) p _ ((hR.port h p).keepTarget inQ (.inl rfl))
  · exact h

theorem qBodyStore (hp : (s.port p).phase = .qBody) (hop : (s.port p).op ≠ opDequeue) (f : Frame) :
    R (s.qBodyStore p f) (u.qBodyStore p f) := by
  unfold State.qBodyStore
  rw [(hR.port h p).tgt (.inl (by rw [hp]; rfl)), hR.cfg h]
  exact hR.updPort (hR.updNode h _ _) p _ ((hR.port h p).stored hp hop)

theorem qBodyLoad (hp : (s.port p).phase = .qBody) : R (s.qBodyLoad p) (u.qBodyLoad p) := by
  unfold State.qBodyLoad
  dsimp only
  rw [(hR.port h p).tgt (.inl (by rw [hp]; rfl)), hR.node h, hR.slot h, hR.cfg h]
  split_ifs
  · rw [State.setPhase_updPort, State.setPhase_updPort]
    exact hR.updPort h p _ ((hR.port h p).missed hp)
  · rw [State.setPhase_updPort, State.setPhase_updPort]
    exact hR.updPort (hR.updNode h _ _) p _ ((hR.port h p).loaded hp _)

theorem unlock (hp : (s.port p).phase = .qRel) : R (s.unlock p) (u.unlock p) := by
  unfold State.unlock
  rw [(hR.port h p).tgt (.inl (by rw [hp]; rfl))]
  exact hR.updNode h _ _

theorem notify (hp : (s.port p).phase = .qRel) (f : Frame) : R (s.notify p f) (u.notify p f) := by
  have inQ : (s.port p).phase.inQueue = true := by rw [hp]; rfl
  unfold State.notify
  rw [(hR.port h p).tgt (.inl inQ)]
  exact hR.updPort (hR.emit h _) p _ ((hR.port h p).keepTarget inQ (.inr rfl))

theorem qRelTransmit (hp : (s.port p).phase = .qRel) (f : Frame) : R (s.qRelTransmit p f) (u.qRelTransmit p f) := by
  unfold State.qRelTransmit
  rw [(hR.port h p).tgt (.inl (by rw [hp]; rfl)), hR.node h]
  split_ifs
  · exact hR.notify (hR.unlock h hp) hp f
  · exact hR.advance (hR.unlock h hp) (by simp [hp])

theorem qRelDequeue (hp : (s.port p).phase = .qRel) (hop : (s.port p).op = opDequeue) :
    R (s.qRelDequeue p) (u.qRelDequeue p) := by
  obtain ⟨hit, frame⟩ := (hR.port h p).result hp hop
  unfold State.qRelDequeue
  rw [hit]
  split_ifs with hhit
  · rw [frame hhit]
    exact hR.respond (hR.unlock h hp) p _ _ _
  · exact hR.complete (hR.unlock h hp) p _

/-! The instructions. -/

theorem execTransmit (n : NodeIdx) (f : Frame) (hop : (s.port s.active).op = opTransmit) :
    RelatedAnswers R (execTransmit n f s) (execTransmit n f u) := by
  unfold Machine.execTransmit
  rw [hR.active h, (hR.port h _).phase]
  split
  · exact hR.queueExec h _ n
  · next hp => exact hR.tScan h hp n
  · next hp => exact hR.qAcq h hp
  · next hp => exact hR.qBodyStore h hp (by rw [hop]; decide) f
  · next hp => exact hR.qRelTransmit h hp f
  all_goals exact h

theorem execEnqueue (n : NodeIdx) (f : Frame) (hop : (s.port s.active).op = opEnqueue) :
    RelatedAnswers R (execEnqueue n f s) (execEnqueue n f u) := by
  unfold Machine.execEnqueue
  rw [hR.active h, (hR.port h _).phase]
  split
  · exact hR.queueExec h _ n
  · next hp => exact hR.qAcq h hp
  · next hp => exact hR.qBodyStore h hp (by rw [hop]; decide) f
  · next hp => exact hR.complete (hR.unlock h hp) _ _
  all_goals exact h

theorem execDequeue (n : NodeIdx) (hop : (s.port s.active).op = opDequeue) :
    RelatedAnswers R (execDequeue n s) (execDequeue n u) := by
  unfold Machine.execDequeue
  rw [hR.active h, (hR.port h _).phase]
  split
  · exact hR.queueExec h _ n
  · next hp => exact hR.qAcq h hp
  · next hp => exact hR.qBodyLoad h hp
  · next hp => exact hR.qRelDequeue h hp hop
  all_goals exact h

/-- The instruction latched on the active port takes related states to related answers. -/
theorem exec {i : Instr} (hi : (s.port s.active).instr = i) : RelatedAnswers R (exec i s) (exec i u) := by
  have hr : i.isOperationRow = false := hi ▸ isOperationRow_subDecode _
  obtain ⟨ps, os, rfl⟩ := hR.agree h
  cases i <;> simp only [Instr.isOperationRow, reduceCtorEq] at hr <;> simp only [Machine.exec]
  case transmit n f => exact hR.execTransmit h n f ((Port.instr_queue.1 n f).1 hi).1
  case enqueue n f => exact hR.execEnqueue h n f ((Port.instr_queue.2.1 n f).1 hi).1
  case dequeue n => exact hR.execDequeue h n ((Port.instr_queue.2.2 n).1 hi).1
  case init => exact hR.execStep h (hR.complete (hR.setRegistry h []) _ _)
  case attach n => exact hR.execNodeStep h _ n (hR.complete (hR.register h _ n) _ _)
  case realize n => exact hR.execNodeStep h _ n (hR.complete (hR.realizeNode h _ n) _ _)
  case link n | setnotify n | bcwrMcr n v | bcwrCtrl n v | bcwrTfr n v | bcwrRfr n v =>
    exact hR.execNodeStep h _ n (hR.complete (hR.updNode h n _) _ _)
  case reserved0 | reservedD | reservedE | reservedF | serwrUnknown off v =>
    exact hR.execStep h (hR.complete (hR.diag h _ _ _) _ _)
  case bcwrUnknown n off v => exact hR.execNodeStep h _ n (hR.complete (hR.diag h _ _ _) _ _)
  case serrdUnknown off => exact hR.execStep h (hR.respondValue (hR.diag h _ _ _) _ _ _)
  case bcrdUnknown n off => exact hR.execNodeStep h _ n (hR.respondValue (hR.diag h _ _ _) _ _ _)
  case bcrdMcr n | bcrdCtrl n | bcrdTfr n | bcrdRfr n => exact hR.execNodeStep h _ n (hR.respondValue h _ _ _)
  case serrdBaud | serrdStat | serrdCtrl => exact hR.execStep h (hR.respondValue h _ _ _)
  case serrdData => exact hR.execStep h (hR.respondValue (hR.setSerial h _) _ _ _)
  case serwrStat v => exact hR.execStep h (hR.complete h _ _)
  case serwrBaud v | serwrCtrl v => exact hR.execStep h (hR.complete (hR.setSerial h _) _ _)
  case serwrData v =>
    refine hR.execStep h ?_
    split_ifs
    · exact hR.complete (hR.emit (hR.setSerial h _) _) _ _
    · exact hR.complete (hR.diag h _ _ _) _ _

/-! The agents and the machine. -/

theorem onPort (p : Nat) {f : State → Answer} (hf : RelatedAnswers R (f s) (f u)) :
    RelatedAnswers R (s.onPort p f) (u.onPort p f) := by
  unfold State.onPort
  rw [hR.cfg h]
  split_ifs
  · exact hf
  · rfl

theorem runPort (p : Nat) : RelatedAnswers R (s.runPort p) (u.runPort p) := by
  unfold State.runPort
  rw [(hR.port h p).phase]
  split_ifs with hp
  · exact h
  · rw [(hR.port h p).instr hp]
    exact hR.exec (hR.setActive h p) rfl

theorem accept (p : Nat) (w : CmdWord) : R (s.accept p w) (u.accept p w) := by
  unfold State.accept
  rw [(hR.port h p).phase]
  split_ifs
  · unfold State.latch
    rw [hR.cfg h]
    exact hR.updPort h p _ (Port.alike_latch _ w _ _)
  · exact h

theorem ntfAck (p : Nat) : R (s.ntfAck p) (u.ntfAck p) := by
  unfold State.ntfAck
  rw [(hR.port h p).phase]
  split_ifs with hp
  · exact hR.advance h (by simp [hp])
  · exact h

theorem rx (b : Byte) : R (s.rx b) (u.rx b) := by
  obtain ⟨ps, os, rfl⟩ := hR.agree h
  unfold State.rx
  split_ifs
  · exact hR.setSerial h _
  · exact hR.emit h _

theorem runEvent : ∀ e, RelatedAnswers R (runEvent e s) (runEvent e u)
  | .accept p w => hR.onPort h p (f := fun s => .next (s.accept p w)) (hR.accept h p w)
  | .run p => hR.onPort h p (f := fun s => s.runPort p) (hR.runPort h p)
  | .ack p => hR.onPort h p (f := fun s => .next (s.ntfAck p)) (hR.ntfAck h p)
  | .rx b => hR.rx h b
  | .rst => hR.hardReset h

/-- A step takes related states to related answers. -/
theorem step : RelatedAnswers R (step s) (step u) := by
  unfold Machine.step
  rw [hR.schedule h]
  split
  · exact h
  · exact hR.runEvent (hR.setSchedule h _) _

end Indistinct

/-! ### Dead latches -/

/-- Changing two lists at one place alike keeps a projection of them equal. -/
theorem map_modify_congr {α β : Type} {f : α → β} {l m : List α} (h : l.map f = m.map f) (i : Nat) (g : α → α)
    (d : α) (hg : f (g (l.getD i d)) = f (g (m.getD i d))) : (l.modify i g).map f = (m.modify i g).map f := by
  apply List.ext_getElem?
  intro j
  have hj : (l[j]?).map f = (m[j]?).map f := by simpa using congrArg (·[j]?) h
  by_cases hij : i = j
  · subst hij
    cases hl : l[i]? <;> cases hm : m[i]? <;> simp_all
  · simpa [List.getElem?_modify, hij] using hj

/-- States that agree on their live latches have alike sequencers. -/
theorem State.alike_port {s u : State} (h : s.liveOnly = u.liveOnly) (p : Nat) : (s.port p).Alike (u.port p) := by
  have hp : (s.ports.map Port.liveOnly).getD p (Port.reset p).liveOnly =
      (u.ports.map Port.liveOnly).getD p (Port.reset p).liveOnly :=
    congrArg (fun x : State => x.ports.getD p (Port.reset p).liveOnly) h
  rwa [List.getD_map, List.getD_map] at hp

/-- Agreement on the live latches is a relation that no step tells apart: a change that does not touch the sequencers
commutes with clearing their dead latches. -/
theorem indistinct_liveOnly : Indistinct fun s u => s.liveOnly = u.liveOnly where
  agree {s u} h := ⟨u.ports, s.history, (congrArg (fun x : State => { x with ports := u.ports }) h).symm⟩
  port h p := State.alike_port h p
  emit h o := congrArg (State.emit · o) h
  updNode h n g := congrArg (State.updNode · n g) h
  updPort {s u} h p g hg := by
    have hp : (s.updPort p g).ports.map Port.liveOnly = (u.updPort p g).ports.map Port.liveOnly :=
      map_modify_congr (congrArg State.ports h) p g _ hg
    exact (congrArg (fun x : State => { x with ports := (s.updPort p g).ports.map Port.liveOnly }) h).trans
      (congrArg (fun x => { u with ports := x }) hp)
  setRegistry h r := congrArg (fun x : State => { x with registry := r }) h
  setSerial h x := congrArg (fun y : State => { y with serial := x }) h
  setActive h p := congrArg (fun x : State => { x with active := p }) h
  setSchedule h es := congrArg (fun x : State => { x with schedule := es }) h
  hardReset h := (congrArg (fun x : State => x.hardReset.liveOnly) h :)

/-- Settles O14: agreement on the live latches is a relation that no step tells apart. -/
theorem deadLatchesAreUnobservable : Obligations.DeadLatchesAreUnobservable := by
  intro s u h
  have key := indistinct_liveOnly.step h
  cases hs : step s <;> cases hu : step u <;> rw [hs, hu] at key <;> exact key

/-! ### The record of outputs -/

/-- `u` is `s` with the record of outputs up to now, `before`, replaced by `before'`. -/
def SameAfter (before before' : List Output) (s u : State) : Prop :=
  ∃ out, s.history = before ++ out ∧ u = { s with history := before' ++ out }

theorem indistinct_sameAfter (before before' : List Output) : Indistinct (SameAfter before before') where
  agree := fun ⟨_, _, hu⟩ => ⟨_, _, hu⟩
  port := by rintro s _ ⟨out, _, rfl⟩ p; rfl
  emit := by
    rintro s _ ⟨out, hs, rfl⟩ o
    exact ⟨out ++ [o], by simp [hs], by simp [State.emit]⟩
  updNode := by rintro s _ ⟨out, hs, rfl⟩ n g; exact ⟨out, hs, rfl⟩
  updPort := by rintro s _ ⟨out, hs, rfl⟩ p g -; exact ⟨out, hs, rfl⟩
  setRegistry := by rintro s _ ⟨out, hs, rfl⟩ r; exact ⟨out, hs, rfl⟩
  setSerial := by rintro s _ ⟨out, hs, rfl⟩ x; exact ⟨out, hs, rfl⟩
  setActive := by rintro s _ ⟨out, hs, rfl⟩ p; exact ⟨out, hs, rfl⟩
  setSchedule := by rintro s _ ⟨out, hs, rfl⟩ es; exact ⟨out, hs, rfl⟩
  hardReset := by rintro s _ ⟨out, hs, rfl⟩; exact ⟨out, hs, rfl⟩

/-- Settles O13: states that differ only in an earlier part of the record are related, and stay so. -/
theorem noStepReadsHistory : Obligations.NoStepReadsHistory := by
  intro s h t hst
  have hR : SameAfter s.history h s { s with history := h } := ⟨[], by simp, by simp⟩
  have key := (indistinct_sameAfter s.history h).step hR
  rw [hst] at key
  cases hu : step { s with history := h } with
  | next u =>
    rw [hu] at key
    obtain ⟨out, ht, rfl⟩ := key
    exact ⟨out, ht, rfl⟩
  | fault | refused => rw [hu] at key; exact key.elim

end Sys2Proof.Machine
end

section
/-! PROOFS. The state of the block (`10_state.md`): what each element of the state is changed by, and what every other
step leaves alone. -/

namespace Sys2Proof.Machine

/-! ### The step -/

/-- A step with an event scheduled is one of the cases of `Stepped`. -/
theorem stepped_of_schedule {s t : State} {e : Event} {rest : List Event} (hs : s.schedule = e :: rest)
    (h : step s = .next t) : Stepped { s with schedule := rest } e t :=
  runEvent_stepped ((step_of_schedule hs).symm.trans h)

/-- An accepted command starts in a phase that is not IDLE (R120). -/
theorem firstPhase_ne_idle (c : Config) (op : BitVec 4) (n : NodeIdx) : firstPhase c op n ≠ .idle := by
  obtain ⟨e, -⟩ | ⟨e, -⟩ | ⟨e, -⟩ := firstPhase_cases c op n <;> rw [e] <;> exact nofun

/-- Settles O6: Accept's latches are the fields that `decode` reads, so the sequencer's next step runs what the word
decodes to. -/
theorem stepRunsLatchedInstruction : Obligations.StepRunsLatchedInstruction := by
  intro s p rest hp
  refine ⟨fun busy => runEvent_run_of_busy (s := { s with schedule := rest }) hp busy, fun hpl idle w => ?_⟩
  let s' : State := { s with schedule := rest }
  have accepted : runEvent (.accept p w) s' = .next (s'.latch p w) := by
    have idle' : (s'.port p).phase = .idle := idle
    rw [runEvent, State.onPort_of_lt (s := s') hp, State.accept, if_pos idle']
  have latched : (s'.latch p w).port p = (s'.port p).latch s.cfg w := State.port_updPort_self _ _ _ hpl
  have busy : ((s'.latch p w).port p).phase ≠ .idle := by rw [latched]; exact firstPhase_ne_idle _ _ _
  have instr : ((s'.latch p w).port p).instr = decode w := by rw [latched]; rfl
  refine ⟨s'.latch p w, accepted, rfl, busy, instr, ?_⟩
  rw [← instr]
  exact runEvent_run_of_busy (s := s'.latch p w) hp busy

/-! ### The parameters (R40) -/

theorem Stepped.cfg {s t : State} {e : Event} (h : Stepped s e t) : t.cfg = s.cfg := by
  cases h
  case run taken => exact taken.cfg
  all_goals rfl

/-- Settles O10: with nothing scheduled nothing changes, and no event changes the parameters. -/
theorem noStepChangesParameters : Obligations.NoStepChangesParameters := by
  intro s t h
  obtain ⟨-, rfl⟩ | ⟨e, rest, -, h⟩ := step_stepped h
  · rfl
  · exact h.cfg

/-! ### The sequencers (R38) -/

/-- Only the events of a port, and reset, change its sequencer. -/
theorem Stepped.port_eq {s t : State} {e : Event} {p : Nat} (h : Stepped s e t) (hrst : e ≠ .rst)
    (hrun : e ≠ .run p) (hack : e ≠ .ack p) (hacc : ∀ w, e ≠ .accept p w) : t.port p = s.port p := by
  cases h with
  | accept q w => exact State.port_updPort_ne _ _ fun hq => hacc w (by rw [hq])
  | run q i _ _ _ _ taken => exact taken.port_ne (s := { s with active := q }) fun hq => hrun (by rw [hq])
  | ack q => exact State.port_updPort_ne _ _ fun hq => hack (by rw [hq])
  | rst => exact absurd rfl hrst
  | acceptBusy | runIdle | ackNone | rxLatched | rxDropped => rfl

/-- Settles O11. -/
theorem sequencersArePrivate : Obligations.SequencersArePrivate :=
  fun _ _ _ _ _ hs h hrst hrun hack hacc => (stepped_of_schedule hs h).port_eq hrst hrun hack hacc

/-! ### The registry (R22) -/

/-- `r'` is the registry `r` after instruction `i`: as it was, emptied by INIT, or with the node of an ATTACH or a
REALIZE at the end. -/
def RegistryAfter (i : Instr) (r r' : List NodeIdx) : Prop :=
  r' = r ∨ (i = .init ∧ r' = []) ∨ ∃ n, (i = .attach n ∨ i = .realize n) ∧ r' = r ++ [n]

theorem Effect.registry {s t : State} {i : Instr} (h : Effect s i t) : RegistryAfter i s.registry t.registry := by
  cases h
  case init => exact .inr (.inl ⟨rfl, rfl⟩)
  case attach n _ _ _ => exact .inr (.inr ⟨n, .inl rfl, rfl⟩)
  case realizeRegister n _ _ _ => exact .inr (.inr ⟨n, .inr rfl, rfl⟩)
  all_goals exact .inl rfl

theorem Taken.registry {s t : State} {i : Instr} (h : Taken s i t) : RegistryAfter i s.registry t.registry := by
  cases h
  case answer eff => exact eff.registry
  all_goals exact .inl rfl

/-- Settles O53: of the events only a sequencer's step can change the registry, and it does as its instruction says. -/
theorem onlyRegistrationChangesRegistry : Obligations.OnlyRegistrationChangesRegistry := by
  intro s t e rest hs h hrst
  cases stepped_of_schedule hs h
  case run p i _ _ hi taken => exact taken.registry.imp_right fun hr => ⟨p, rfl, hi ▸ hr⟩
  case rst => exact absurd rfl hrst
  all_goals exact .inl rfl

/-! ### The flags and registers of the nodes (R28 to R31) -/

/-- A node's flags and bus-controller registers: its queue and its lock are cleared. -/
def Node.registers (m : Node) : Node := { m with slots := [], head := 0, tail := 0, lock := .free }

/-- An instruction's write to a flag or a register of node `n`, which holds `m` before it. -/
inductive RegisterWrite (n : NodeIdx) (m : Node) : Instr → Node → Prop where
  | link : RegisterWrite n m (.link n) { m with busRef := true }
  | setnotify : RegisterWrite n m (.setnotify n) { m with notifyEn := true }
  | realize : RegisterWrite n m (.realize n) { m with realized := true }
  | bcwrMcr (v : Word32) : RegisterWrite n m (.bcwrMcr n v) { m with mcr := v }
  | bcwrCtrl (v : Word32) : RegisterWrite n m (.bcwrCtrl n v) { m with ctrlBc := v }
  | bcwrTfr (v : Word32) : RegisterWrite n m (.bcwrTfr n v) { m with tfr := v }
  | bcwrRfr (v : Word32) : RegisterWrite n m (.bcwrRfr n v) { m with rfr := v }

/-- A change of one node that is a register write of it is one, or nothing, at every node. -/
theorem RegisterWrite.of_updNode {s : State} {i : Instr} {n : NodeIdx} {g : Node → Node}
    (hg : ∀ m, RegisterWrite n m i (g m)) (k : NodeIdx) :
    (s.updNode n g).node k = s.node k ∨ RegisterWrite k (s.node k) i ((s.updNode n g).node k) := by
  by_cases hk : k = n
  · subst hk
    by_cases hl : k.toNat < s.nodes.length
    · rw [s.node_updNode_self k g hl]; exact .inr (hg _)
    · refine .inl (State.node_congr ?_ k)
      rw [State.updNode_nodes, List.modify_eq_self]
      omega
  · exact .inl (s.node_updNode_ne g hk)

theorem Effect.node {s t : State} {i : Instr} (h : Effect s i t) (k : NodeIdx) :
    t.node k = s.node k ∨ RegisterWrite k (s.node k) i (t.node k) := by
  cases h
  case link n => exact RegisterWrite.of_updNode (fun _ => .link) k
  case setnotify n => exact RegisterWrite.of_updNode (fun _ => .setnotify) k
  case realize n | realizeReport n _ _ | realizeRegister n _ _ _ =>
    exact RegisterWrite.of_updNode (n := n) (fun _ => .realize) k
  case bcwrMcr n v => exact RegisterWrite.of_updNode (fun _ => .bcwrMcr v) k
  case bcwrCtrl n v => exact RegisterWrite.of_updNode (fun _ => .bcwrCtrl v) k
  case bcwrTfr n v => exact RegisterWrite.of_updNode (fun _ => .bcwrTfr v) k
  case bcwrRfr n v => exact RegisterWrite.of_updNode (fun _ => .bcwrRfr v) k
  all_goals exact .inl rfl

/-- The steps of a queue access and of a broadcast leave every flag and register. -/
theorem Taken.node_registers {s t : State} {i : Instr} (h : Taken s i t) (k : NodeIdx) :
    (t.node k).registers = (s.node k).registers ∨ RegisterWrite k (s.node k) i (t.node k) := by
  have frame (n : NodeIdx) (g : Node → Node) (hg : ∀ m, (g m).registers = m.registers) :
      ((s.updNode n g).node k).registers = (s.node k).registers := s.node_updNode_proj k n g _ hg
  cases h
  case answer eff => exact (eff.node k).imp_left (congrArg Node.registers)
  case wait | loadEmpty | scanEnd | scanSkip | scanTarget => exact .inl rfl
  all_goals exact .inl (frame _ _ fun _ => rfl)

/-- What a step other than reset leaves in a flag or register `π` of a node: what was there, or what a register write of
the instruction that runs puts there. -/
theorem Stepped.register {α : Type} (π : Node → α) (hπ : ∀ m, π m.registers = π m) {n : NodeIdx}
    (P : Instr → α → Prop) (hP : ∀ {m i m'}, RegisterWrite n m i m' → π m' = π m ∨ P i (π m')) {s t : State}
    {e : Event} (h : Stepped s e t) (hrst : e ≠ .rst) :
    π (t.node n) = π (s.node n) ∨ ∃ p, e = .run p ∧ P (s.port p).instr (π (t.node n)) := by
  cases h
  case run p i _ _ hi taken =>
    obtain same | write := taken.node_registers n
    · exact .inl (by rw [← hπ, same, hπ]; rfl)
    · exact (hP write).imp_right fun hp => ⟨p, rfl, hi ▸ hp⟩
  case rst => exact absurd rfl hrst
  all_goals exact .inl rfl

theorem RegisterWrite.notifyEn {n : NodeIdx} {m m' : Node} {i : Instr} (h : RegisterWrite n m i m') :
    m'.notifyEn = m.notifyEn ∨ i = .setnotify n ∧ m'.notifyEn = true := by cases h <;> simp

theorem RegisterWrite.busRef {n : NodeIdx} {m m' : Node} {i : Instr} (h : RegisterWrite n m i m') :
    m'.busRef = m.busRef ∨ i = .link n ∧ m'.busRef = true := by cases h <;> simp

theorem RegisterWrite.realized {n : NodeIdx} {m m' : Node} {i : Instr} (h : RegisterWrite n m i m') :
    m'.realized = m.realized ∨ i = .realize n ∧ m'.realized = true := by cases h <;> simp

theorem RegisterWrite.mcr {n : NodeIdx} {m m' : Node} {i : Instr} (h : RegisterWrite n m i m') :
    m'.mcr = m.mcr ∨ i = .bcwrMcr n m'.mcr := by cases h <;> simp

theorem RegisterWrite.ctrlBc {n : NodeIdx} {m m' : Node} {i : Instr} (h : RegisterWrite n m i m') :
    m'.ctrlBc = m.ctrlBc ∨ i = .bcwrCtrl n m'.ctrlBc := by cases h <;> simp

theorem RegisterWrite.tfr {n : NodeIdx} {m m' : Node} {i : Instr} (h : RegisterWrite n m i m') :
    m'.tfr = m.tfr ∨ i = .bcwrTfr n m'.tfr := by cases h <;> simp

theorem RegisterWrite.rfr {n : NodeIdx} {m m' : Node} {i : Instr} (h : RegisterWrite n m i m') :
    m'.rfr = m.rfr ∨ i = .bcwrRfr n m'.rfr := by cases h <;> simp

/-- A flag that stays or is set by instruction `i` is never cleared, and set by `i` only. -/
theorem flag_set_only {b b' : Bool} {s : State} {e : Event} {i : Instr}
    (h : b' = b ∨ ∃ p, e = .run p ∧ (s.port p).instr = i ∧ b' = true) :
    (b = true → b' = true) ∧ (b = false → b' = true → ∃ p, e = .run p ∧ (s.port p).instr = i) := by
  obtain rfl | ⟨p, hp, hi, rfl⟩ := h
  · exact ⟨id, fun clear set => absurd (clear.symm.trans set) Bool.false_ne_true⟩
  · exact ⟨fun _ => rfl, fun _ _ => ⟨p, hp, hi⟩⟩

/-- Settles O54: each flag stays or is set by the one instruction that writes it. -/
theorem nodeFlagsAreClearedOnlyByReset : Obligations.NodeFlagsAreClearedOnlyByReset := by
  intro s t e rest n hs h hrst
  have hst := stepped_of_schedule hs h
  obtain ⟨n1, n2⟩ := flag_set_only <| hst.register Node.notifyEn (fun _ => rfl)
    (fun i v => i = .setnotify n ∧ v = true) RegisterWrite.notifyEn hrst
  obtain ⟨b1, b2⟩ := flag_set_only <| hst.register Node.busRef (fun _ => rfl)
    (fun i v => i = .link n ∧ v = true) RegisterWrite.busRef hrst
  obtain ⟨r1, r2⟩ := flag_set_only <| hst.register Node.realized (fun _ => rfl)
    (fun i v => i = .realize n ∧ v = true) RegisterWrite.realized hrst
  exact ⟨n1, b1, r1, n2, b2, r2⟩

/-- Settles O55: a register that does not stay is written by the one BCWR that names it. -/
theorem onlyBcwrChangesControllerRegisters : Obligations.OnlyBcwrChangesControllerRegisters := by
  intro s t e rest n hs h hrst
  have hst := stepped_of_schedule hs h
  exact
    ⟨(hst.register Node.mcr (fun _ => rfl) (fun i v => i = .bcwrMcr n v) RegisterWrite.mcr hrst).resolve_left,
      (hst.register Node.ctrlBc (fun _ => rfl) (fun i v => i = .bcwrCtrl n v) RegisterWrite.ctrlBc hrst).resolve_left,
      (hst.register Node.tfr (fun _ => rfl) (fun i v => i = .bcwrTfr n v) RegisterWrite.tfr hrst).resolve_left,
      (hst.register Node.rfr (fun _ => rfl) (fun i v => i = .bcwrRfr n v) RegisterWrite.rfr hrst).resolve_left⟩

end Sys2Proof.Machine
end

section
/-! PROOFS. Queue storage (`10_state.md` R24): what a store leaves to be read, and that canonical storage is determined
by what is read from it. -/

namespace Sys2Proof.Machine

/-- A stored slot reads as stored, every other slot as before. -/
theorem Memory.read?_write (m : Memory) (i j : Nat) (f : Frame) :
    Memory.read? (Memory.write m i f) j = if j = i then some f else Memory.read? m j := by
  induction m with
  | nil => simp [Memory.write, Memory.read?, eq_comm]
  | cons a m ih =>
    obtain ⟨k, g⟩ := a
    rcases lt_trichotomy i k with lt | rfl | gt
    · simp [Memory.write, Memory.read?, lt, eq_comm]
    · by_cases hj : j = i
      · simp [Memory.write, Memory.read?, hj]
      · simp [Memory.write, Memory.read?, hj, Ne.symm hj]
    · have hw : Memory.write ((k, g) :: m) i f = (k, g) :: Memory.write m i f := by
        simp [Memory.write, gt.not_gt, gt.ne']
      rw [hw, Memory.read?, ih, Memory.read?]
      by_cases hk : k = j
      · subst hk; simp [gt.ne]
      · simp [hk]

/-- The entries of canonical storage are what is read from it. -/
theorem Memory.mem_iff_read? {m : Memory} (h : Memory.wf m) (i : Nat) (f : Frame) :
    (i, f) ∈ m ↔ Memory.read? m i = some f := by
  induction m with
  | nil => simp [Memory.read?]
  | cons a m ih =>
    obtain ⟨k, g⟩ := a
    obtain ⟨hk, hm⟩ := List.pairwise_cons.1 h
    have absent : (k, f) ∉ m := fun hmem => lt_irrefl k (hk k (List.mem_map_of_mem hmem))
    simp only [Memory.read?, List.mem_cons, Prod.mk.injEq]
    split_ifs with hki
    · subst hki
      simp [absent, eq_comm]
    · simp [ih hm, Ne.symm hki]

/-- Canonical storage is determined by what is read from it. -/
theorem Memory.ext_read? {m m' : Memory} (h : Memory.wf m) (h' : Memory.wf m')
    (hr : ∀ j, Memory.read? m j = Memory.read? m' j) : m = m' := by
  have pm := List.pairwise_map.1 h
  have pm' := List.pairwise_map.1 h'
  have perm : m.Perm m' := (List.perm_ext_iff_of_nodup (pm.imp fun e => by rintro rfl; exact lt_irrefl _ e)
    (pm'.imp fun e => by rintro rfl; exact lt_irrefl _ e)).2 fun ⟨j, f⟩ => by
      rw [Memory.mem_iff_read? h, Memory.mem_iff_read? h', hr]
  exact perm.eq_of_pairwise (fun _ _ _ _ e e' => absurd e (lt_asymm e')) pm pm'

/-- Settles O33. -/
theorem slotStorageReadsBack : Obligations.SlotStorageReadsBack :=
  ⟨Memory.read?_write, fun _ _ => Memory.ext_read?⟩

/-- The store body (R151): the stored slot is the one that the longer queue reaches, and a store that meets `C - 1`
pending slots leaves none. -/
theorem Node.QueueInv.store {c : Nat} {m : Node} (hc : 2 ≤ c) (h : m.QueueInv c) (f : Frame) :
    (m.store c f).QueueInv c := by
  obtain ⟨hwf, hkeys, hhead, htail, hslots⟩ := h
  have hhead' : (m.store c f).head < c := Nat.mod_lt _ (by omega)
  refine ⟨Memory.wf_write hwf _ _, fun k hk => ?_, hhead', htail, fun j hj => ?_⟩
  · obtain rfl | hk := Memory.mem_write hk
    · exact hhead
    · exact hkeys k hk
  · have hnext : (m.store c f).head = if m.head + 1 < c then m.head + 1 else 0 := nextIndex_eq hc hhead
    have hj' : j < c := hj.trans (Nat.mod_lt _ (by omega))
    rw [Node.occ_eq hhead' htail, hnext, show (m.store c f).tail = m.tail from rfl] at hj
    change (Memory.read? (Memory.write m.slots m.head f) ((m.tail + j) % c)).isSome
    rw [Memory.read?_write]
    split_ifs with hi
    · rfl
    · refine hslots j ?_
      rw [add_mod_cap htail hj'] at hi
      rw [Node.occ_eq hhead htail]
      split_ifs at hi hj ⊢ <;> omega

end Sys2Proof.Machine
end

section
/-! PROOFS. The reset state (`10_state.md` R42): its values, and that it meets the invariant. -/

namespace Sys2Proof.Machine

@[simp] theorem State.resetOf_node (c : Config) (n : NodeIdx) : (State.resetOf c).node n = Node.reset := by
  simp only [State.node, State.resetOf, List.getD_eq_getElem?_getD, List.getElem?_replicate]
  split_ifs <;> rfl

@[simp] theorem State.resetOf_port (c : Config) (p : Nat) : (State.resetOf c).port p = Port.reset p := by
  simp only [State.port, State.resetOf, List.getD_eq_getElem?_getD, List.getElem?_map]
  by_cases hp : p < c.nPorts <;> simp [hp]

theorem State.mem_resetOf_nodes {c : Config} {m : Node} (h : m ∈ (State.resetOf c).nodes) : m = Node.reset :=
  List.eq_of_mem_replicate h

theorem State.mem_resetOf_ports {c : Config} {q : Port} (h : q ∈ (State.resetOf c).ports) :
    ∃ p, q = Port.reset p := by
  obtain ⟨p, -, rfl⟩ := List.mem_map.1 h
  exact ⟨p, rfl⟩

/-- Settles O56: every node is `Node.reset` and every sequencer a `Port.reset`. -/
theorem resetValues : Obligations.ResetValues := by
  refine ⟨fun c => ⟨rfl, rfl, List.length_replicate, by simp [State.resetOf], fun m hm => ?_, fun q hq => ?_, ?_⟩, rfl⟩
  · obtain rfl := State.mem_resetOf_nodes hm
    exact ⟨rfl, rfl, rfl, rfl, rfl, rfl, rfl, rfl, rfl, rfl, rfl⟩
  · obtain ⟨p, rfl⟩ := State.mem_resetOf_ports hq
    rfl
  · exact ⟨rfl, rfl, rfl, rfl, rfl, rfl⟩

/-- Right after reset a queue is empty: no slot is pending. -/
theorem Node.queueInv_reset {c : Nat} (hc : 2 ≤ c) : Node.reset.QueueInv c := by
  have occ : Node.reset.occ c = 0 := by simp [Node.occ, Node.reset]
  refine ⟨Memory.wf_nil, ?_, by simp only [Node.reset]; omega, by simp only [Node.reset]; omega, ?_⟩
  · simp [Node.reset]
  · simp [occ]

/-- The reset state of every block meets the invariant (R251). -/
theorem State.inv_resetOf {c : Config} (hc : c.wf) : (State.resetOf c).Inv where
  cfg := hc
  shape := ⟨List.length_replicate, by simp [State.resetOf]⟩
  registry := ⟨Nat.zero_le _, List.nodup_nil, by simp [State.resetOf]⟩
  queues m hm := by
    obtain rfl := State.mem_resetOf_nodes hm
    obtain ⟨-, -, -, -, queueCap, -⟩ := hc
    exact Node.queueInv_reset queueCap
  sequencers q hq := by
    obtain ⟨p, rfl⟩ := State.mem_resetOf_ports hq
    exact Port.seqInv_idle (Port.reset p) c
  locks := ⟨fun n _ => .inl (by rw [State.resetOf_node]; rfl), fun p _ hp => by
    rw [State.resetOf_port] at hp; cases hp⟩
  serial := by simp [State.SerialInv, State.resetOf, Serial.reset, teBit]

end Sys2Proof.Machine
end

section
/-! PROOFS. The invariant (`10_state.md` R22, R24, R27, R38, R182): every step keeps it. -/

namespace Sys2Proof.Machine

/-! ### The lock -/

/-- Settles O38: the lock of the shared target is HELD by each of the two ports. -/
theorem lockExcludesOtherPorts : Obligations.LockExcludesOtherPorts := by
  intro s p q hs hp hq lp lq htgt
  have holdsP := hs.locks.2 p hp lp
  have holdsQ := hs.locks.2 q hq lq
  rw [← htgt] at holdsQ
  exact Lock.held.inj (holdsP.symm.trans holdsQ)

/-! ### Sequencers -/

theorem State.Inv.seqInv {s : State} (h : s.Inv) {p : Nat} (hp : p < s.cfg.nPorts) : (s.port p).SeqInv s.cfg :=
  h.sequencers _ (List.mem_of_getElem? (State.getElem?_ports (by rw [h.shape.2]; exact hp)))

/-- What the invariant says of a sequencer that accesses a queue or has a notification pending. -/
theorem Port.SeqInv.target {c : Config} {q : Port} (h : q.SeqInv c) (hq : q.phase.inQueue = true ∨ q.phase = .tNtf) :
    q.tgt.toNat < c.nNodes ∧ ((q.op = opTransmit ∧ q.cur < c.busCap ∧ q.tgt ≠ q.aNode) ∨
      ((q.op = opEnqueue ∨ q.op = opDequeue) ∧ q.tgt = q.aNode)) := h.2.2.2 hq

/-- Only a TRANSMIT notifies. -/
theorem Port.SeqInv.op_of_tNtf {c : Config} {q : Port} (h : q.SeqInv c) (hq : q.phase = .tNtf) : q.op = opTransmit :=
  h.2.2.1 hq

/-- A TRANSMIT that accesses a queue or has a notification pending is at a registry position. -/
theorem Port.SeqInv.cur_lt {c : Config} {q : Port} (h : q.SeqInv c) (hq : q.phase.inQueue = true ∨ q.phase = .tNtf)
    (hop : q.op = opTransmit) : q.cur < c.busCap := by
  obtain ⟨-, ⟨-, hcur, -⟩ | ⟨hop', -⟩⟩ := h.target hq
  · exact hcur
  · rw [hop] at hop'
    exact absurd hop' (by decide)

/-- The moves within a queue access; the result latches are free. -/
theorem Port.SeqInv.move {c : Config} {q : Port} (h : q.SeqInv c) (hq : q.phase.inQueue = true) {ph : Phase}
    (hph : ph.inQueue = true) (hit : Bool) (f : Frame) :
    ({ q with rHit := hit, rFrame := f, phase := ph } : Port).SeqInv c := by
  refine ⟨?_, ?_, ?_, fun _ => h.target (.inl hq)⟩ <;> rintro rfl <;> cases hph

/-- Presenting a notification (R127). -/
theorem Port.SeqInv.notify {c : Config} {q : Port} (h : q.SeqInv c) (hq : q.phase.inQueue = true)
    (hop : q.op = opTransmit) : ({ q with phase := .tNtf } : Port).SeqInv c :=
  ⟨nofun, nofun, fun _ => hop, fun _ => h.target (.inl hq)⟩

/-- The scan loads another node's entry (R125). -/
theorem Port.seqInv_target {c : Config} {q : Port} {n : NodeIdx} (hop : q.op = opTransmit) (hcur : q.cur < c.busCap)
    (hn : n.toNat < c.nNodes) (hne : n ≠ q.aNode) : ({ q with tgt := n, phase := .qAcq } : Port).SeqInv c :=
  ⟨nofun, nofun, nofun, fun _ => ⟨hn, .inl ⟨hop, hcur, hne⟩⟩⟩

/-- The cursor's advance (R125, R128, R153). -/
theorem Port.seqInv_advance {c : Config} {q : Port} (hop : q.op = opTransmit) (hcur : q.cur < c.busCap) :
    ({ q with cur := q.cur + 1, phase := .tScan } : Port).SeqInv c :=
  ⟨nofun, fun _ => ⟨hop, hcur⟩, nofun, fun hph => by obtain hph | hph := hph <;> cases hph⟩

/-- The sequencer of an accepted command (R120). -/
theorem Port.seqInv_latch (c : Config) (w : CmdWord) (q : Port) : (q.latch c w).SeqInv c := by
  unfold Port.latch
  obtain ⟨e, bad⟩ | ⟨e, hop⟩ | ⟨e, hop, hn⟩ := firstPhase_cases c (opField w) (nodeField w) <;> rw [e]
  · exact ⟨fun _ => bad, nofun, nofun, fun hph => by obtain hph | hph := hph <;> cases hph⟩
  · exact ⟨nofun, fun _ => ⟨hop, Nat.zero_le _⟩, nofun, fun hph => by obtain hph | hph := hph <;> cases hph⟩
  · exact ⟨nofun, nofun, nofun, fun _ => ⟨hn, .inr ⟨hop, rfl⟩⟩⟩

/-! ### The invariant after the steps of an instruction -/

/-- Another registry that meets its invariant. -/
theorem State.Inv.setRegistry {s : State} (h : s.Inv) {r : List NodeIdx}
    (hr : State.RegistryInv { s with registry := r }) : State.Inv { s with registry := r } :=
  { h with registry := hr, locks := h.locks }

/-- Another serial file that meets its invariant. -/
theorem State.Inv.setSerial {s : State} (h : s.Inv) {x : Serial} (hx : State.SerialInv { s with serial := x }) :
    State.Inv { s with serial := x } :=
  { h with serial := hx, locks := h.locks }

/-- Registering a new node while there is room (R123). -/
theorem State.RegistryInv.append {s : State} (h : s.RegistryInv) {n : NodeIdx} (hn : n.toNat < s.cfg.nNodes)
    (new : n ∉ s.registry) (room : s.registry.length < s.cfg.busCap) :
    State.RegistryInv { s with registry := s.registry ++ [n] } := by
  obtain ⟨-, nodup, valid⟩ := h
  refine ⟨by simpa using room, ?_, fun k hk => ?_⟩
  · exact List.nodup_append.2 ⟨nodup, List.nodup_singleton n, fun a ha b hb e => by simp_all⟩
  · obtain hk | rfl : k ∈ s.registry ∨ k = n := by simpa using hk
    · exact valid k hk
    · exact hn

/-- The record of outputs is no part of the invariant. -/
theorem State.Inv.emit {s : State} (h : s.Inv) (o : Output) : (s.emit o).Inv := h.congr rfl rfl rfl rfl rfl

theorem Effect.inv {s t : State} {i : Instr} (h : Effect s i t) (hs : s.Inv) : t.Inv := by
  obtain ⟨te, line, follows⟩ := hs.serial
  have realized (n : NodeIdx) : (s.updNode n fun m => { m with realized := true }).Inv :=
    hs.updNode n _ (fun _ => rfl) id
  cases h
  case none => exact hs
  case report => exact hs.emit _
  case init => exact hs.setRegistry ⟨Nat.zero_le _, List.nodup_nil, by simp⟩
  case attach hn new room => exact hs.setRegistry (hs.registry.append hn new room)
  case realizeReport n _ _ => exact (realized n).emit _
  case realizeRegister n hn new room => exact (realized n).setRegistry (hs.registry.append hn new room)
  case link | setnotify | realize | bcwrMcr | bcwrCtrl | bcwrTfr | bcwrRfr => exact hs.updNode _ _ (fun _ => rfl) id
  case readData =>
    exact hs.setSerial ⟨te, nofun, fun hc => by rw [Serial.readData, show s.cfg.serIrqClearOnRead = true from hc]; simp⟩
  case writeBaud v => exact hs.setSerial ⟨te, line, follows⟩
  case writeCtrl v => exact hs.setSerial ⟨fun hv => by simp_all [Serial.writeCtrl], line, follows⟩
  case writeData v _ =>
    refine State.Inv.emit ?_ _
    exact hs.setSerial ⟨fun _ => rfl, line, follows⟩

/-- A registry entry names a node and stands below the capacity (R22). -/
theorem State.RegistryInv.entry {s : State} (h : s.RegistryInv) {k : Nat} {e : NodeIdx}
    (he : s.registry[k]? = some e) : e.toNat < s.cfg.nNodes ∧ k < s.cfg.busCap :=
  ⟨h.2.2 e (List.mem_of_getElem? he), (List.getElem?_eq_some_iff.1 he).1.trans_le h.1⟩

/-- Taking a FREE lock and entering Q_BODY (R150). -/
theorem State.Inv.acquire {s : State} (h : s.Inv) {p : Nat} (hp : p < s.cfg.nPorts) (hph : (s.port p).phase = .qAcq)
    (free : (s.node (s.port p).tgt).lock = .free) :
    ((s.updNode (s.port p).tgt fun m => { m with lock := .held p }).setPhase p .qBody).Inv where
  cfg := h.cfg
  shape := ⟨by simpa using h.shape.1, by simpa using h.shape.2⟩
  registry := h.registry
  queues := State.forall_updNode h.queues _ _ id
  sequencers := State.forall_updPort h.sequencers p _ fun hseq => hseq.move (by rw [hph]; rfl) rfl _ _
  locks := h.locks.acquire h.shape hp ((h.seqInv hp).target (.inl (by rw [hph]; rfl))).1 hph free
  serial := h.serial

/-- Answering and freeing the lock (R153). -/
theorem State.Inv.releaseRespond {s : State} (h : s.Inv) {p : Nat} (hp : p < s.cfg.nPorts)
    (hph : (s.port p).phase = .qRel) (op : BitVec 4) (hit : Bool) (f : Frame) :
    ((s.unlock p).respond p op hit f).Inv :=
  (h.release p hp hph (fun q => { q with phase := .idle }) rfl fun _ => Port.seqInv_idle _ _).congr rfl rfl rfl rfl rfl

/-- A queue body: a change of the target that leaves its lock and keeps its queue's invariant, and the move to Q_REL
with the result latches loaded (R151, R152). -/
theorem State.Inv.body {s : State} (h : s.Inv) {p : Nat} (hph : (s.port p).phase = .qBody)
    (g : Node → Node) (hlock : ∀ m, (g m).lock = m.lock)
    (hq : (s.node (s.port p).tgt).QueueInv s.cfg.queueCap → (g (s.node (s.port p).tgt)).QueueInv s.cfg.queueCap)
    (hit : Port → Bool) (f : Port → Frame) :
    ((s.updNode (s.port p).tgt g).updPort p fun q =>
      { q with rHit := hit q, rFrame := f q, phase := .qRel }).Inv :=
  State.Inv.updPort (s := s.updNode (s.port p).tgt g) (h.updNode _ g hlock hq) p _
    (fun hseq => hseq.move (by rw [State.updNode_port, hph]; rfl) rfl _ _)
    ⟨by rw [State.updNode_port, hph]; rfl, fun _ => rfl⟩

/-- Every step of the instruction latched on the active port keeps the invariant. -/
theorem Taken.inv {s t : State} {i : Instr} (h : Taken s i t) (hs : s.Inv) (hp : s.active < s.cfg.nPorts)
    (hi : (s.port s.active).instr = i) : t.Inv := by
  have hseq := hs.seqInv hp
  obtain ⟨-, -, -, -, queueCap, -⟩ := hs.cfg
  have opT {n f} (e : i = .transmit n f) : (s.port s.active).op = opTransmit :=
    ((Port.instr_queue.1 n f).1 (hi.trans e)).1
  cases h
  case wait => exact hs
  case answer s₁ op f ready eff =>
    refine (eff.inv hs).respond _ op false f ?_
    rw [State.port_congr eff.ports, ready]
    rfl
  case acquire hph free _ => exact hs.acquire hp hph free
  case store f hph _ =>
    exact hs.body hph (Node.store s.cfg.queueCap · f) (fun _ => rfl) (·.store queueCap f) Port.rHit Port.rFrame
  case loadEmpty hph _ =>
    rw [State.setPhase_updPort]
    exact hs.updPort _ _ (fun h => h.move (by rw [hph]; rfl) rfl _ _) ⟨by rw [hph]; rfl, fun _ => rfl⟩
  case loadHit hph full =>
    rw [State.setPhase_updPort]
    exact hs.body hph (Node.load s.cfg.queueCap) (fun _ => rfl) (·.load queueCap full) (fun _ => true) fun _ => _
  case relEnqueue hph => exact hs.releaseRespond hp hph _ _ _
  case relHit hph _ => exact hs.releaseRespond hp hph _ _ _
  case relEmpty hph _ => exact hs.releaseRespond hp hph _ _ _
  case relNotify n f hph _ =>
    have inQ : (s.port s.active).phase.inQueue = true := by rw [hph]; rfl
    exact (hs.release s.active hp hph (fun q => { q with phase := .tNtf }) rfl fun h => h.notify inQ (opT rfl)).congr
      rfl rfl rfl rfl rfl
  case relAdvance n f hph _ =>
    have inQ : (s.port s.active).phase.inQueue = true := by rw [hph]; rfl
    exact hs.release s.active hp hph _ rfl fun h => Port.seqInv_advance (opT rfl) (h.cur_lt (.inl inQ) (opT rfl))
  case scanEnd hph _ => exact hs.respond _ _ _ _ (by rw [hph]; rfl)
  case scanSkip hph own =>
    exact hs.updPort _ _ (fun _ => Port.seqInv_advance (opT rfl) (hs.registry.entry own).2)
      ⟨by rw [hph], fun _ => rfl⟩
  case scanTarget n f e hph entry other =>
    obtain ⟨valid, room⟩ := hs.registry.entry entry
    have sender : (s.port s.active).aNode = n := ((Port.instr_queue.1 n f).1 hi).2.1
    exact hs.updPort _ _ (fun _ => Port.seqInv_target (opT rfl) room valid (sender ▸ other))
      ⟨by rw [hph]; rfl, fun e => by rw [hph] at e; cases e⟩

/-- Every event keeps the invariant. -/
theorem Stepped.inv {s t : State} {e : Event} (h : Stepped s e t) (hs : s.Inv) : t.Inv := by
  cases h
  case accept p w hp idle =>
    have unlocked : ((s.port p).latch s.cfg w).phase.locked = false := by
      change (firstPhase s.cfg (opField w) (nodeField w)).locked = false
      obtain ⟨e, -⟩ | ⟨e, -⟩ | ⟨e, -⟩ := firstPhase_cases s.cfg (opField w) (nodeField w) <;> rw [e] <;> rfl
    exact hs.updPort p _ (fun _ => Port.seqInv_latch _ w _)
      ⟨by rw [unlocked, idle]; rfl, fun e => by rw [idle] at e; cases e⟩
  case run p i hp _ hi taken =>
    have active : State.Inv { s with active := p } := hs.congr rfl rfl rfl rfl rfl
    exact taken.inv active hp hi
  case ack p hp pending =>
    have hseq := hs.seqInv hp
    have hop := hseq.op_of_tNtf pending
    exact hs.updPort p _ (fun h => Port.seqInv_advance hop (h.cur_lt (.inr pending) hop))
      ⟨by rw [pending]; rfl, fun _ => rfl⟩
  case rxLatched => exact hs.setSerial ⟨hs.serial.1, fun _ => rfl, fun _ => rfl⟩
  case rxDropped => exact hs.emit _
  case rst => exact (State.inv_resetOf hs.cfg).congr rfl rfl rfl rfl rfl
  case acceptBusy | runIdle | ackNone => exact hs

/-- Settles O59: the schedule is no part of the invariant, and every event keeps it. -/
theorem everyStepKeepsInvariant : Obligations.EveryStepKeepsInvariant := by
  intro s t hs h
  obtain ⟨-, rfl⟩ | ⟨e, rest, -, h⟩ := step_stepped h
  · exact hs
  · have hs' : State.Inv { s with schedule := rest } := hs.congr rfl rfl rfl rfl rfl
    exact h.inv hs'

end Sys2Proof.Machine
end

section
/-! PROOFS. Memory and ordering (`20_memory.md`): a run's first step, and the release of a held lock (R78). -/

namespace Sys2Proof.Machine

/-! ### Runs of the machine -/

/-- A run whose first step answers `t` goes on from `t`. -/
theorem core_run_succ {s t : State} (k : Nat) (h : step s = .next t) :
    Sys2Proof.core.run (k + 1) s = Sys2Proof.core.run k t := by
  have first : Sys2Proof.core.step s = .next t := h
  simp only [Host.Core.run, first]

/-- The sequencer of a port the block has always answers a next state, and takes nothing but its own event from the
schedule. -/
theorem exists_step_run {s : State} {p : Nat} (hp : p < s.cfg.nPorts) (rest : List Event) :
    ∃ t, step { s with schedule := .run p :: rest } = .next t ∧ Stepped { s with schedule := rest } (.run p) t ∧
      t.schedule = rest := by
  let s' : State := { s with schedule := rest }
  obtain ⟨t, ht⟩ : ∃ t, runEvent (.run p) s' = .next t := by
    by_cases idle : (s'.port p).phase = .idle
    · exact ⟨s', runEvent_run_of_idle (s := s') hp idle⟩
    · rw [runEvent_run_of_busy (s := s') hp idle]
      exact exec_next _ _
  have stepped := runEvent_stepped ht
  refine ⟨t, (step_of_schedule rfl).trans ht, stepped, ?_⟩
  cases stepped
  case runIdle => rfl
  case run taken => exact taken.schedule

/-! ### The steps of a lock's holder (R78) -/

/-- A sequencer that accesses a queue runs a TRANSMIT, an ENQUEUE or a DEQUEUE. -/
theorem Port.SeqInv.accessesQueue_instr {c : Config} {q : Port} (h : q.SeqInv c) (hq : q.phase.inQueue = true) :
    accessesQueue q.instr = true := by
  obtain ⟨transmit, enqueue, dequeue⟩ := q.instr_queue
  obtain ⟨-, ⟨hop, -⟩ | ⟨hop | hop, -⟩⟩ := h.target (.inl hq)
  · rw [(transmit _ _).2 ⟨hop, rfl, rfl⟩]; rfl
  · rw [(enqueue _ _).2 ⟨hop, rfl, rfl⟩]; rfl
  · rw [(dequeue _).2 ⟨hop, rfl⟩]; rfl

/-- A queue operation in Q_BODY moves to Q_REL and keeps its target (R151, R152). -/
theorem Taken.qRel_of_qBody {s t : State} {i : Instr} (h : Taken s i t) (hi : accessesQueue i = true)
    (hph : (s.port s.active).phase = .qBody) :
    (t.port s.active).phase = .qRel ∧ (t.port s.active).tgt = (s.port s.active).tgt := by
  have held : s.active < s.ports.length := State.lt_of_phase_ne_idle (by rw [hph]; exact nofun)
  have moved (u : State) (g : Port → Port) (hu : u.ports = s.ports)
      (hg : ∀ q, (g q).phase = .qRel ∧ (g q).tgt = q.tgt) :
      ((u.updPort s.active g).port s.active).phase = .qRel ∧
        ((u.updPort s.active g).port s.active).tgt = (s.port s.active).tgt := by
    rw [u.port_updPort_self _ g (hu ▸ held), State.port_congr hu]
    exact hg _
  cases h
  case wait notLocked => cases (notLocked hi).symm.trans (congrArg Phase.locked hph)
  case store => exact moved _ _ rfl fun _ => ⟨rfl, rfl⟩
  case loadEmpty | loadHit =>
    rw [State.setPhase_updPort]
    exact moved _ _ rfl fun _ => ⟨rfl, rfl⟩
  all_goals simp_all only [reduceCtorEq]

/-- A queue operation in Q_REL frees its target's lock (R153). -/
theorem Taken.lock_free_of_qRel {s t : State} {i : Instr} (h : Taken s i t) (hi : accessesQueue i = true)
    (hph : (s.port s.active).phase = .qRel) (hn : (s.port s.active).tgt.toNat < s.nodes.length) :
    (t.node (s.port s.active).tgt).lock = .free := by
  have freed : ((s.unlock s.active).node (s.port s.active).tgt).lock = .free := by
    rw [State.unlock, State.node_updNode_self _ _ _ hn]
  cases h
  case wait notLocked => cases (notLocked hi).symm.trans (congrArg Phase.locked hph)
  case relEnqueue | relHit | relEmpty | relNotify | relAdvance => exact freed
  all_goals simp_all only [reduceCtorEq]

/-- The step of a port that accesses a queue is one of its queue operation. -/
theorem Stepped.taken_of_inQueue {s t : State} {p : Nat} (h : Stepped s (.run p) t) (hs : s.Inv)
    (hq : (s.port p).phase.inQueue = true) :
    ∃ i, accessesQueue i = true ∧ Taken { s with active := p } i t := by
  cases h
  case runIdle idle => rw [idle] at hq; cases hq
  case run i hp _ hi taken => exact ⟨i, hi ▸ (hs.seqInv hp).accessesQueue_instr hq, taken⟩

/-- From Q_REL one step of the holder frees the lock. -/
theorem exists_step_run_lock_free {s : State} {p : Nat} (rest : List Event) (hs : s.Inv) (hp : p < s.cfg.nPorts)
    (hph : (s.port p).phase = .qRel) :
    ∃ t, step { s with schedule := .run p :: rest } = .next t ∧ (t.node (s.port p).tgt).lock = .free := by
  have inQ : (s.port p).phase.inQueue = true := by rw [hph]; rfl
  obtain ⟨t, ht, stepped, -⟩ := exists_step_run hp rest
  have hs' : State.Inv { s with schedule := rest } := hs.congr rfl rfl rfl rfl rfl
  obtain ⟨i, hi, taken⟩ := stepped.taken_of_inQueue hs' inQ
  obtain ⟨valid, -⟩ := (hs.seqInv hp).target (.inl inQ)
  exact ⟨t, ht, taken.lock_free_of_qRel hi hph (hs.shape.1 ▸ valid)⟩

/-- From Q_BODY one step of the holder leads to Q_REL with the same target, in a state that meets the invariant. -/
theorem exists_step_run_qRel {s : State} {p : Nat} (rest : List Event) (hs : s.Inv) (hp : p < s.cfg.nPorts)
    (hph : (s.port p).phase = .qBody) :
    ∃ t, step { s with schedule := .run p :: rest } = .next t ∧ t.schedule = rest ∧ t.cfg = s.cfg ∧ t.Inv ∧
      (t.port p).phase = .qRel ∧ (t.port p).tgt = (s.port p).tgt := by
  obtain ⟨t, ht, stepped, hsch⟩ := exists_step_run hp rest
  have hs' : State.Inv { s with schedule := rest } := hs.congr rfl rfl rfl rfl rfl
  obtain ⟨i, hi, taken⟩ := stepped.taken_of_inQueue hs' (by rw [State.port_with_schedule, hph]; rfl)
  exact ⟨t, ht, hsch, stepped.cfg, stepped.inv hs', taken.qRel_of_qBody hi hph⟩

/-- Settles O39: Q_REL frees the lock in its one step, and Q_BODY leads to Q_REL with the target kept. -/
theorem holderFreesLockWithinTwoSteps : Obligations.HolderFreesLockWithinTwoSteps := by
  intro s p rest hs hp
  refine ⟨fun hph => ?_, fun hph => ?_⟩
  · obtain ⟨t, ht, free⟩ := exists_step_run_lock_free rest hs hp hph
    exact ⟨t, core_run_succ 0 ht, free⟩
  · obtain ⟨u, hu, hsch, hcfg, hinv, hrel, htgt⟩ := exists_step_run_qRel (.run p :: rest) hs hp hph
    obtain ⟨t, ht, free⟩ := exists_step_run_lock_free rest hinv (hcfg ▸ hp) hrel
    rw [← hsch] at ht
    exact ⟨t, (core_run_succ 1 hu).trans (core_run_succ 0 ht), htgt ▸ free⟩

end Sys2Proof.Machine
end

section
/-! PROOFS. The command word (`30_encoding.md` R91 to R97, R105): the decoder and the encoder agree, and the decoder
reads the bits that an opcode uses and no others. -/

namespace Sys2Proof

/-! ### The row of the opcode map that an encoded instruction decodes to (R91, R94) -/

/-- Reading a word built for format R. -/
theorem decodeOperation_registerWord (op : BitVec 4) (n : NodeIdx) (off val : Word32) :
    decodeOperation (commandWord op n (registerPayload off val)) =
      operationRow op n (registerPayload off val) off val := by
  rw [decodeOperation_commandWord, offField_commandWord, valField_commandWord]

/-- The row of R94's opcode map that an instruction is a sub-decode row of, with the register's offset written out. -/
def Instr.operation : Instr → Instr
  | .serrdBaud => .serrd 0x10
  | .serwrBaud val => .serwr 0x10 val
  | .serrdStat => .serrd 0x14
  | .serwrStat val => .serwr 0x14 val
  | .serrdCtrl => .serrd 0x18
  | .serwrCtrl val => .serwr 0x18 val
  | .serrdData => .serrd 0x1C
  | .serwrData val => .serwr 0x1C val
  | .serrdUnknown off => .serrd off
  | .serwrUnknown off val => .serwr off val
  | .bcrdMcr n => .bcrd n 0x00
  | .bcwrMcr n val => .bcwr n 0x00 val
  | .bcrdCtrl n => .bcrd n 0x04
  | .bcwrCtrl n val => .bcwr n 0x04 val
  | .bcrdTfr n => .bcrd n 0x08
  | .bcwrTfr n val => .bcwr n 0x08 val
  | .bcrdRfr n => .bcrd n 0x0C
  | .bcwrRfr n val => .bcwr n 0x0C val
  | .bcrdUnknown n off => .bcrd n off
  | .bcwrUnknown n off val => .bcwr n off val
  | i => i

/-- The opcode map reads from an encoded instruction the row it belongs to: every operand stands in its own field. -/
theorem decodeOperation_encode (i : Instr) : decodeOperation (encode i) = i.operation := by
  cases i
  case init | attach | transmit | enqueue | dequeue | link | setnotify | realize | reserved0 | reservedD | reservedE
      | reservedF =>
    exact decodeOperation_commandWord _ _ _
  all_goals exact decodeOperation_registerWord _ _ _ _

/-! ### Sub-decode (R97) -/

theorem serRegAt_eq_none_iff (off : Word32) : serRegAt off = none ↔ (!knownSerOffset off) = true := by
  unfold serRegAt knownSerOffset
  split_ifs <;> simp [*]

theorem bcRegAt_eq_none_iff (off : Word32) : bcRegAt off = none ↔ (!knownBcOffset off) = true := by
  unfold bcRegAt knownBcOffset
  split_ifs <;> simp [*]

/-- The sub-decode resolves a well-formed instruction's row of the opcode map to that of the instruction itself. -/
theorem subDecode_operation {i : Instr} (hi : i.wf = true) : i.operation.subDecode = i.subDecode := by
  cases i
  case serrdUnknown off => change serrdRow off = _; rw [serrdRow, (serRegAt_eq_none_iff off).2 hi]; rfl
  case serwrUnknown off val => change serwrRow off val = _; rw [serwrRow, (serRegAt_eq_none_iff off).2 hi]; rfl
  case bcrdUnknown n off => change bcrdRow n off = _; rw [bcrdRow, (bcRegAt_eq_none_iff off).2 hi]; rfl
  case bcwrUnknown n off val => change bcwrRow n off val = _; rw [bcwrRow, (bcRegAt_eq_none_iff off).2 hi]; rfl
  all_goals rfl

/-- Every row but the operation rows of format R stands. -/
theorem subDecode_eq_self {i : Instr} (hi : i.isOperationRow = false) : i.subDecode = i := by
  cases i
  case bcrd | bcwr | serrd | serwr => cases hi
  all_goals rfl

theorem wf_serRows (off val : Word32) : (serrdRow off).wf = true ∧ (serwrRow off val).wf = true := by
  unfold serrdRow serwrRow
  rcases h : serRegAt off with _ | ⟨_ | _ | _ | _⟩
  · have unknown := (serRegAt_eq_none_iff off).1 h
    exact ⟨unknown, unknown⟩
  all_goals exact ⟨rfl, rfl⟩

theorem wf_bcRows (n : NodeIdx) (off val : Word32) :
    (bcrdRow n off).wf = true ∧ (bcwrRow n off val).wf = true := by
  unfold bcrdRow bcwrRow
  rcases h : bcRegAt off with _ | ⟨_ | _ | _ | _⟩
  · have unknown := (bcRegAt_eq_none_iff off).1 h
    exact ⟨unknown, unknown⟩
  all_goals exact ⟨rfl, rfl⟩

/-- The sub-decode names an offset "unknown" only when it is. -/
theorem wf_subDecode {i : Instr} (hi : i.wf = true) : i.subDecode.wf = true := by
  cases i
  case serrd off => exact (wf_serRows off 0).1
  case serwr off val => exact (wf_serRows off val).2
  case bcrd n off => exact (wf_bcRows n off 0).1
  case bcwr n off val => exact (wf_bcRows n off val).2
  all_goals exact hi

/-- The sub-decode changes the name of a command, not its word. -/
theorem encode_subDecode (i : Instr) : encode i.subDecode = encode i := by
  cases i
  case serrd off => exact Laws.SubDecodeEncoding.serrd off
  case serwr off val => exact Laws.SubDecodeEncoding.serwr off val
  case bcrd n off => exact Laws.SubDecodeEncoding.bcrd n off
  case bcwr n off val => exact Laws.SubDecodeEncoding.bcwr n off val
  all_goals rfl

/-! ### Decode of encode -/

theorem decode_encode {i : Instr} (hi : i.wf = true) : decode (encode i) = i.subDecode := by
  rw [decode, decodeOperation_encode, subDecode_operation hi]

/-- A table row of 128 bits is the command word. -/
theorem decodeTableWord_toNat (w : CmdWord) : decodeTableWord 128 w.toNat = some (decode w) := by
  have whole : BitVec.ofNat 128 (w.toNat % 2 ^ 128) = w := by
    rw [Nat.mod_eq_of_lt w.isLt, BitVec.ofNat_toNat, BitVec.setWidth_eq]
  simp only [decodeTableWord, decodeBits, le_refl, if_true, whole]

/-- Settles O1: the opcode map reads back the row the instruction belongs to, and the sub-decode resolves it. -/
theorem decodeOfEncodeGivesInstruction : Obligations.DecodeOfEncodeGivesInstruction := fun i hi =>
  ⟨decode_encode hi, by rw [decodeTableWord_toNat, decode_encode hi],
    fun resolved => by rw [decode_encode hi, subDecode_eq_self resolved]⟩

/-! ### Encode of decode: a mask is a command word too -/

theorem and_commandWord (w : CmdWord) (op : BitVec 4) (n : NodeIdx) (f : Frame) :
    w &&& commandWord op n f = commandWord (opField w &&& op) (nodeField w &&& n) (frameField w &&& f) := by
  apply BitVec.eq_of_getLsbD_eq
  intro i hi
  simp only [commandWord, opField, nodeField, frameField, BitVec.getLsbD_and, BitVec.getLsbD_append,
    BitVec.getLsbD_extractLsb', BitVec.getLsbD_zero]
  grind

theorem frameField_and_registerPayload (w : CmdWord) (off val : Word32) :
    frameField w &&& registerPayload off val = registerPayload (offField w &&& off) (valField w &&& val) := by
  apply BitVec.eq_of_getLsbD_eq
  intro i hi
  simp only [registerPayload, frameField, offField, valField, BitVec.getLsbD_and, BitVec.getLsbD_append,
    BitVec.getLsbD_extractLsb', BitVec.getLsbD_zero]
  grind

/-! The bits that each format, or each command of format R, uses. -/

section
variable {w : CmdWord} {op : BitVec 4} (h : opField w = op)
include h

theorem formatZ_eq_and : commandWord op 0#8 0#104 = w &&& 0xF#128 := by
  rw [show 0xF#128 = commandWord (.allOnes 4) 0#8 0#104 by decide, and_commandWord, h]
  simp only [BitVec.and_allOnes, BitVec.and_zero]

theorem formatN_eq_and : commandWord op (nodeField w) 0#104 = w &&& 0xFFF#128 := by
  rw [show 0xFFF#128 = commandWord (.allOnes 4) (.allOnes 8) 0#104 by decide, and_commandWord, h]
  simp only [BitVec.and_allOnes, BitVec.and_zero]

theorem formatF_eq_and :
    commandWord op (nodeField w) (frameField w) = w &&& 0x00FFFFFFFFFFFFFFFFFFFFFFFFFF0FFF#128 := by
  rw [show 0x00FFFFFFFFFFFFFFFFFFFFFFFFFF0FFF#128 = commandWord (.allOnes 4) (.allOnes 8) (.allOnes 104) by decide,
    and_commandWord, h]
  simp only [BitVec.and_allOnes]

theorem bcrdWord_eq_and :
    commandWord op (nodeField w) (registerPayload (offField w) 0#32) = w &&& 0xFFFFFFFF0FFF#128 := by
  rw [show 0xFFFFFFFF0FFF#128 = commandWord (.allOnes 4) (.allOnes 8) (registerPayload (.allOnes 32) 0#32) by decide,
    and_commandWord, frameField_and_registerPayload, h]
  simp only [BitVec.and_allOnes, BitVec.and_zero]

theorem bcwrWord_eq_and :
    commandWord op (nodeField w) (registerPayload (offField w) (valField w)) =
      w &&& 0xFFFFFFFFFFFFFFFF0FFF#128 := by
  rw [show 0xFFFFFFFFFFFFFFFF0FFF#128 =
      commandWord (.allOnes 4) (.allOnes 8) (registerPayload (.allOnes 32) (.allOnes 32)) by decide,
    and_commandWord, frameField_and_registerPayload, h]
  simp only [BitVec.and_allOnes]

theorem serrdWord_eq_and : commandWord op 0#8 (registerPayload (offField w) 0#32) = w &&& 0xFFFFFFFF000F#128 := by
  rw [show 0xFFFFFFFF000F#128 = commandWord (.allOnes 4) 0#8 (registerPayload (.allOnes 32) 0#32) by decide,
    and_commandWord, frameField_and_registerPayload, h]
  simp only [BitVec.and_allOnes, BitVec.and_zero]

theorem serwrWord_eq_and :
    commandWord op 0#8 (registerPayload (offField w) (valField w)) = w &&& 0xFFFFFFFFFFFFFFFF000F#128 := by
  rw [show 0xFFFFFFFFFFFFFFFF000F#128 =
      commandWord (.allOnes 4) 0#8 (registerPayload (.allOnes 32) (.allOnes 32)) by decide,
    and_commandWord, frameField_and_registerPayload, h]
  simp only [BitVec.and_allOnes, BitVec.and_zero]

end

/-- The row of each opcode encodes to the bits that the opcode uses. -/
theorem encode_operationRow (w : CmdWord) : (k : Nat) → k < 16 → opField w = BitVec.ofNat 4 k →
    encode (operationRow (BitVec.ofNat 4 k) (nodeField w) (frameField w) (offField w) (valField w)) =
      w &&& usedBits (BitVec.ofNat 4 k)
  | 0x0, _, h | 0x1, _, h | 0xD, _, h | 0xE, _, h | 0xF, _, h => formatZ_eq_and h
  | 0x2, _, h | 0x5, _, h | 0x6, _, h | 0x7, _, h | 0x8, _, h => formatN_eq_and h
  | 0x3, _, h | 0x4, _, h => formatF_eq_and h
  | 0x9, _, h => bcrdWord_eq_and h
  | 0xA, _, h => bcwrWord_eq_and h
  | 0xB, _, h => serrdWord_eq_and h
  | 0xC, _, h => serwrWord_eq_and h
  | _ + 16, hk, _ => absurd hk (by omega)

theorem encode_decode (w : CmdWord) : encode (decode w) = w &&& usedBits (opField w) := by
  have row := encode_operationRow w (opField w).toNat (opField w).isLt (by simp)
  rw [BitVec.ofNat_toNat, BitVec.setWidth_eq] at row
  rw [decode, encode_subDecode]
  exact row

/-- No opcode's row is a sub-decode row, so none names an unknown offset. -/
theorem wf_operationRow (op : BitVec 4) (n : NodeIdx) (f : Frame) (off val : Word32) :
    (operationRow op n f off val).wf = true := by
  unfold operationRow
  split <;> rfl

theorem wf_decode (w : CmdWord) : (decode w).wf = true := wf_subDecode (wf_operationRow _ _ _ _ _)

theorem isOperationRow_decode (w : CmdWord) : (decode w).isOperationRow = false := Machine.isOperationRow_subDecode _

/-- Settles O2: the row of the word's opcode encodes to the bits it uses, and the sub-decode keeps that word. -/
theorem encodeOfDecodeClearsIgnoredBits : Obligations.EncodeOfDecodeClearsIgnoredBits := fun w =>
  ⟨encode_decode w, wf_decode w, isOperationRow_decode w⟩

/-- Decoding is determined by the word without its unused bits. -/
theorem decode_and_usedBits (w : CmdWord) : decode (w &&& usedBits (opField w)) = decode w := by
  rw [← encode_decode, decode_encode (wf_decode w), subDecode_eq_self (isOperationRow_decode w)]

/-- Settles O3: both words decode as the one word that is left of them without their unused bits. -/
theorem ignoredBitsDoNotChangeCommand : Obligations.IgnoredBitsDoNotChangeCommand := by
  intro w w' hop hbits
  calc decode w = decode (w &&& usedBits (opField w)) := (decode_and_usedBits w).symm
    _ = decode (w' &&& usedBits (opField w')) := by rw [hbits, hop]
    _ = decode w' := decode_and_usedBits w'

/-! ### Worked words and frames -/

/-- Settles O4: nine closed words, evaluated. -/
theorem workedWordsDecode : Obligations.WorkedWordsDecode := by
  unfold Obligations.WorkedWordsDecode
  decide

/-- A field of the frame field is a field of the command word, 16 bits higher. -/
theorem extractLsb'_frameField (w : CmdWord) {start len : Nat} (h : start + len ≤ 104) :
    (frameField w).extractLsb' start len = w.extractLsb' (16 + start) len := by
  apply BitVec.eq_of_getLsbD_eq
  intro i hi
  have inside : start + i < 104 := by omega
  simp only [frameField, BitVec.getLsbD_extractLsb', inside, decide_true, Bool.true_and, Nat.add_assoc]

/-- Settles O5: each field lies inside the frame. -/
theorem frameFieldsOfCommandWord : Obligations.FrameFieldsOfCommandWord := fun w =>
  ⟨extractLsb'_frameField w (by decide),
    fun k hk => (extractLsb'_frameField w (by omega)).trans (by congr 1; omega),
    extractLsb'_frameField w (by decide)⟩

end Sys2Proof
end

section
/-! PROOFS. The response word (`30_encoding.md` R98): which steps emit one, and on which port. -/

namespace Sys2Proof.Machine

/-! ### Counting responses -/

/-- An output that is no response word is not counted. -/
theorem State.responses_emit_of_ne (s : State) {o : Output} (h : ∀ q w, o ≠ .response q w) (p : Nat) :
    (s.emit o).responses p = s.responses p := by
  cases o
  case response q w => exact absurd rfl (h q w)
  all_goals simp [State.responses]

theorem State.responses_respond (s : State) (q : Nat) (op : BitVec 4) (hit : Bool) (f : Frame) (p : Nat) :
    (s.respond q op hit f).responses p = s.responses p + if q = p then 1 else 0 := by
  simp [State.responses, List.countP_singleton]

/-- What an operation does before it answers emits no response word. -/
theorem Effect.responses {s t : State} {i : Instr} (h : Effect s i t) (p : Nat) : t.responses p = s.responses p := by
  cases h
  case report | realizeReport | writeData => exact State.responses_emit_of_ne _ (fun _ _ h => by cases h) p
  all_goals rfl

/-! ### Steps that answer and steps that do not -/

/-- From `s` to `t`, port `p` emits one response word if it goes back to IDLE, and none otherwise (R98). -/
def AnswersOnReturn (p : Nat) (s t : State) : Prop :=
  t.responses p = s.responses p + if (s.port p).phase ≠ .idle ∧ (t.port p).phase = .idle then 1 else 0

/-- No response word, and no return to IDLE. -/
theorem AnswersOnReturn.quiet {p : Nat} {s t : State} (hr : t.responses p = s.responses p)
    (hp : (t.port p).phase = .idle → (s.port p).phase = .idle) : AnswersOnReturn p s t := by
  rw [AnswersOnReturn, hr, if_neg fun h => h.1 (hp h.2), Nat.add_zero]

theorem AnswersOnReturn.refl (p : Nat) (s : State) : AnswersOnReturn p s s := .quiet rfl id

section
variable {s u : State} (hports : u.ports = s.ports) {p : Nat} (hr : u.responses p = s.responses p) (q : Nat)
include hports hr

/-- A sequencer that moves to a phase other than IDLE. -/
theorem AnswersOnReturn.move {g : Port → Port} (hg : ∀ x, (g x).phase ≠ .idle) :
    AnswersOnReturn p s (u.updPort q g) := by
  refine .quiet hr fun idle => ?_
  by_contra busy
  by_cases hpq : p = q
  · subst hpq
    have held : p < u.ports.length := hports ▸ State.lt_of_phase_ne_idle busy
    rw [u.port_updPort_self p g held] at idle
    exact hg _ idle
  · rw [u.port_updPort_ne g hpq, State.port_congr hports] at idle
    exact busy idle

/-- A sequencer that answers. -/
theorem AnswersOnReturn.respond (busy : (s.port q).phase ≠ .idle) (op : BitVec 4) (hit : Bool) (f : Frame) :
    AnswersOnReturn p s (u.respond q op hit f) := by
  rw [AnswersOnReturn, u.responses_respond, hr]
  congr 2
  by_cases hpq : p = q
  · subst hpq
    have held : p < (u.emit (.response p (responseWord op hit f))).ports.length :=
      hports ▸ State.lt_of_phase_ne_idle busy
    have idle : ((u.respond p op hit f).port p).phase = .idle := by
      rw [State.respond, State.setPhase, State.port_updPort_self _ _ _ held]
    simp [busy, idle]
  · have same : (u.respond q op hit f).port p = s.port p :=
      (State.port_updPort_ne _ _ hpq).trans (State.port_congr hports p)
    simp [same, Ne.symm hpq]

end

/-- A step of an instruction answers exactly when it takes its port back to IDLE. -/
theorem Taken.answersOnReturn {s t : State} {i : Instr} (h : Taken s i t)
    (busy : (s.port s.active).phase ≠ .idle) (p : Nat) : AnswersOnReturn p s t := by
  cases h
  case wait => exact .refl p s
  case answer eff => exact .respond eff.ports (eff.responses p) _ busy _ _ _
  case relEnqueue | relHit | relEmpty | scanEnd => exact .respond rfl rfl _ busy _ _ _
  case relNotify =>
    exact .move (s := s) (u := (s.unlock s.active).emit _) rfl
      (State.responses_emit_of_ne _ (fun _ _ h => by cases h) p) _ fun _ => nofun
  case loadEmpty | loadHit => rw [State.setPhase_updPort]; exact .move rfl rfl _ fun _ => nofun
  case acquire | store | relAdvance | scanSkip | scanTarget => exact .move rfl rfl _ fun _ => nofun

/-- Accept and NtfAck lead to a phase other than IDLE, and no other step of the environment moves a sequencer. -/
theorem Stepped.answersOnReturn {s t : State} {e : Event} (h : Stepped s e t) (hrst : e ≠ .rst) (p : Nat) :
    AnswersOnReturn p s t := by
  cases h
  case run q i _ busy _ taken => exact taken.answersOnReturn busy p
  case accept => exact .move rfl rfl _ fun _ => firstPhase_ne_idle _ _ _
  case ack => exact .move rfl rfl _ fun _ => nofun
  case rxDropped => exact .quiet (State.responses_emit_of_ne _ (fun _ _ h => by cases h) p) id
  case rst => exact absurd rfl hrst
  all_goals exact .refl p _

/-- Settles O12: of a sequencer's steps those that answer are those that return to IDLE, and no step of the environment
does either. -/
theorem oneResponsePerOperation : Obligations.OneResponsePerOperation :=
  fun _ _ _ _ p hs h hrst => (stepped_of_schedule hs h).answersOnReturn hrst p

end Sys2Proof.Machine
end

section
/-! PROOFS. The Bus family (`40_bus.md`): what Accept loads (R120), the EXEC step of every single-step command of the
family (R122, R123, R129 to R131), and the answer to a bad node index (R132). -/

namespace Sys2Proof.Machine

/-! ### Accept (R120) -/

theorem usesNode_iff (op : BitVec 4) : usesNode op = true ↔ 2 ≤ op.toNat ∧ op.toNat ≤ 10 := by
  revert op
  decide

/-- The first phase, by the opcodes written out. -/
theorem firstPhase_eq (c : Config) (op : BitVec 4) (n : NodeIdx) :
    firstPhase c op n =
      if op = 3 ∧ ¬((2 ≤ op.toNat ∧ op.toNat ≤ 10) ∧ c.nNodes ≤ n.toNat) then .tScan
      else if (op = 4 ∨ op = 5) ∧ ¬((2 ≤ op.toNat ∧ op.toNat ≤ 10) ∧ c.nNodes ≤ n.toNat) then .qAcq
      else .exec := by
  have bad : (usesNode op && badNode c n) = true ↔ (2 ≤ op.toNat ∧ op.toNat ≤ 10) ∧ c.nNodes ≤ n.toNat := by
    rw [Bool.and_eq_true, usesNode_iff, badNode, decide_eq_true_iff]
  simp only [firstPhase, bad]
  by_cases h : (2 ≤ op.toNat ∧ op.toNat ≤ 10) ∧ c.nNodes ≤ n.toNat
  · rw [if_pos h, if_neg (fun e => e.2 h), if_neg (fun e => e.2 h)]
  · simp only [h, not_false_eq_true, and_true]
    rfl

/-- Only a queue operation on a node that exists starts in Q_ACQ. -/
theorem firstPhase_eq_qAcq_iff (c : Config) (op : BitVec 4) (n : NodeIdx) :
    firstPhase c op n = .qAcq ↔
      (op = 4 ∨ op = 5) ∧ ¬((2 ≤ op.toNat ∧ op.toNat ≤ 10) ∧ c.nNodes ≤ n.toNat) := by
  rw [firstPhase_eq]
  split_ifs with transmit queue
  · obtain ⟨rfl, -⟩ := transmit
    simp
  · exact iff_of_true rfl queue
  · exact iff_of_false nofun queue

/-- An IDLE port loads the command word. -/
theorem runEvent_accept_of_idle {s : State} {p : Nat} (hp : p < s.cfg.nPorts) (h : (s.port p).phase = .idle)
    (w : CmdWord) : runEvent (.accept p w) s = .next (s.latch p w) := by
  rw [runEvent, State.onPort_of_lt hp, State.accept, if_pos h]

/-- Settles O7: the latches are the fields of the word, and the first phase is that of its opcode and node. -/
theorem acceptLatchesCommand : Obligations.AcceptLatchesCommand := by
  intro s p w rest hp idle
  refine (runEvent_accept_of_idle (s := { s with schedule := rest }) hp idle w).trans ?_
  refine congrArg (fun g => (.next (State.updPort { s with schedule := rest } p g) : Answer)) (funext fun q => ?_)
  simp only [Port.latch, firstPhase_eq_qAcq_iff]
  rw [firstPhase_eq]
  rfl

/-! ### The EXEC step of a command that exists -/

/-- An operation that does `g` and answers with its opcode alone. -/
theorem State.execStep_complete {s : State} (h : s.Ready) (op : BitVec 4) {g : State → State}
    (hg : (g s).active = s.active) :
    (s.execStep fun s => (g s).complete s.active op) = .next ((g s).answered (op.setWidth 128)) := by
  rw [State.execStep_ready h, ← hg, State.complete_eq_answered]

/-- The same for a command whose node operand names a node. -/
theorem State.execNodeStep_complete {s : State} {n : NodeIdx} (h : s.Ready) (hn : n.toNat < s.cfg.nNodes)
    (op : BitVec 4) {g : State → State} (hg : (g s).active = s.active) :
    (s.execNodeStep op n fun s => (g s).complete s.active op) = .next ((g s).answered (op.setWidth 128)) := by
  rw [State.execNodeStep_ready h hn, ← hg, State.complete_eq_answered]

/-- Settles O15. -/
theorem initEmptiesRegistry : Obligations.InitEmptiesRegistry := fun _ h =>
  State.execStep_complete h 0x1 (g := fun s => { s with registry := [] }) rfl

/-! `Register` (R123), case by case: the duplicate test comes first. -/

theorem State.register_of_mem {s : State} {n : NodeIdx} (h : n ∈ s.registry) :
    s.register s.active n = s.reported 0x2 (n.setWidth 32) := by
  rw [State.register, if_pos h, State.diag_eq_reported]
  rfl

theorem State.register_of_full {s : State} {n : NodeIdx} (new : n ∉ s.registry)
    (full : s.cfg.busCap ≤ s.registry.length) : s.register s.active n = s.reported 0x1 (n.setWidth 32) := by
  rw [State.register, if_neg new, if_neg (Nat.not_lt.2 full), State.diag_eq_reported]
  rfl

theorem State.register_of_room {s : State} {n : NodeIdx} (new : n ∉ s.registry)
    (room : s.registry.length < s.cfg.busCap) (p : Nat) :
    s.register p n = { s with registry := s.registry ++ [n] } := by
  rw [State.register, if_neg new, if_pos room]

@[simp] theorem State.register_active (s : State) (p : Nat) (n : NodeIdx) :
    (s.register p n).active = s.active := by
  unfold State.register
  split_ifs <;> rfl

/-- Settles O16: ATTACH answers after `Register`, in each of its three cases. -/
theorem attachAppendsOrReports : Obligations.AttachAppendsOrReports := by
  intro s n ready hn
  have attach : exec (.attach n) s = .next ((s.register s.active n).answered 0x2) :=
    State.execNodeStep_complete ready hn 0x2 (g := fun s => s.register s.active n) (s.register_active _ n)
  exact ⟨fun h => State.register_of_mem h ▸ attach, fun new full => State.register_of_full new full ▸ attach,
    fun new room => State.register_of_room new room s.active ▸ attach⟩

/-- Settles O17. -/
theorem linkAndSetnotifySetOneFlag : Obligations.LinkAndSetnotifySetOneFlag := fun _ n ready hn =>
  ⟨State.execNodeStep_complete ready hn 0x6 (g := fun s => s.updNode n fun m => { m with busRef := true }) rfl,
    State.execNodeStep_complete ready hn 0x7 (g := fun s => s.updNode n fun m => { m with notifyEn := true }) rfl⟩

/-- A reserved opcode is reported and answered with the opcode alone (R131). -/
theorem State.execStep_reservedOpcode {s : State} (h : s.Ready) (op : BitVec 4) :
    (s.execStep fun s => s.reservedOpcode op) =
      .next ((s.reported 0x9 (op.setWidth 32)).answered (op.setWidth 128)) := by
  have reported : s.diag s.active .badOpcode (op.setWidth 32) = s.reported 0x9 (op.setWidth 32) :=
    s.diag_eq_reported _ _
  rw [← reported]
  exact State.execStep_complete h op (g := fun s => s.diag s.active .badOpcode (op.setWidth 32)) rfl

/-- Settles O19. -/
theorem reservedOpcodesReportBadOpcode : Obligations.ReservedOpcodesReportBadOpcode := fun _ h =>
  ⟨State.execStep_reservedOpcode h 0x0, State.execStep_reservedOpcode h 0xD, State.execStep_reservedOpcode h 0xE,
    State.execStep_reservedOpcode h 0xF⟩

/-! ### A bad node index (R132) -/

/-- A rejected command is reported and answered with its opcode alone. -/
theorem State.rejectNode_eq (s : State) (op : BitVec 4) (n : NodeIdx) :
    s.rejectNode op n = (s.reported 0xA (n.setWidth 32)).answered (op.setWidth 128) := by
  have reported : s.diag s.active .badNode (n.setWidth 32) = s.reported 0xA (n.setWidth 32) :=
    s.diag_eq_reported _ _
  rw [State.rejectNode, reported]
  exact (s.reported 0xA (n.setWidth 32)).complete_eq_answered op

/-- A command that uses its node field and names no node starts in EXEC. -/
theorem firstPhase_of_badNode {c : Config} {op : BitVec 4} {n : NodeIdx} (uses : usesNode op = true)
    (bad : c.nNodes ≤ n.toNat) : firstPhase c op n = .exec := by
  rw [firstPhase, uses, badNode_of_le bad]
  rfl

/-- The opcode of an encoded instruction with a node operand is one that uses the node field. -/
theorem usesNode_opField_encode {i : Instr} {n : NodeIdx} (hi : i.nodeOperand = some n) :
    usesNode (opField (encode i)) = true := by
  cases i <;> simp only [Instr.nodeOperand, reduceCtorEq] at hi <;> rw [encode, opField_commandWord] <;> rfl

/-- The sub-decode keeps the node operand. -/
theorem nodeOperand_subDecode (i : Instr) : i.subDecode.nodeOperand = i.nodeOperand := by
  cases i
  case bcrd n off => simp only [Instr.subDecode, bcrdRow]; rcases bcRegAt off with _ | ⟨_ | _ | _ | _⟩ <;> rfl
  case bcwr n off v => simp only [Instr.subDecode, bcwrRow]; rcases bcRegAt off with _ | ⟨_ | _ | _ | _⟩ <;> rfl
  case serrd off => simp only [Instr.subDecode, serrdRow]; rcases serRegAt off with _ | ⟨_ | _ | _ | _⟩ <;> rfl
  case serwr off v => simp only [Instr.subDecode, serwrRow]; rcases serRegAt off with _ | ⟨_ | _ | _ | _⟩ <;> rfl
  all_goals rfl

/-- The EXEC step of a resolved instruction whose node operand names no node: the queue operations reject it in the EXEC
arm of their own, every other command in the EXEC step of a node command. -/
theorem exec_of_badNode {s : State} {i : Instr} {n : NodeIdx} (ready : s.Ready) (hr : i.isOperationRow = false)
    (hi : i.nodeOperand = some n) (bad : s.cfg.nNodes ≤ n.toNat) :
    exec i s = .next (s.rejectNode (opField (encode i)) n) := by
  have queue (op : BitVec 4) : s.queueExec op n = .next (s.rejectNode op n) := if_pos (badNode_of_le bad)
  cases i <;> simp only [Instr.nodeOperand, Instr.isOperationRow, reduceCtorEq, Option.some.injEq] at hi hr <;>
    subst hi <;> rw [encode, opField_commandWord]
  case transmit f => simp only [exec, execTransmit, ready, queue, opTransmit]
  case enqueue f => simp only [exec, execEnqueue, ready, queue, opEnqueue]
  case dequeue => simp only [exec, execDequeue, ready, queue, opDequeue]
  all_goals
    simp only [exec]
    exact State.execNodeStep_bad ready bad _ _

/-- Settles O20: an operation row of format R means and encodes what its sub-decode row does, so the resolved rows are
enough. -/
theorem badNodeIsReportedAndChangesNothing : Obligations.BadNodeIsReportedAndChangesNothing := by
  intro s i n ready hi bad
  refine ⟨firstPhase_of_badNode (usesNode_opField_encode hi) bad, ?_⟩
  have resolved : exec i.subDecode s = .next (s.rejectNode (opField (encode i.subDecode)) n) :=
    exec_of_badNode ready (isOperationRow_subDecode i) ((nodeOperand_subDecode i).trans hi) bad
  rw [exec_subDecode, encode_subDecode, State.rejectNode_eq] at resolved
  exact resolved

end Sys2Proof.Machine
end

section
/-! PROOFS. The Bus family (`40_bus.md`): the steps of a broadcast (R124 to R128), one by one and whatever the other
ports do: its loop head, its acknowledgement, and the queue it never writes (R133 (b)). -/

namespace Sys2Proof.Machine

/-! ### Changes that agree on what they change -/

theorem modify_congr {α : Type} {l : List α} {i : Nat} {g g' : α → α} {d : α}
    (h : g (l.getD i d) = g' (l.getD i d)) : l.modify i g = l.modify i g' := by
  apply List.ext_getElem?
  intro j
  rw [List.getElem?_modify, List.getElem?_modify]
  by_cases hij : i = j
  · subst hij
    cases hl : l[i]? <;> simp_all
  · simp [hij]

theorem State.updPort_congr {s : State} {p : Nat} {g g' : Port → Port} (h : g (s.port p) = g' (s.port p)) :
    s.updPort p g = s.updPort p g' := congrArg (fun ps => { s with ports := ps }) (modify_congr h)

theorem State.updNode_congr {s : State} {n : NodeIdx} {g g' : Node → Node} (h : g (s.node n) = g' (s.node n)) :
    s.updNode n g = s.updNode n g' := congrArg (fun ns => { s with nodes := ns }) (modify_congr h)

/-! ### TRANSMIT, phase by phase (R124) -/

section
variable {s : State} (n : NodeIdx) (f : Frame)

theorem exec_transmit_of_tScan (h : (s.port s.active).phase = .tScan) :
    exec (.transmit n f) s = .next (s.tScan s.active n) := by
  simp only [exec, execTransmit, h]

theorem exec_transmit_of_qAcq (h : (s.port s.active).phase = .qAcq) :
    exec (.transmit n f) s = .next (s.qAcq s.active) := by
  simp only [exec, execTransmit, h]

theorem exec_transmit_of_qBody (h : (s.port s.active).phase = .qBody) :
    exec (.transmit n f) s = .next (s.qBodyStore s.active f) := by
  simp only [exec, execTransmit, h]

theorem exec_transmit_of_qRel (h : (s.port s.active).phase = .qRel) :
    exec (.transmit n f) s = .next (s.qRelTransmit s.active f) := by
  simp only [exec, execTransmit, h]

end

/-! The loop head (R125), entry by entry. -/

theorem State.tScan_of_past {s : State} {p : Nat} (snd : NodeIdx) (h : s.registry[(s.port p).cur]? = none) :
    s.tScan p snd = s.complete p opTransmit := by
  simp only [State.tScan, h]

theorem State.tScan_of_sender {s : State} {p : Nat} {snd : NodeIdx} (h : s.registry[(s.port p).cur]? = some snd) :
    s.tScan p snd = s.advance p := by
  simp only [State.tScan, h, if_true]

theorem State.tScan_of_other {s : State} {p : Nat} {snd e : NodeIdx} (h : s.registry[(s.port p).cur]? = some e)
    (other : e ≠ snd) : s.tScan p snd = s.updPort p fun q => { q with tgt := e, phase := .qAcq } := by
  simp only [State.tScan, h, if_neg other]

/-- Settles O21: the three cases of the loop head; at the sender's entry the phase is T_SCAN before and after. -/
theorem scanVisitsRegistryInOrder : Obligations.ScanVisitsRegistryInOrder := by
  intro s snd f hph
  refine ⟨fun past => ?_, fun e entry own => ?_, fun e entry other => ?_⟩
  · rw [exec_transmit_of_tScan snd f hph, State.tScan_of_past snd (List.getElem?_eq_none past),
      State.complete_eq_answered]
    rfl
  · subst own
    rw [exec_transmit_of_tScan e f hph, State.tScan_of_sender entry]
    refine congrArg Host.Outcome.next (State.updPort_congr ?_)
    rw [← hph]
  · rw [exec_transmit_of_tScan snd f hph, State.tScan_of_other entry other]
    rfl

/-! ### A pending notification (R127, R128) -/

/-- The acknowledgement of a pending notification moves the cursor on. -/
theorem runEvent_ack_of_tNtf {s : State} {p : Nat} (hp : p < s.cfg.nPorts) (h : (s.port p).phase = .tNtf) :
    runEvent (.ack p) s = .next (s.advance p) := by
  rw [runEvent, State.onPort_of_lt hp, State.ntfAck, if_pos h]

/-- Settles O22. -/
theorem acknowledgementResumesBroadcast : Obligations.AcknowledgementResumesBroadcast := fun s _ rest hp h =>
  runEvent_ack_of_tNtf (s := { s with schedule := rest }) hp h

/-- A sequencer in T_NTF stays as it is through every step but its acknowledgement and reset: it takes no command, and
its own step waits. -/
theorem Stepped.port_eq_of_tNtf {s t : State} {e : Event} {p : Nat} (h : Stepped s e t)
    (pending : (s.port p).phase = .tNtf) (hack : e ≠ .ack p) (hrst : e ≠ .rst) : t.port p = s.port p := by
  cases h
  case accept q w _ idle =>
    have other : p ≠ q := by rintro rfl; cases idle.symm.trans pending
    exact s.port_updPort_ne _ other
  case run q i _ _ _ taken =>
    by_cases hq : p = q
    · subst hq
      rw [taken.eq_of_tNtf (s := { s with active := p }) pending]
      rfl
    · exact taken.port_ne (s := { s with active := q }) hq
  case ack q _ _ => exact s.port_updPort_ne _ fun hq => hack (hq ▸ rfl)
  case rst => exact absurd rfl hrst
  case acceptBusy | runIdle | ackNone | rxLatched | rxDropped => rfl

/-- Settles O23: the word that is presented is made of the sequencer's latches, and the sequencer stays. -/
theorem notificationHoldsUntilAcknowledged : Obligations.NotificationHoldsUntilAcknowledged := by
  intro s t e rest p hs h valid hack hrst
  have pending : (s.port p).phase = .tNtf := by simpa [State.ntfValid] using valid
  have same : t.port p = s.port p := (stepped_of_schedule hs h).port_eq_of_tNtf pending hack hrst
  exact ⟨by rw [State.ntfValid, same]; exact valid, by rw [State.ntfWord, same]; rfl, same⟩

/-! ### The sender's queue (R133 (b)) -/

/-- A step of a TRANSMIT leaves its sender's node as it is, if the node it accesses is another. -/
theorem Taken.sender_node {s t : State} {n : NodeIdx} {f : Frame} (h : Taken s (.transmit n f) t)
    (other : (s.port s.active).phase.inQueue = true → (s.port s.active).tgt ≠ n) : t.node n = s.node n := by
  have frame (hq : (s.port s.active).phase.inQueue = true) (g : Node → Node) :
      (s.updNode (s.port s.active).tgt g).node n = s.node n := s.node_updNode_ne g (other hq).symm
  cases h
  case answer eff => cases eff <;> rfl
  case wait | scanEnd | scanSkip | scanTarget => rfl
  case acquire hp _ _ => exact frame (by rw [hp]; rfl) _
  case store hp _ => exact frame (by rw [hp]; rfl) _
  case relNotify hp _ => exact frame (by rw [hp]; rfl) _
  case relAdvance hp _ => exact frame (by rw [hp]; rfl) _

/-- In a state that meets the invariant a TRANSMIT never accesses its sender's node. -/
theorem Port.SeqInv.tgt_ne_sender {c : Config} {q : Port} (h : q.SeqInv c) (hop : q.op = opTransmit)
    (hq : q.phase.inQueue = true) : q.tgt ≠ q.aNode := by
  obtain ⟨-, ⟨-, -, other⟩ | ⟨hop', -⟩⟩ := h.target (.inl hq)
  · exact other
  · rw [hop] at hop'
    exact absurd hop' (by decide)

/-- Settles O32: the invariant keeps the target off the sender, whose node the step then leaves whole. -/
theorem senderQueueIsNeverWritten : Obligations.SenderQueueIsNeverWritten := by
  intro s t p rest hinv hs h busy hop
  have same : t.node (s.port p).aNode = s.node (s.port p).aNode := by
    cases stepped_of_schedule hs h
    case runIdle idle => exact absurd idle busy
    case run i hp _ hi taken =>
      obtain rfl : i = .transmit (s.port p).aNode (s.port p).aFrame :=
        hi.symm.trans ((Port.instr_queue.1 _ _).2 ⟨hop, rfl, rfl⟩)
      exact taken.sender_node ((hinv.seqInv hp).tgt_ne_sender hop)
  exact ⟨congrArg Node.head same, congrArg Node.tail same, congrArg Node.slots same⟩

end Sys2Proof.Machine
end

section
/-! PROOFS. The Bus family (`40_bus.md`): a whole broadcast into which no other agent's step falls (R124, R133, R266).

The broadcast is run entry by entry of the registry. Between entries the state is `State.serving`: what the entries
before have done to the nodes and the record of outputs, with the port's sequencer given outright. -/

namespace Sys2Proof.Machine

/-! ### Undisturbed runs -/

/-- The steps `es`, with nothing in between, take `s` to `t`, whatever is scheduled after them. -/
def Reaches (s : State) (es : List Event) (t : State) : Prop :=
  ∀ rest, Sys2Proof.core.run es.length { s with schedule := es ++ rest } = .next { t with schedule := rest }

theorem Reaches.refl (s : State) : Reaches s [] s := fun _ => rfl

/-- One step, then the others. -/
theorem Reaches.cons {s t u : State} {e : Event} {es : List Event}
    (h : ∀ rest, runEvent e { s with schedule := rest } = .next { t with schedule := rest }) (hes : Reaches t es u) :
    Reaches s (e :: es) u := fun rest =>
  (core_run_succ (s := { s with schedule := e :: (es ++ rest) }) es.length (h (es ++ rest))).trans (hes rest)

/-- A run that ends in `t` may go on from there. -/
theorem core_run_add {j k : Nat} {s t : State} (h : Sys2Proof.core.run j s = .next t) :
    Sys2Proof.core.run (j + k) s = Sys2Proof.core.run k t := by
  induction j generalizing s with
  | zero => cases h; rw [Nat.zero_add]
  | succ j ih =>
    rw [Nat.add_right_comm]
    cases hs : step s with
    | next u => rw [core_run_succ _ hs] at h ⊢; exact ih h
    | fault r | refused r =>
      have stop : Sys2Proof.core.step s = _ := hs
      simp only [Host.Core.run, stop, reduceCtorEq] at h

theorem Reaches.append {s t u : State} {es es' : List Event} (h : Reaches s es t) (h' : Reaches t es' u) :
    Reaches s (es ++ es') u := fun rest => by
  rw [List.length_append, List.append_assoc, core_run_add (h (es' ++ rest))]
  exact h' rest

/-- The port whose sequencer is run first need not be the active one yet. -/
theorem Reaches.of_active {s t : State} {p : Nat} {es : List Event} (hp : p < s.cfg.nPorts)
    (busy : (s.port p).phase ≠ .idle) (h : Reaches { s with active := p } (.run p :: es) t) :
    Reaches s (.run p :: es) t := fun rest => by
  have same : step { s with schedule := .run p :: es ++ rest } =
      step { s with active := p, schedule := .run p :: es ++ rest } :=
    (runEvent_run_of_busy (s := { s with schedule := es ++ rest }) hp busy).trans
      (runEvent_run_of_busy (s := { s with active := p, schedule := es ++ rest }) hp busy).symm
  have same' : Sys2Proof.core.step { s with schedule := .run p :: es ++ rest } =
      Sys2Proof.core.step { s with active := p, schedule := .run p :: es ++ rest } := same
  rw [← h rest]
  simp only [List.length_cons, Host.Core.run, same']

/-! ### A port given outright -/

/-- `s` with port `p` active and its sequencer `q`. -/
def State.serving (s : State) (p : Nat) (q : Port) : State :=
  { s with ports := s.ports.modify p fun _ => q, active := p }

theorem State.serving_updPort (s : State) (p : Nat) (q : Port) (g : Port → Port) :
    (s.serving p q).updPort p g = s.serving p (g q) := by
  simp [State.serving, State.updPort, List.modify_modify_eq, Function.comp_def]

/-- A port changed and made active. -/
theorem State.updPort_active_eq_serving (s : State) (p : Nat) (g : Port → Port) :
    { s.updPort p g with active := p } = s.serving p (g (s.port p)) :=
  congrArg (fun u : State => { u with active := p })
    (State.updPort_congr (s := s) (p := p) (g := g) (g' := fun _ => g (s.port p)) rfl)

theorem State.serving_port {s : State} {p : Nat} (held : p < s.ports.length) (q : Port) :
    (s.serving p q).port p = q := s.port_updPort_self p (fun _ => q) held

/-! ### The steps of a broadcast from such a state -/

section
variable {s : State} {p : Nat} {q : Port} (hp : p < s.cfg.nPorts) (held : p < s.ports.length)
include hp held

/-- The acknowledgement (R128). -/
theorem runEvent_ack_serving (hph : q.phase = .tNtf) :
    runEvent (.ack p) (s.serving p q) = .next (s.serving p { q with cur := q.cur + 1, phase := .tScan }) := by
  have pending : ((s.serving p q).port p).phase = .tNtf := by rw [State.serving_port held, hph]
  rw [runEvent_ack_of_tNtf (s := s.serving p q) hp pending]
  exact congrArg _ (s.serving_updPort p q _)

variable {snd : NodeIdx} {f : Frame} (hi : q.instr = .transmit snd f)
include hi

/-- The port's sequencer runs the TRANSMIT. -/
theorem runEvent_run_serving (busy : q.phase ≠ .idle) :
    runEvent (.run p) (s.serving p q) = exec (.transmit snd f) (s.serving p q) := by
  have port := State.serving_port held q
  rw [runEvent_run_of_busy (s := s.serving p q) hp (by rw [port]; exact busy), port, hi]
  rfl

/-! The loop head (R125). -/

theorem runEvent_run_serving_tScan (hph : q.phase = .tScan) :
    runEvent (.run p) (s.serving p q) = .next ((s.serving p q).tScan p snd) :=
  (runEvent_run_serving hp held hi (by simp [hph])).trans
    (exec_transmit_of_tScan snd f (by rw [← hph]; exact congrArg _ (State.serving_port held q)))

theorem runEvent_run_serving_past (hph : q.phase = .tScan) (past : s.registry[q.cur]? = none) :
    runEvent (.run p) (s.serving p q) = .next ((s.emit (.response p 0x3)).serving p { q with phase := .idle }) := by
  have past' : (s.serving p q).registry[((s.serving p q).port p).cur]? = none := by
    rw [State.serving_port held]; exact past
  rw [runEvent_run_serving_tScan hp held hi hph, State.tScan_of_past snd past', State.complete, State.respond,
    responseWord_bare]
  exact congrArg _ ((s.emit _).serving_updPort p q _)

theorem runEvent_run_serving_sender (hph : q.phase = .tScan) (own : s.registry[q.cur]? = some snd) :
    runEvent (.run p) (s.serving p q) = .next (s.serving p { q with cur := q.cur + 1, phase := .tScan }) := by
  have own' : (s.serving p q).registry[((s.serving p q).port p).cur]? = some snd := by
    rw [State.serving_port held]; exact own
  rw [runEvent_run_serving_tScan hp held hi hph, State.tScan_of_sender own']
  exact congrArg _ (s.serving_updPort p q _)

theorem runEvent_run_serving_other (hph : q.phase = .tScan) {e : NodeIdx} (entry : s.registry[q.cur]? = some e)
    (other : e ≠ snd) :
    runEvent (.run p) (s.serving p q) = .next (s.serving p { q with tgt := e, phase := .qAcq }) := by
  have entry' : (s.serving p q).registry[((s.serving p q).port p).cur]? = some e := by
    rw [State.serving_port held]; exact entry
  rw [runEvent_run_serving_tScan hp held hi hph, State.tScan_of_other entry' other]
  exact congrArg _ (s.serving_updPort p q _)

/-! The queue access of one receiver (R150, R151, R153). -/

theorem runEvent_run_serving_acquire (hph : q.phase = .qAcq) (free : (s.node q.tgt).lock = .free) :
    runEvent (.run p) (s.serving p q) =
      .next ((s.updNode q.tgt fun m => { m with lock := .held p }).serving p { q with phase := .qBody }) := by
  have port := State.serving_port held q
  have free' : ((s.serving p q).node q.tgt).lock = .free := free
  have acquire : (s.serving p q).qAcq p =
      (s.updNode q.tgt fun m => { m with lock := .held p }).serving p { q with phase := .qBody } := by
    simp only [State.qAcq, port, free', if_true]
    exact State.serving_updPort (s.updNode _ _) p q _
  rw [runEvent_run_serving hp held hi (by simp [hph]), ← acquire]
  exact exec_transmit_of_qAcq snd f (by rw [← hph]; exact congrArg _ port)

theorem runEvent_run_serving_store (hph : q.phase = .qBody) :
    runEvent (.run p) (s.serving p q) =
      .next ((s.updNode q.tgt fun m => m.store s.cfg.queueCap f).serving p { q with phase := .qRel }) := by
  have port := State.serving_port held q
  have store : (s.serving p q).qBodyStore p f =
      (s.updNode q.tgt fun m => m.store s.cfg.queueCap f).serving p { q with phase := .qRel } := by
    simp only [State.qBodyStore, port]
    exact State.serving_updPort (s.updNode _ _) p q _
  rw [runEvent_run_serving hp held hi (by simp [hph]), ← store]
  exact exec_transmit_of_qBody snd f (by rw [← hph]; exact congrArg _ port)

theorem runEvent_run_serving_qRel (hph : q.phase = .qRel) :
    runEvent (.run p) (s.serving p q) = .next ((s.serving p q).qRelTransmit p f) :=
  (runEvent_run_serving hp held hi (by simp [hph])).trans
    (exec_transmit_of_qRel snd f (by rw [← hph]; exact congrArg _ (State.serving_port held q)))

theorem runEvent_run_serving_notify (hph : q.phase = .qRel) (en : (s.node q.tgt).notifyEn = true) :
    runEvent (.run p) (s.serving p q) =
      .next (((s.updNode q.tgt fun m => { m with lock := .free }).emit
        (.notification p (ntfWordOf q.tgt f))).serving p { q with phase := .tNtf }) := by
  have port := State.serving_port held q
  have en' : ((s.serving p q).node q.tgt).notifyEn = true := en
  rw [runEvent_run_serving_qRel hp held hi hph]
  simp only [State.qRelTransmit, State.unlock, State.notify, State.updNode_port, port, en', if_true,
    notificationWord_eq]
  exact congrArg _ (State.serving_updPort ((s.updNode _ _).emit _) p q _)

theorem runEvent_run_serving_advance (hph : q.phase = .qRel) (off : (s.node q.tgt).notifyEn = false) :
    runEvent (.run p) (s.serving p q) =
      .next ((s.updNode q.tgt fun m => { m with lock := .free }).serving p
        { q with cur := q.cur + 1, phase := .tScan }) := by
  have port := State.serving_port held q
  have off' : ((s.serving p q).node q.tgt).notifyEn = false := off
  rw [runEvent_run_serving_qRel hp held hi hph]
  simp only [State.qRelTransmit, State.unlock, port, off', Bool.false_eq_true, if_false]
  exact congrArg _ (State.serving_updPort (s.updNode _ _) p q _)

end

/-! ### One entry of the registry -/

/-- What a broadcast of `f` on port `p` does at the entry of node `n`: one store, and a notification if the node has the
capability (R133, R134). -/
def State.deliver (p : Nat) (f : Frame) (s : State) (n : NodeIdx) : State :=
  { s with
    nodes := s.nodes.modify n.toNat fun m => m.store s.cfg.queueCap f
    history := s.history ++ if (s.node n).notifyEn then [.notification p (ntfWordOf n f)] else [] }

/-- A delivery leaves whatever a store body leaves, at every node. -/
theorem State.deliver_node_proj {α : Type} (s : State) (p : Nat) (f : Frame) (n k : NodeIdx) (π : Node → α)
    (hπ : ∀ m, π (m.store s.cfg.queueCap f) = π m) : π ((s.deliver p f n).node k) = π (s.node k) :=
  s.node_updNode_proj k n (fun m => m.store s.cfg.queueCap f) π hπ

/-- `s` after port `p` has taken the lock of node `n` and stored `f` there (R150, R151). -/
def State.lockedStore (p : Nat) (f : Frame) (s : State) (n : NodeIdx) : State :=
  (s.updNode n fun m => { m with lock := .held p }).updNode n fun m => m.store s.cfg.queueCap f

theorem State.lockedStore_notifyEn (p : Nat) (f : Frame) (s : State) (n : NodeIdx) :
    ((s.lockedStore p f n).node n).notifyEn = (s.node n).notifyEn :=
  (State.node_updNode_proj _ n n (fun m => m.store s.cfg.queueCap f) Node.notifyEn fun _ => rfl).trans
    (s.node_updNode_proj n n (fun m => { m with lock := .held p }) Node.notifyEn fun _ => rfl)

/-- Taking a FREE lock, storing, and freeing the lock is storing. -/
theorem State.lockedStore_unlock (p : Nat) (f : Frame) {s : State} {n : NodeIdx} (free : (s.node n).lock = .free) :
    (s.lockedStore p f n).updNode n (fun m => { m with lock := .free }) =
      s.updNode n fun m => m.store s.cfg.queueCap f :=
  calc (s.lockedStore p f n).updNode n (fun m => { m with lock := .free })
    _ = s.updNode n fun m => { m.store s.cfg.queueCap f with lock := .free } := by
      simp [State.lockedStore, State.updNode, List.modify_modify_eq, Function.comp_def, Node.store]
    _ = s.updNode n fun m => m.store s.cfg.queueCap f := State.updNode_congr (by rw [← free]; rfl)

theorem State.deliver_of_notifyEn {s : State} {n : NodeIdx} (en : (s.node n).notifyEn = true) (p : Nat) (f : Frame) :
    s.deliver p f n =
      (s.updNode n fun m => m.store s.cfg.queueCap f).emit (.notification p (ntfWordOf n f)) := by
  rw [State.deliver, if_pos en]
  rfl

theorem State.deliver_of_not_notifyEn {s : State} {n : NodeIdx} (off : (s.node n).notifyEn = false) (p : Nat)
    (f : Frame) : s.deliver p f n = s.updNode n fun m => m.store s.cfg.queueCap f := by
  rw [State.deliver, if_neg (by simp [off]), List.append_nil]
  rfl

section
variable {s : State} {p : Nat} {q : Port} {snd : NodeIdx} {f : Frame} (hp : p < s.cfg.nPorts)
  (held : p < s.ports.length) (hi : q.instr = .transmit snd f) (hph : q.phase = .tScan)
include hp held hi hph

/-- The first three steps at the entry of a node other than the sender, whose lock is FREE. -/
theorem reaches_lockedStore {e : NodeIdx} (entry : s.registry[q.cur]? = some e) (other : e ≠ snd)
    (free : (s.node e).lock = .free) :
    Reaches (s.serving p q) [.run p, .run p, .run p]
      ((s.lockedStore p f e).serving p { q with tgt := e, phase := .qRel }) := by
  refine .cons (t := s.serving p { q with tgt := e, phase := .qAcq }) (fun rest => ?scan) <|
    .cons (t := (s.updNode e fun m => { m with lock := .held p }).serving p { q with tgt := e, phase := .qBody })
      (fun rest => ?acquire) <|
    .cons (fun rest => ?store) (.refl _)
  case scan => exact runEvent_run_serving_other (s := { s with schedule := rest }) hp held hi hph entry other
  case acquire =>
    exact runEvent_run_serving_acquire (s := { s with schedule := rest })
      (q := { q with tgt := e, phase := .qAcq }) hp held hi rfl free
  case store =>
    exact runEvent_run_serving_store
      (s := { s.updNode e fun m => { m with lock := .held p } with schedule := rest })
      (q := { q with tgt := e, phase := .qBody }) hp held hi rfl

/-- All the steps at that entry, the acknowledgement included: one delivery, and the cursor moves on. -/
theorem reaches_deliver {e : NodeIdx} (entry : s.registry[q.cur]? = some e) (other : e ≠ snd)
    (free : (s.node e).lock = .free) :
    Reaches (s.serving p q) ([.run p, .run p, .run p, .run p] ++ if (s.node e).notifyEn then [.ack p] else [])
      ((s.deliver p f e).serving p { q with tgt := e, cur := q.cur + 1, phase := .tScan }) := by
  have stored := reaches_lockedStore hp held hi hph entry other free
  have flag := s.lockedStore_notifyEn p f e
  cases en : (s.node e).notifyEn with
  | true =>
    refine stored.append (.cons (t := (s.deliver p f e).serving p { q with tgt := e, phase := .tNtf })
      (fun rest => ?notify) <| .cons (fun rest => ?ack) (.refl _))
    case notify =>
      rw [State.deliver_of_notifyEn en, ← State.lockedStore_unlock p f free]
      exact runEvent_run_serving_notify (s := { s.lockedStore p f e with schedule := rest })
        (q := { q with tgt := e, phase := .qRel }) hp held hi rfl (flag.trans en)
    case ack =>
      exact runEvent_ack_serving (s := { s.deliver p f e with schedule := rest })
        (q := { q with tgt := e, phase := .tNtf }) hp held rfl
  | false =>
    refine stored.append (.cons (fun rest => ?_) (.refl _))
    rw [State.deliver_of_not_notifyEn en, ← State.lockedStore_unlock p f free]
    exact runEvent_run_serving_advance (s := { s.lockedStore p f e with schedule := rest })
      (q := { q with tgt := e, phase := .qRel }) hp held hi rfl (flag.trans en)

end

/-! ### The whole broadcast -/

/-- The deliveries to a list of nodes, one after the other. -/
theorem State.foldl_deliver (p : Nat) (f : Frame) (ns : List NodeIdx) (s : State) :
    ns.foldl (State.deliver p f) s = { s with
      nodes := ns.foldl (fun ms e => ms.modify e.toNat fun m => m.store s.cfg.queueCap f) s.nodes
      history := s.history ++
        (ns.filter fun e => (s.node e).notifyEn).map fun e => .notification p (ntfWordOf e f) } := by
  induction ns generalizing s with
  | nil => simp
  | cons n ns ih =>
    have flags (k : NodeIdx) : ((s.deliver p f n).node k).notifyEn = (s.node k).notifyEn :=
      s.deliver_node_proj p f n k Node.notifyEn fun _ => rfl
    rw [List.foldl_cons, ih]
    simp only [flags, List.filter_cons]
    split <;> simp [State.deliver, *]

/-- The steps depend on the notify capabilities only. -/
theorem broadcastSteps_congr {s t : State} (h : ∀ n, (t.node n).notifyEn = (s.node n).notifyEn) (p : Nat)
    (snd : NodeIdx) (es : List NodeIdx) : broadcastSteps t p snd es = broadcastSteps s p snd es := by
  induction es with
  | nil => rfl
  | cons e es ih => rw [broadcastSteps, broadcastSteps, ih, h]

/-- A broadcast starts with a step of its port's sequencer. -/
theorem broadcastSteps_eq_cons (s : State) (p : Nat) (snd : NodeIdx) (es : List NodeIdx) :
    ∃ es', broadcastSteps s p snd es = .run p :: es' := by
  cases es with
  | nil => exact ⟨_, rfl⟩
  | cons e es =>
    rw [broadcastSteps]
    split
    · exact ⟨_, rfl⟩
    · exact ⟨_, rfl⟩

/-- R266: a step for each entry and one past the last, three more for each receiver, one for each acknowledgement. -/
theorem length_broadcastSteps (s : State) (p : Nat) (snd : NodeIdx) (es : List NodeIdx) :
    (broadcastSteps s p snd es).length = (es.length + 1) + 3 * (es.filter (· ≠ snd)).length +
      ((es.filter (· ≠ snd)).filter fun e => (s.node e).notifyEn).length := by
  induction es with
  | nil => rfl
  | cons e es ih =>
    rw [broadcastSteps, List.length_append, ih]
    by_cases own : e = snd
    · simp [own]
      omega
    · cases en : (s.node e).notifyEn <;> simp [own, en] <;> omega

/-- From any cursor on: a delivery for each remaining entry but the sender's, in registry order, then the answer. A
delivery leaves the locks and the notify capabilities, so it leaves the steps at the entries after it. -/
theorem reaches_broadcast {p : Nat} {snd : NodeIdx} {f : Frame} (es : List NodeIdx) {s : State} {q : Port}
    (hp : p < s.cfg.nPorts) (held : p < s.ports.length) (hi : q.instr = .transmit snd f) (hph : q.phase = .tScan)
    (hes : s.registry.drop q.cur = es) (free : ∀ e ∈ es.filter (· ≠ snd), (s.node e).lock = .free) :
    ∃ q', q'.phase = .idle ∧ Reaches (s.serving p q) (broadcastSteps s p snd es)
      ((((es.filter (· ≠ snd)).foldl (State.deliver p f) s).emit (.response p 0x3)).serving p q') := by
  induction es generalizing s q with
  | nil =>
    have past : s.registry[q.cur]? = none := List.getElem?_eq_none (List.drop_eq_nil_iff.1 hes)
    refine ⟨{ q with phase := .idle }, rfl, .cons (fun rest => ?_) (.refl _)⟩
    exact runEvent_run_serving_past (s := { s with schedule := rest }) hp held hi hph past
  | cons e es ih =>
    have entry : s.registry[q.cur]? = some e := by
      rw [← Nat.add_zero q.cur, ← List.getElem?_drop, hes]
      rfl
    have hes' : s.registry.drop (q.cur + 1) = es := by rw [← List.tail_drop, hes]; rfl
    by_cases own : e = snd
    · subst own
      have receivers : (e :: es).filter (· ≠ e) = es.filter (· ≠ e) := by simp
      rw [receivers] at free ⊢
      obtain ⟨q', idle, run⟩ := ih (q := { q with cur := q.cur + 1, phase := .tScan }) hp held hi rfl hes' free
      refine ⟨q', idle, ?_⟩
      rw [broadcastSteps, if_pos rfl]
      refine .cons (fun rest => ?_) run
      exact runEvent_run_serving_sender (s := { s with schedule := rest }) hp held hi hph entry
    · have receivers : (e :: es).filter (· ≠ snd) = e :: es.filter (· ≠ snd) := by simp [own]
      rw [receivers] at free ⊢
      have keeps {α : Type} (π : Node → α) (hπ : ∀ m, π (m.store s.cfg.queueCap f) = π m) (k : NodeIdx) :
          π ((s.deliver p f e).node k) = π (s.node k) := s.deliver_node_proj p f e k π hπ
      obtain ⟨q', idle, run⟩ := ih (s := s.deliver p f e)
        (q := { q with tgt := e, cur := q.cur + 1, phase := .tScan }) hp held hi rfl hes' fun k hk =>
          (keeps Node.lock (fun _ => rfl) k).trans (free k (List.mem_cons_of_mem _ hk))
      rw [broadcastSteps_congr (keeps Node.notifyEn fun _ => rfl)] at run
      refine ⟨q', idle, ?_⟩
      rw [broadcastSteps, if_neg own]
      exact (reaches_deliver hp held hi hph entry own (free e List.mem_cons_self)).append run

/-- A TRANSMIT of a sender that exists starts with the scan (R120). -/
theorem Port.latch_phase_of_transmit {c : Config} {w : CmdWord} (hop : opField w = 0x3)
    (hn : (nodeField w).toNat < c.nNodes) (q : Port) : (q.latch c w).phase = .tScan :=
  (firstPhase_eq c (opField w) (nodeField w)).trans (if_pos ⟨hop, fun bad => absurd bad.2 (Nat.not_le.2 hn)⟩)

/-- Settles O31: Accept loads the sequencer, which then runs the broadcast over the registry from its first entry. -/
theorem broadcastDeliversOnceToEveryReceiver : Obligations.BroadcastDeliversOnceToEveryReceiver := by
  intro s p w rest hinv hp idle hop hn snd f receivers notified steps free
  have held : p < s.ports.length := hinv.shape.2 ▸ hp
  have scan : ((s.port p).latch s.cfg w).phase = .tScan := Port.latch_phase_of_transmit hop hn _
  have instr : ((s.port p).latch s.cfg w).instr = .transmit snd f := (Port.instr_queue.1 _ _).2 ⟨hop, rfl, rfl⟩
  obtain ⟨q', idle', broadcast⟩ := reaches_broadcast s.registry hp held instr scan List.drop_zero free
  have accepted : (s.latch p w).port p = (s.port p).latch s.cfg w := s.port_updPort_self p _ held
  have run : Reaches s steps
      (((receivers.foldl (State.deliver p f) s).emit (.response p 0x3)).serving p q') := by
    obtain ⟨es, hes⟩ := broadcastSteps_eq_cons s p snd s.registry
    refine .cons (t := s.latch p w) (runEvent_accept_of_idle (s := { s with schedule := · }) hp idle w) ?_
    rw [hes] at broadcast ⊢
    rw [← s.updPort_active_eq_serving p (Port.latch s.cfg w)] at broadcast
    exact .of_active (s := s.latch p w) hp (by rw [accepted, scan]; exact nofun) broadcast
  rw [State.foldl_deliver] at run
  refine ⟨?_, _, run rest, rfl, rfl, rfl, rfl, rfl, rfl, ?_, fun r hr => ?_⟩
  · have length : (broadcastSteps s p snd s.registry).length =
        (s.registry.length + 1) + 3 * receivers.length + notified.length := length_broadcastSteps s p snd _
    rw [List.length_cons, length]
    omega
  · rw [← idle']
    exact congrArg Port.phase (s.port_updPort_self p (fun _ => q') held)
  · exact s.port_updPort_ne (fun _ => q') hr

end Sys2Proof.Machine
end

section
/-! PROOFS. The node queue (`41_node_queue.md`): the law of one queue (R24 to R26, R151, R152, R156 to R159). Which
frames a queue holds after the store bodies and load bodies on it, whatever step of the machine each of them is. -/

namespace Sys2Proof.Machine

/-! ### The apparent occupancy (R25, R26, R157) -/

theorem Node.isEmpty_iff {m : Node} : m.isEmpty = true ↔ m.head = m.tail := by simp [Node.isEmpty]

theorem Node.not_isEmpty_iff {m : Node} : m.isEmpty = false ↔ m.head ≠ m.tail := by simp [Node.isEmpty]

theorem Node.occ_lt {c : Nat} (hc : 2 ≤ c) (m : Node) : m.occ c < c := Nat.mod_lt _ (by omega)

section
variable {c : Nat} {m : Node} (hh : m.head < c) (ht : m.tail < c)
include hh ht

theorem Node.occ_eq_zero_iff : m.occ c = 0 ↔ m.head = m.tail := by
  rw [Node.occ_eq hh ht]
  split_ifs <;> omega

/-- The slot behind the pending ones is the one at `head`. -/
theorem Node.tail_add_occ : (m.tail + m.occ c) % c = m.head := by
  have hlt : m.occ c < c := Nat.mod_lt _ (by omega)
  rw [add_mod_cap ht hlt, Node.occ_eq hh ht]
  split_ifs <;> omega

/-- No pending slot is the one at `head`. -/
theorem Node.tail_add_ne_head {j : Nat} (hj : j < m.occ c) : (m.tail + j) % c ≠ m.head := by
  have hlt : m.occ c < c := Nat.mod_lt _ (by omega)
  rw [add_mod_cap ht (hj.trans hlt)]
  rw [Node.occ_eq hh ht] at hj
  split_ifs at hj ⊢ <;> omega

/-- A store adds one to the apparent occupancy, or empties a queue that reads as holding `C - 1` frames. -/
theorem Node.occ_store (hc : 2 ≤ c) (f : Frame) :
    (m.store c f).occ c = if m.occ c + 1 < c then m.occ c + 1 else 0 := by
  have hnext : (m.store c f).head = if m.head + 1 < c then m.head + 1 else 0 := nextIndex_eq hc hh
  have hh' : (m.store c f).head < c := Nat.mod_lt _ (by omega)
  rw [Node.occ_eq (m := m.store c f) hh' ht, Node.occ_eq hh ht, hnext, show (m.store c f).tail = m.tail from rfl]
  split_ifs <;> omega

/-- A load from a queue that is not empty takes one from the apparent occupancy. -/
theorem Node.occ_load (hc : 2 ≤ c) (full : m.isEmpty = false) : (m.load c).occ c + 1 = m.occ c := by
  have hne := Node.not_isEmpty_iff.1 full
  have hnext : (m.load c).tail = if m.tail + 1 < c then m.tail + 1 else 0 := nextIndex_eq hc ht
  have ht' : (m.load c).tail < c := Nat.mod_lt _ (by omega)
  rw [Node.occ_eq (m := m.load c) hh ht', Node.occ_eq hh ht, hnext, show (m.load c).head = m.head from rfl]
  split_ifs <;> omega

end

/-- Settles O34: a store adds one to the occupancy modulo `C`, and the slot it writes is behind the pending ones. -/
theorem overflowEmptiesQueue : Obligations.OverflowEmptiesQueue := by
  intro c m f hc hh ht t
  have hh' : t.head < c := Nat.mod_lt _ (by omega)
  have occ : t.occ c = if m.occ c + 1 < c then m.occ c + 1 else 0 := Node.occ_store hh ht hc f
  have zero : t.occ c = 0 ↔ t.head = t.tail := Node.occ_eq_zero_iff hh' ht
  refine ⟨Node.occ_lt hc m, Node.occ_eq_zero_iff hh ht, fun room => ?_, fun last => ?_, rfl⟩
  · rw [if_pos (by omega)] at occ
    exact ⟨occ, Node.not_isEmpty_iff.2 fun e => by have := zero.2 e; omega⟩
  · rw [if_neg (by omega)] at occ
    exact ⟨occ, Node.isEmpty_iff.2 (zero.1 occ), fun j hj => Node.tail_add_ne_head hh ht hj⟩

/-! ### A queue and its record (R158) -/

theorem Node.recorded_reset (c : Nat) : Node.reset.Recorded c ([], []) := by
  have occ : Node.reset.occ c = 0 := by simp [Node.occ, Node.reset]
  exact ⟨(Nat.zero_mod c).symm, (Nat.zero_mod c).symm, le_rfl, by simp [occ], List.nil_sublist _⟩

section
variable {c : Nat} {m : Node} {log : List Frame × List Frame} (hc : 2 ≤ c) (h : m.Recorded c log)
include hc h

theorem Node.Recorded.head_lt : m.head < c := h.1 ▸ Nat.mod_lt _ (by omega)

theorem Node.Recorded.tail_lt : m.tail < c := h.2.1 ▸ Nat.mod_lt _ (by omega)

/-- The apparent occupancy is the number of frames not yet returned, modulo `C` (R157). -/
theorem Node.Recorded.occ_eq : m.occ c = (log.1.length - log.2.length) % c := by
  obtain ⟨hhead, htail, hle, -⟩ := h
  have hd : log.2.length % c < c := Nat.mod_lt _ (by omega)
  rw [Node.occ, hhead, htail]
  refine Nat.ModEq.add_right_cancel' (log.2.length % c) ?_
  calc log.1.length % c + c - log.2.length % c + log.2.length % c
    _ = log.1.length % c + c := by omega
    _ ≡ log.1.length [MOD c] := by simp [Nat.ModEq]
    _ = log.1.length - log.2.length + log.2.length := by omega
    _ ≡ log.1.length - log.2.length + log.2.length % c [MOD c] := by simp [Nat.ModEq]

theorem Node.Recorded.occ_le : m.occ c ≤ log.1.length :=
  (h.occ_eq hc).trans_le ((Nat.mod_le _ _).trans (Nat.sub_le _ _))

/-- The slot at `tail` of a queue that is not empty holds the oldest of the pending frames. -/
theorem Node.Recorded.oldest (full : m.isEmpty = false) :
    ∃ f, Memory.read? m.slots m.tail = some f ∧ log.1[log.1.length - m.occ c]? = some f := by
  have hpos : 0 < m.occ c := Nat.pos_of_ne_zero fun e =>
    Node.not_isEmpty_iff.1 full ((Node.occ_eq_zero_iff (h.head_lt hc) (h.tail_lt hc)).1 e)
  have hlt : log.1.length - m.occ c < log.1.length := Nat.sub_lt (hpos.trans_le (h.occ_le hc)) hpos
  have ht := h.tail_lt hc
  obtain ⟨-, -, -, hslots, -⟩ := h
  have slot := hslots 0 hpos
  rw [Nat.add_zero, Nat.mod_eq_of_lt ht, Nat.add_zero] at slot
  exact ⟨_, slot.trans (List.getElem?_eq_getElem hlt), List.getElem?_eq_getElem hlt⟩

/-- The store body (R151): the frame is the newest pending one, or every frame before it is lost to the queue. -/
theorem Node.Recorded.store (f : Frame) : (m.store c f).Recorded c (log.1 ++ [f], log.2) := by
  have hh := h.head_lt hc
  have ht := h.tail_lt hc
  have hocc := h.occ_le hc
  have occ := Node.occ_store hh ht hc f
  obtain ⟨hhead, htail, hle, hslots, hsub⟩ := h
  have length : (log.1 ++ [f]).length = log.1.length + 1 := List.length_append
  refine ⟨?_, htail, by simp only [length]; omega, fun j hj => ?_, ?_⟩
  · change (m.head + 1) % c = (log.1 ++ [f]).length % c
    rw [length, hhead, Nat.mod_add_mod]
  · split_ifs at occ with room
    · rw [occ, length, Nat.add_sub_add_right]
      change Memory.read? (Memory.write m.slots m.head f) ((m.tail + j) % c) = (log.1 ++ [f])[_]?
      rw [Memory.read?_write]
      obtain pending | rfl : j < m.occ c ∨ j = m.occ c := by omega
      · rw [if_neg (Node.tail_add_ne_head hh ht pending), hslots j pending,
          List.getElem?_append_left (by omega)]
      · rw [if_pos (Node.tail_add_occ hh ht), Nat.sub_add_cancel hocc, List.getElem?_concat_length]
    · omega
  · split_ifs at occ with room
    · rw [occ, length, Nat.add_sub_add_right, List.take_append_of_le_length (Nat.sub_le _ _)]
      exact hsub
    · rw [occ, Nat.sub_zero, List.take_length]
      exact (hsub.trans (List.take_sublist _ _)).trans (List.sublist_append_left _ _)

/-- The load body on a queue that is not empty (R152): the oldest pending frame is returned. -/
theorem Node.Recorded.load (full : m.isEmpty = false) {f : Frame} (hf : Memory.read? m.slots m.tail = some f) :
    (m.load c).Recorded c (log.1, log.2 ++ [f]) := by
  have occ := Node.occ_load (h.head_lt hc) (h.tail_lt hc) hc full
  have hocc := h.occ_le hc
  obtain ⟨f', hf', hold⟩ := h.oldest hc full
  obtain rfl : f' = f := Option.some.inj (hf'.symm.trans hf)
  obtain ⟨hhead, htail, hle, hslots, hsub⟩ := h
  have next : log.1.length - (m.load c).occ c = log.1.length - m.occ c + 1 := by omega
  have returned : (log.2 ++ [f']).Sublist (log.1.take (log.1.length - (m.load c).occ c)) := by
    rw [next, List.take_add_one, hold]
    exact hsub.append (List.Sublist.refl _)
  refine ⟨hhead, ?_, returned.length_le.trans (List.take_sublist _ _).length_le, fun j hj => ?_, returned⟩
  · change (m.tail + 1) % c = (log.2 ++ [f']).length % c
    rw [List.length_append, htail, Nat.mod_add_mod]
    rfl
  · change Memory.read? m.slots (((m.tail + 1) % c + j) % c) = log.1[log.1.length - (m.load c).occ c + j]?
    rw [Nat.mod_add_mod, Nat.add_assoc, Nat.add_comm 1 j, hslots (j + 1) (by omega), next, Nat.add_right_comm]
    rfl

end

/-! ### Sequences of bodies -/

theorem QueueRun.body_load_of_full {c : Nat} {r : QueueRun} (full : r.node.isEmpty = false) {f : Frame}
    (hf : Memory.read? r.node.slots r.node.tail = some f) :
    QueueRun.body c r .load = { r with node := r.node.load c, returned := r.returned ++ [f] } := by
  simp [QueueRun.body, full, hf]

/-- Every body keeps a queue in agreement with its record. -/
theorem QueueRun.recorded_body {c : Nat} (hc : 2 ≤ c) {r : QueueRun} (h : r.node.Recorded c (r.stored, r.returned)) :
    ∀ b, (QueueRun.body c r b).node.Recorded c ((QueueRun.body c r b).stored, (QueueRun.body c r b).returned)
  | .store f => h.store hc f
  | .load => by
    cases full : r.node.isEmpty with
    | true => simpa [QueueRun.body, full] using h
    | false =>
      obtain ⟨f, hf, -⟩ := h.oldest hc full
      rw [QueueRun.body_load_of_full full hf]
      exact h.load hc full hf

theorem QueueRun.recorded_after {c : Nat} (hc : 2 ≤ c) (bs : List Body) :
    (QueueRun.after c bs).node.Recorded c ((QueueRun.after c bs).stored, (QueueRun.after c bs).returned) :=
  List.foldlRecOn bs (QueueRun.body c) (motive := fun r => r.node.Recorded c (r.stored, r.returned))
    (Node.recorded_reset c) fun _ h b _ => QueueRun.recorded_body hc h b

/-- Settles O35: the queue agrees with its record, whose oldest pending frame the next load returns. -/
theorem queueReturnsFramesInStoreOrder : Obligations.QueueReturnsFramesInStoreOrder := by
  intro c bs hc r k d
  have h : r.node.Recorded c (r.stored, r.returned) := QueueRun.recorded_after hc bs
  have full (pos : 1 ≤ r.node.occ c) : r.node.isEmpty = false := Node.not_isEmpty_iff.2 fun e => by
    have := (Node.occ_eq_zero_iff (h.head_lt hc) (h.tail_lt hc)).2 e
    omega
  have occ := h.occ_eq hc
  have oldest := h.oldest hc
  obtain ⟨hhead, htail, hle, -, hsub⟩ := h
  refine ⟨hhead, htail, hle, occ, hsub.trans (List.take_sublist _ _), fun pos => ?_, fun pos => ?_⟩
  · obtain ⟨f, hf, hold⟩ := oldest (full pos)
    exact hf.trans hold.symm
  · obtain ⟨f, hf, hold⟩ := oldest (full pos)
    rw [QueueRun.body_load_of_full (full pos) hf, show r.stored[k - r.node.occ c]? = some f from hold]
    rfl

end Sys2Proof.Machine
end
section
/-! PROOFS. The node queue (`41_node_queue.md`): the steps of a queue access (R150 to R153), each written out, and the
frame that a load answers (R158 (b)). -/

namespace Sys2Proof.Machine

/-! ### ENQUEUE and DEQUEUE, phase by phase (R154, R155) -/

section
variable {s : State} (n : NodeIdx) (f : Frame)

theorem exec_enqueue_of_qAcq (h : (s.port s.active).phase = .qAcq) :
    exec (.enqueue n f) s = .next (s.qAcq s.active) := by
  simp only [exec, execEnqueue, h]

theorem exec_enqueue_of_qBody (h : (s.port s.active).phase = .qBody) :
    exec (.enqueue n f) s = .next (s.qBodyStore s.active f) := by
  simp only [exec, execEnqueue, h]

theorem exec_enqueue_of_qRel (h : (s.port s.active).phase = .qRel) :
    exec (.enqueue n f) s = .next ((s.unlock s.active).complete s.active opEnqueue) := by
  simp only [exec, execEnqueue, h]

theorem exec_dequeue_of_qAcq (h : (s.port s.active).phase = .qAcq) :
    exec (.dequeue n) s = .next (s.qAcq s.active) := by
  simp only [exec, execDequeue, h]

theorem exec_dequeue_of_qBody (h : (s.port s.active).phase = .qBody) :
    exec (.dequeue n) s = .next (s.qBodyLoad s.active) := by
  simp only [exec, execDequeue, h]

theorem exec_dequeue_of_qRel (h : (s.port s.active).phase = .qRel) :
    exec (.dequeue n) s = .next (s.qRelDequeue s.active) := by
  simp only [exec, execDequeue, h]

end

/-! ### QAcq (R150) -/

theorem State.qAcq_of_free {s : State} {p : Nat} (free : (s.node (s.port p).tgt).lock = .free) :
    s.qAcq p = (s.updNode (s.port p).tgt fun m => { m with lock := .held p }).setPhase p .qBody := if_pos free

theorem State.qAcq_of_held {s : State} {p q : Nat} (held : (s.node (s.port p).tgt).lock = .held q) :
    s.qAcq p = s := if_neg (by rw [held]; exact nofun)

/-- Settles O24: the three operations take the same step, which depends on the lock alone. -/
theorem acquireTakesFreeLockOrWaits : Obligations.AcquireTakesFreeLockOrWaits := by
  intro s n f hph tgt t
  have all (u : State) (hu : s.qAcq s.active = u) :
      exec (.enqueue n f) s = .next u ∧ exec (.dequeue n) s = .next u ∧ exec (.transmit n f) s = .next u := by
    rw [← hu]
    exact ⟨exec_enqueue_of_qAcq n f hph, exec_dequeue_of_qAcq n hph, exec_transmit_of_qAcq n f hph⟩
  exact ⟨fun free => all t (State.qAcq_of_free free), fun p held => all s (State.qAcq_of_held held)⟩

/-! ### The store body (R151) -/

/-- A store body writes the one slot. -/
theorem State.slot_qBodyStore {s : State} {p : Nat} (held : (s.port p).tgt.toNat < s.nodes.length) (f : Frame)
    (m : NodeIdx) (i : Nat) :
    (s.qBodyStore p f).slot m i =
      if m = (s.port p).tgt ∧ i = (s.node (s.port p).tgt).head then f else s.slot m i := by
  have node : (s.qBodyStore p f).node m =
      if m = (s.port p).tgt then (s.node m).store s.cfg.queueCap f else s.node m := s.node_updNode m _ _ held
  unfold State.slot
  rw [node]
  by_cases target : m = (s.port p).tgt
  · subst target
    simp only [if_true, true_and, Node.store, Memory.read?_write]
    split_ifs <;> rfl
  · simp only [target, if_false, false_and]

/-- Settles O25: both operations take the store body, which changes the node through `slots` and `head` alone. -/
theorem storeBodyWritesHeadSlotOnly : Obligations.StoreBodyWritesHeadSlotOnly := by
  intro s n f hph tgt held
  have port : s.active < s.ports.length := State.lt_of_phase_ne_idle (by rw [hph]; exact nofun)
  have node : (s.qBodyStore s.active f).node tgt = (s.node tgt).store s.cfg.queueCap f :=
    s.node_updNode_self tgt _ held
  refine ⟨s.qBodyStore s.active f, exec_enqueue_of_qBody n f hph, exec_transmit_of_qBody n f hph, ?_,
    State.slot_qBodyStore held f, State.port_updPort_self _ _ _ port, ?_⟩
  · rw [node]
    rfl
  · rw [node]
    exact congrArg (fun u : State => u.setPhase s.active .qRel) (State.updNode_congr rfl)

/-! ### The load body (R152) -/

theorem State.qBodyLoad_of_empty {s : State} {p : Nat} (empty : (s.node (s.port p).tgt).isEmpty = true) :
    s.qBodyLoad p = s.updPort p fun q => { q with rHit := false, phase := .qRel } := by
  simp only [State.qBodyLoad, empty, if_true, State.setPhase_updPort]

theorem State.qBodyLoad_of_full {s : State} {p : Nat} (full : (s.node (s.port p).tgt).isEmpty = false) :
    s.qBodyLoad p = (s.updNode (s.port p).tgt (Node.load s.cfg.queueCap)).updPort p fun q =>
      { q with rHit := true, rFrame := s.slot (s.port p).tgt (s.node (s.port p).tgt).tail, phase := .qRel } := by
  simp only [State.qBodyLoad, full, Bool.false_eq_true, if_false, State.setPhase_updPort]

/-- Settles O26. -/
theorem loadBodyTakesTailSlot : Obligations.LoadBodyTakesTailSlot := by
  intro s n hph tgt m
  refine ⟨fun empty => ?_, fun full => ?_⟩
  · exact (exec_dequeue_of_qBody n hph).trans (congrArg _ (State.qBodyLoad_of_empty (Node.isEmpty_iff.2 empty)))
  · exact (exec_dequeue_of_qBody n hph).trans (congrArg _ (State.qBodyLoad_of_full (Node.not_isEmpty_iff.2 full)))

/-- A frame was stored in the slot at `tail` of a queue that is not empty. -/
theorem Node.QueueInv.read?_tail {c : Nat} {m : Node} (h : m.QueueInv c) (full : m.head ≠ m.tail) :
    ∃ f, Memory.read? m.slots m.tail = some f := by
  obtain ⟨-, -, hh, ht, hslots⟩ := h
  have stored := hslots 0 (Nat.pos_of_ne_zero fun e => full ((Node.occ_eq_zero_iff hh ht).1 e))
  rw [Nat.add_zero, Nat.mod_eq_of_lt ht] at stored
  exact Option.isSome_iff_exists.1 stored

/-- The invariant of the queue of a node that a sequencer accesses. -/
theorem State.Inv.target_queueInv {s : State} (h : s.Inv) {p : Nat} (hp : p < s.cfg.nPorts)
    (hq : (s.port p).phase.inQueue = true) : (s.node (s.port p).tgt).QueueInv s.cfg.queueCap := by
  obtain ⟨valid, -⟩ := (h.seqInv hp).target (.inl hq)
  exact h.queues _ (List.mem_of_getElem? (State.getElem?_nodes (h.shape.1 ▸ valid)))

/-- Settles O27: the invariant gives the frame, and the load body takes it. -/
theorem loadNeverReadsUnwrittenSlot : Obligations.LoadNeverReadsUnwrittenSlot := by
  intro s n hs hph hp m full
  have port : s.active < s.ports.length := hs.shape.2 ▸ hp
  obtain ⟨f, hf⟩ := (hs.target_queueInv hp (by rw [hph]; rfl)).read?_tail full
  have slot : s.slot (s.port s.active).tgt m.tail = f := by rw [State.slot, hf]; rfl
  refine ⟨f, _, hf, (loadBodyTakesTailSlot s n hph).2 full, ?_⟩
  rw [← slot]
  constructor
  · exact congrArg Port.rHit (State.port_updPort_self (s.withNode _ _) _ _ port)
  · exact congrArg Port.rFrame (State.port_updPort_self (s.withNode _ _) _ _ port)

/-! ### QRel (R153) -/

theorem State.qRelDequeue_of_hit {s : State} {p : Nat} (hit : (s.port p).rHit = true) :
    s.qRelDequeue p = (s.unlock p).respond p opDequeue true (s.port p).rFrame := if_pos hit

theorem State.qRelDequeue_of_miss {s : State} {p : Nat} (miss : (s.port p).rHit = false) :
    s.qRelDequeue p = (s.unlock p).complete p opDequeue := if_neg (by simp [miss])

/-- Settles O28: the lock is freed, and each operation goes on as its result says. -/
theorem releaseAnswersOrNotifies : Obligations.ReleaseAnswersOrNotifies := by
  intro s n f hph q s'
  have unlocked : s.unlock s.active = s' := rfl
  have complete (op : BitVec 4) : s'.complete s.active op = s'.answered (op.setWidth 128) :=
    s'.complete_eq_answered op
  refine ⟨?_, fun hit => ?_, fun miss => ?_, fun en => ?_, fun off => ?_⟩
  · rw [exec_enqueue_of_qRel n f hph, unlocked, complete]
    rfl
  · rw [exec_dequeue_of_qRel n hph, State.qRelDequeue_of_hit hit, unlocked, ← responseWord_frame]
    rfl
  · rw [exec_dequeue_of_qRel n hph, State.qRelDequeue_of_miss miss, unlocked, complete]
    rfl
  · rw [exec_transmit_of_qRel n f hph, State.qRelTransmit, if_pos en, unlocked, ← notificationWord_eq]
    rfl
  · rw [exec_transmit_of_qRel n f hph, State.qRelTransmit, if_neg (by simp [q, off]), unlocked]
    rfl

end Sys2Proof.Machine
end
section
/-! PROOFS. The node queue (`41_node_queue.md`): the law of each node's queue in the machine (R158 to R160). Only a body
step of a port whose target is the node writes its queue, and such a step records the frame it stores or returns. -/

namespace Sys2Proof.Machine

/-! ### Which steps write a queue (R160) -/

/-- A node's queue: its storage, head and tail. -/
def Node.queue (m : Node) : Memory × Nat × Nat := (m.slots, m.head, m.tail)

theorem RegisterWrite.queue {n : NodeIdx} {m m' : Node} {i : Instr} (h : RegisterWrite n m i m') :
    m'.queue = m.queue := by cases h <;> rfl

/-- A step of an instruction leaves the queue of a node on which it has no body. -/
theorem Taken.queue_eq {s t : State} {i : Instr} {n : NodeIdx} (h : Taken s i t)
    (other : (s.port s.active).phase = .qBody → (s.port s.active).tgt ≠ n) :
    (t.node n).queue = (s.node n).queue := by
  have frame (g : Node → Node) (hg : ∀ m, (g m).queue = m.queue) :
      ((s.updNode (s.port s.active).tgt g).node n).queue = (s.node n).queue := s.node_updNode_proj n _ g _ hg
  cases h
  case answer eff =>
    obtain same | write := eff.node n
    · exact congrArg Node.queue same
    · exact write.queue
  case store hph _ => exact congrArg Node.queue (s.node_updNode_ne _ (other hph).symm)
  case loadHit hph _ => exact congrArg Node.queue (s.node_updNode_ne _ (other hph).symm)
  case wait | loadEmpty | scanEnd | scanSkip | scanTarget => rfl
  case acquire | relEnqueue | relHit | relEmpty | relNotify | relAdvance => exact frame _ fun _ => rfl

/-- The event is a step of a port in Q_BODY whose target is node `n`. -/
def BodyOf (n : NodeIdx) (s : State) (e : Event) : Prop :=
  ∃ p, e = .run p ∧ (s.port p).phase = .qBody ∧ (s.port p).tgt = n

/-- Every other step but reset leaves the node's queue. -/
theorem Stepped.queue_eq {s t : State} {e : Event} {n : NodeIdx} (h : Stepped s e t) (hrst : e ≠ .rst)
    (other : ¬BodyOf n s e) : (t.node n).queue = (s.node n).queue := by
  cases h
  case run p i _ _ _ taken =>
    exact taken.queue_eq (s := { s with active := p }) fun hph htgt => other ⟨p, rfl, hph, htgt⟩
  case rst => exact absurd rfl hrst
  case accept | acceptBusy | runIdle | ack | ackNone | rxLatched | rxDropped => rfl

/-- Settles O37. -/
theorem onlyBodiesWriteQueues : Obligations.OnlyBodiesWriteQueues := by
  intro s t e rest n hs h hrst other
  have same : (t.node n).queue = (s.node n).queue :=
    (stepped_of_schedule hs h).queue_eq hrst fun ⟨p, he, hph, htgt⟩ => other p he hph htgt
  simp only [Node.queue, Prod.mk.injEq] at same
  obtain ⟨slots, head, tail⟩ := same
  exact ⟨head, tail, slots⟩

/-! ### What a step records -/

theorem opDequeue_not_store : ¬(opDequeue = opEnqueue ∨ opDequeue = opTransmit) := by decide

section
variable {n : NodeIdx} {s : State} {rest : List Event} {log : List Frame × List Frame}

theorem bodyLogStep_of_not_body {e : Event} (hs : s.schedule = e :: rest) (hrst : e ≠ .rst)
    (other : ¬BodyOf n s e) : bodyLogStep n s log = log := by
  cases e with
  | run p => simp only [bodyLogStep, hs, if_neg fun body : _ ∧ _ => other ⟨p, rfl, body⟩]
  | rst => exact absurd rfl hrst
  | accept | ack | rx => simp only [bodyLogStep, hs]

variable {p : Nat} (hs : s.schedule = .run p :: rest) (hph : (s.port p).phase = .qBody) (htgt : (s.port p).tgt = n)
include hs hph htgt

theorem bodyLogStep_of_store (hop : (s.port p).op = opEnqueue ∨ (s.port p).op = opTransmit) :
    bodyLogStep n s log = (log.1 ++ [(s.port p).aFrame], log.2) := by
  simp only [bodyLogStep, hs, hph, htgt, hop, and_self, if_true]

theorem bodyLogStep_of_loadHit (hop : (s.port p).op = opDequeue) (full : (s.node n).isEmpty = false) :
    bodyLogStep n s log = (log.1, log.2 ++ [s.slot n (s.node n).tail]) := by
  simp only [bodyLogStep, hs, hph, htgt, hop, full, opDequeue_not_store, and_self, if_true, if_false]

theorem bodyLogStep_of_loadEmpty (hop : (s.port p).op = opDequeue) (empty : (s.node n).isEmpty = true) :
    bodyLogStep n s log = log := by
  simp only [bodyLogStep, hs, hph, htgt, hop, empty, opDequeue_not_store, Bool.true_eq_false, and_self, and_false,
    if_true, if_false]

theorem bodyLogStep_of_no_queue_operation (hi : accessesQueue (s.port p).instr = false) :
    bodyLogStep n s log = log := by
  obtain ⟨transmit, enqueue, dequeue⟩ := (s.port p).instr_queue
  have ne {j : Instr} (hj : accessesQueue j = true) : (s.port p).instr ≠ j := fun e => by simp [e, hj] at hi
  have notT : (s.port p).op ≠ opTransmit := fun e => ne rfl ((transmit _ _).2 ⟨e, rfl, rfl⟩)
  have notE : (s.port p).op ≠ opEnqueue := fun e => ne rfl ((enqueue _ _).2 ⟨e, rfl, rfl⟩)
  have notD : (s.port p).op ≠ opDequeue := fun e => ne rfl ((dequeue _).2 ⟨e, rfl⟩)
  simp only [bodyLogStep, hs, hph, htgt, notT, notE, notD, and_self, or_self, false_and, if_true, if_false]

end

/-! ### Every step keeps the record (R158, R159) -/

/-- The agreement is about the queue alone. -/
theorem Node.Recorded.congr {c : Nat} {m m' : Node} {log : List Frame × List Frame} (h : m.Recorded c log)
    (same : m'.queue = m.queue) : m'.Recorded c log := by
  simp only [Node.queue, Prod.mk.injEq] at same
  obtain ⟨slots, head, tail⟩ := same
  rwa [Node.Recorded, Node.occ, slots, head, tail]

/-- What the step of an instruction on a port in Q_BODY does to the node accessed: nothing, unless it is a queue
operation, which stores its frame or loads (R151, R152). -/
theorem Taken.node_of_qBody {s t : State} {i : Instr} {n : NodeIdx} (h : Taken s i t)
    (hph : (s.port s.active).phase = .qBody) (htgt : (s.port s.active).tgt = n) (held : n.toNat < s.nodes.length) :
    (accessesQueue i = false ∧ t = s) ∨
    (∃ k f, (i = .transmit k f ∨ i = .enqueue k f) ∧ t.node n = (s.node n).store s.cfg.queueCap f) ∨
    (∃ k, i = .dequeue k ∧ (s.node n).isEmpty = true ∧ t.node n = s.node n) ∨
    ∃ k, i = .dequeue k ∧ (s.node n).isEmpty = false ∧ t.node n = (s.node n).load s.cfg.queueCap := by
  subst htgt
  cases h
  case wait notLocked =>
    have unlocked : accessesQueue i ≠ true := fun e => by cases (notLocked e).symm.trans (congrArg Phase.locked hph)
    exact .inl ⟨Bool.eq_false_iff.2 unlocked, rfl⟩
  case store f _ kind =>
    obtain ⟨k, rfl⟩ | ⟨k, rfl⟩ := kind
    · exact .inr (.inl ⟨k, f, .inl rfl, s.node_updNode_self _ _ held⟩)
    · exact .inr (.inl ⟨k, f, .inr rfl, s.node_updNode_self _ _ held⟩)
  case loadEmpty k _ empty => exact .inr (.inr (.inl ⟨k, rfl, empty, rfl⟩))
  case loadHit k _ full => exact .inr (.inr (.inr ⟨k, rfl, full, s.node_updNode_self _ _ held⟩))
  all_goals simp_all only [reduceCtorEq]

/-- A body step of port `p` on node `n` keeps the agreement. -/
theorem Stepped.recorded_of_body {s t : State} {p : Nat} {rest : List Event} {n : NodeIdx}
    {log : List Frame × List Frame} (hs : s.schedule = .run p :: rest)
    (h : Stepped { s with schedule := rest } (.run p) t) (hph : (s.port p).phase = .qBody)
    (htgt : (s.port p).tgt = n) (hc : 2 ≤ s.cfg.queueCap) (hn : n.toNat < s.nodes.length)
    (hrec : (s.node n).Recorded s.cfg.queueCap log) :
    (t.node n).Recorded s.cfg.queueCap (bodyLogStep n s log) := by
  obtain ⟨transmit, enqueue, dequeue⟩ := (s.port p).instr_queue
  cases h
  case runIdle idle => cases idle.symm.trans hph
  case run i _ _ hi taken =>
    obtain ⟨notQueue, rfl⟩ | ⟨k, f, kind, node⟩ | ⟨k, rfl, empty, node⟩ | ⟨k, rfl, full, node⟩ :=
      taken.node_of_qBody (s := { s with schedule := rest, active := p }) hph htgt hn
    · rw [bodyLogStep_of_no_queue_operation hs hph htgt (hi ▸ notQueue)]
      exact hrec
    · obtain ⟨hop, rfl⟩ : ((s.port p).op = opEnqueue ∨ (s.port p).op = opTransmit) ∧ (s.port p).aFrame = f := by
        obtain rfl | rfl := kind
        · obtain ⟨hop, -, hf⟩ := (transmit k f).1 hi
          exact ⟨.inr hop, hf⟩
        · obtain ⟨hop, -, hf⟩ := (enqueue k f).1 hi
          exact ⟨.inl hop, hf⟩
      rw [bodyLogStep_of_store hs hph htgt hop, node]
      exact hrec.store hc _
    · rw [bodyLogStep_of_loadEmpty hs hph htgt ((dequeue k).1 hi).1 empty, node]
      exact hrec
    · obtain ⟨f, hf, -⟩ := hrec.oldest hc full
      have slot : s.slot n (s.node n).tail = f := by rw [State.slot, hf]; rfl
      rw [bodyLogStep_of_loadHit hs hph htgt ((dequeue k).1 hi).1 full, slot, node]
      exact hrec.load hc full hf

/-- Settles O60: a body on the node records its frame, reset empties the queue and its record, and every other step
leaves both. -/
theorem everyStepKeepsQueueRecord : Obligations.EveryStepKeepsQueueRecord := by
  intro s t n log hc hn hrec h
  obtain ⟨hs, rfl⟩ | ⟨e, rest, hs, hst⟩ := step_stepped h
  · simpa only [bodyLogStep, hs] using hrec
  · rw [show t.cfg = s.cfg from hst.cfg]
    by_cases body : BodyOf n s e
    · obtain ⟨p, rfl, hph, htgt⟩ := body
      exact hst.recorded_of_body hs hph htgt hc hn hrec
    · by_cases hrst : e = .rst
      · subst hrst
        cases hst
        have reset : (State.hardReset { s with schedule := rest }).node n = Node.reset := State.resetOf_node s.cfg n
        simpa only [bodyLogStep, hs, reset] using Node.recorded_reset s.cfg.queueCap
      · rw [bodyLogStep_of_not_body hs hrst body]
        exact hrec.congr (hst.queue_eq hrst body)

/-! ### Every run from reset (R158) -/

/-- Every run from a state that meets the invariant keeps a node's queue in agreement with its record. -/
theorem recorded_of_runLogged {n : NodeIdx} {k : Nat} {s t : State} {log log' : List Frame × List Frame}
    (hinv : s.Inv) (hn : n.toNat < s.cfg.nNodes) (hrec : (s.node n).Recorded s.cfg.queueCap log)
    (h : runLogged n k s log = some (t, log')) : (t.node n).Recorded s.cfg.queueCap log' := by
  induction k generalizing s log with
  | zero =>
    cases h
    exact hrec
  | succ k ih =>
    rw [runLogged] at h
    cases hs : step s with
    | next u =>
      rw [hs] at h
      have hcfg : u.cfg = s.cfg := noStepChangesParameters s u hs
      obtain ⟨-, -, -, -, queueCap, -⟩ := hinv.cfg
      have hrec' := everyStepKeepsQueueRecord s u n log queueCap (hinv.shape.1 ▸ hn) hrec hs
      rw [← hcfg]
      exact ih (everyStepKeepsInvariant s u hinv hs) (hcfg ▸ hn) hrec' h
    | fault r | refused r => rw [hs] at h; cases h

/-- Settles O36: the queue agrees with its record at reset, and so after every run. -/
theorem everyInterleavingKeepsQueueOrder : Obligations.EveryInterleavingKeepsQueueOrder := by
  intro c es n k t stored returned hcfg hn h m
  have hinv : State.Inv { State.resetOf c with schedule := es } :=
    (State.inv_resetOf hcfg).congr rfl rfl rfl rfl rfl
  have start : ((State.resetOf c).node n).Recorded c.queueCap ([], []) := by
    rw [State.resetOf_node]
    exact Node.recorded_reset _
  obtain ⟨-, -, -, -, queueCap, -⟩ := hcfg
  have hrec : m.Recorded c.queueCap (stored, returned) := recorded_of_runLogged hinv hn start h
  have occ := hrec.occ_eq queueCap
  have oldest := hrec.oldest queueCap
  obtain ⟨hhead, htail, hle, -, hsub⟩ := hrec
  refine ⟨hhead, htail, hle, hsub.trans (List.take_sublist _ _), occ, fun full => ?_⟩
  obtain ⟨f, hf, hold⟩ := oldest (Node.not_isEmpty_iff.2 full)
  have slot : t.slot n m.tail = f := by rw [State.slot, hf]; rfl
  rw [slot]
  exact hold

end Sys2Proof.Machine
end
section
/-! PROOFS. The node queue (`41_node_queue.md`): a whole ENQUEUE and a whole DEQUEUE into which no other agent's step
falls (R154, R155, R266), run with the port's sequencer given outright (`State.serving`). -/

namespace Sys2Proof.Machine

/-! ### The lock around a body -/

/-- Taking a FREE lock, changing the node in a way that does not read the lock, and freeing the lock is the change. -/
theorem State.updNode_locked {s : State} {n : NodeIdx} (free : (s.node n).lock = .free) (p : Nat) (g : Node → Node)
    (hg : ∀ m l, g { m with lock := l } = { g m with lock := l }) :
    ((s.updNode n fun m => { m with lock := .held p }).updNode n g).updNode n (fun m => { m with lock := .free }) =
      s.updNode n g :=
  calc ((s.updNode n fun m => { m with lock := .held p }).updNode n g).updNode n (fun m => { m with lock := .free })
    _ = s.updNode n fun m => { g { m with lock := .held p } with lock := .free } := by
      simp only [State.updNode, List.modify_modify_eq, Function.comp_def]
    _ = s.updNode n fun m => { g m with lock := .free } := by simp only [hg _ (.held p)]
    _ = s.updNode n g := State.updNode_congr (by rw [← hg, ← free])

theorem State.updNode_id (s : State) (n : NodeIdx) : s.updNode n id = s := by simp [State.updNode]

/-- A change of the lock leaves what the slots hold. -/
theorem State.slot_updNode_lock (s : State) (n k : NodeIdx) (l : Lock) (i : Nat) :
    (s.updNode n fun m => { m with lock := l }).slot k i = s.slot k i := by
  have same := s.node_updNode_proj k n (fun m => { m with lock := l }) Node.slots fun _ => rfl
  rw [State.slot, same, State.slot]

/-! ### The steps of a queue access -/

/-- The other ports stay as they are. -/
theorem State.serving_port_ne (s : State) {p r : Nat} (q : Port) (hr : r ≠ p) : (s.serving p q).port r = s.port r :=
  s.port_updPort_ne (fun _ => q) hr

section
variable {s : State} {p : Nat} {q : Port} (held : p < s.ports.length)
include held

theorem State.serving_phase {ph : Phase} (hph : q.phase = ph) :
    ((s.serving p q).port (s.serving p q).active).phase = ph :=
  (congrArg Port.phase (State.serving_port held q)).trans hph

theorem State.serving_qAcq (free : (s.node q.tgt).lock = .free) :
    (s.serving p q).qAcq p =
      (s.updNode q.tgt fun m => { m with lock := .held p }).serving p { q with phase := .qBody } := by
  have port := State.serving_port held q
  rw [State.qAcq_of_free (by rw [port]; exact free), port]
  exact State.serving_updPort (s.updNode _ _) p q _

theorem State.serving_qBodyStore (f : Frame) :
    (s.serving p q).qBodyStore p f =
      (s.updNode q.tgt fun m => m.store s.cfg.queueCap f).serving p { q with phase := .qRel } := by
  rw [State.qBodyStore, State.serving_port held]
  exact State.serving_updPort (s.updNode _ _) p q _

theorem State.serving_qBodyLoad_of_empty (empty : (s.node q.tgt).isEmpty = true) :
    (s.serving p q).qBodyLoad p = s.serving p { q with rHit := false, phase := .qRel } := by
  rw [State.qBodyLoad_of_empty (by rw [State.serving_port held]; exact empty)]
  exact s.serving_updPort p q _

theorem State.serving_qBodyLoad_of_full (full : (s.node q.tgt).isEmpty = false) :
    (s.serving p q).qBodyLoad p = (s.updNode q.tgt (Node.load s.cfg.queueCap)).serving p
      { q with rHit := true, rFrame := s.slot q.tgt (s.node q.tgt).tail, phase := .qRel } := by
  have port := State.serving_port held q
  rw [State.qBodyLoad_of_full (by rw [port]; exact full), port]
  exact State.serving_updPort (s.updNode _ _) p q _

theorem State.serving_unlock_respond (op : BitVec 4) (hit : Bool) (f : Frame) :
    ((s.serving p q).unlock p).respond p op hit f =
      ((s.updNode q.tgt fun m => { m with lock := .free }).emit (.response p (responseWord op hit f))).serving p
        { q with phase := .idle } := by
  rw [State.unlock, State.serving_port held]
  exact State.serving_updPort ((s.updNode _ _).emit _) p q _

/-- The answer of a DEQUEUE (R153): the frame taken, or a bare completion. -/
theorem State.serving_qRelDequeue :
    (s.serving p q).qRelDequeue p =
      ((s.updNode q.tgt fun m => { m with lock := .free }).emit
        (.response p (if q.rHit then answerFrame q.rFrame else 0x5))).serving p { q with phase := .idle } := by
  have port := State.serving_port held q
  cases hit : q.rHit with
  | true =>
    rw [State.qRelDequeue_of_hit (by rw [port, hit]), port, State.serving_unlock_respond held, responseWord_frame, hit]
    rfl
  | false =>
    rw [State.qRelDequeue_of_miss (by rw [port, hit]), State.complete, State.serving_unlock_respond held,
      responseWord_bare, hit]
    rfl

variable (hp : p < s.cfg.nPorts)
include hp

/-- The port's sequencer runs the instruction latched there. -/
theorem runEvent_run_serving_instr {i : Instr} (hi : q.instr = i) (busy : q.phase ≠ .idle) :
    runEvent (.run p) (s.serving p q) = exec i (s.serving p q) := by
  have port := State.serving_port held q
  rw [runEvent_run_of_busy (s := s.serving p q) hp (by rw [port]; exact busy), port, hi]
  rfl

/-- What the instruction latched on the port does in one step, the sequencer's next step does. -/
theorem reaches_serving {i : Instr} {t : State} (hi : q.instr = i) (busy : q.phase ≠ .idle)
    (h : ∀ rest, exec i (State.serving { s with schedule := rest } p q) = .next { t with schedule := rest }) :
    Reaches (s.serving p q) [.run p] t :=
  .cons (fun rest => (runEvent_run_serving_instr (s := { s with schedule := rest }) held hp hi busy).trans (h rest))
    (.refl _)

theorem reaches_acquire (hi : (∃ n f, q.instr = .enqueue n f) ∨ ∃ n, q.instr = .dequeue n) (hph : q.phase = .qAcq)
    (free : (s.node q.tgt).lock = .free) :
    Reaches (s.serving p q) [.run p]
      ((s.updNode q.tgt fun m => { m with lock := .held p }).serving p { q with phase := .qBody }) := by
  have phase (rest : List Event) := State.serving_phase (s := { s with schedule := rest }) held hph
  obtain ⟨n, f, hi⟩ | ⟨n, hi⟩ := hi <;> refine reaches_serving held hp hi (by simp [hph]) fun rest => ?_
  · exact (exec_enqueue_of_qAcq n f (phase rest)).trans
      (congrArg _ (State.serving_qAcq (s := { s with schedule := rest }) held free))
  · exact (exec_dequeue_of_qAcq n (phase rest)).trans
      (congrArg _ (State.serving_qAcq (s := { s with schedule := rest }) held free))

theorem reaches_store {n : NodeIdx} {f : Frame} (hi : q.instr = .enqueue n f) (hph : q.phase = .qBody) :
    Reaches (s.serving p q) [.run p]
      ((s.updNode q.tgt fun m => m.store s.cfg.queueCap f).serving p { q with phase := .qRel }) := by
  have phase (rest : List Event) := State.serving_phase (s := { s with schedule := rest }) held hph
  exact reaches_serving held hp hi (by simp [hph]) fun rest => (exec_enqueue_of_qBody n f (phase rest)).trans
    (congrArg _ (State.serving_qBodyStore (s := { s with schedule := rest }) held f))

theorem reaches_release_enqueue {n : NodeIdx} {f : Frame} (hi : q.instr = .enqueue n f) (hph : q.phase = .qRel) :
    Reaches (s.serving p q) [.run p]
      (((s.updNode q.tgt fun m => { m with lock := .free }).emit (.response p 0x4)).serving p
        { q with phase := .idle }) := by
  have phase (rest : List Event) := State.serving_phase (s := { s with schedule := rest }) held hph
  rw [show (0x4 : RspWord) = responseWord opEnqueue false 0 from (responseWord_bare opEnqueue).symm]
  exact reaches_serving held hp hi (by simp [hph]) fun rest => (exec_enqueue_of_qRel n f (phase rest)).trans
    (congrArg _ (State.serving_unlock_respond (s := { s with schedule := rest }) held _ _ _))

variable {n : NodeIdx} (hi : q.instr = .dequeue n)
include hi

theorem reaches_load_of_empty (hph : q.phase = .qBody) (empty : (s.node q.tgt).isEmpty = true) :
    Reaches (s.serving p q) [.run p] (s.serving p { q with rHit := false, phase := .qRel }) := by
  have phase (rest : List Event) := State.serving_phase (s := { s with schedule := rest }) held hph
  exact reaches_serving held hp hi (by simp [hph]) fun rest => (exec_dequeue_of_qBody n (phase rest)).trans
    (congrArg _ (State.serving_qBodyLoad_of_empty (s := { s with schedule := rest }) held empty))

theorem reaches_load_of_full (hph : q.phase = .qBody) (full : (s.node q.tgt).isEmpty = false) :
    Reaches (s.serving p q) [.run p] ((s.updNode q.tgt (Node.load s.cfg.queueCap)).serving p
      { q with rHit := true, rFrame := s.slot q.tgt (s.node q.tgt).tail, phase := .qRel }) := by
  have phase (rest : List Event) := State.serving_phase (s := { s with schedule := rest }) held hph
  exact reaches_serving held hp hi (by simp [hph]) fun rest => (exec_dequeue_of_qBody n (phase rest)).trans
    (congrArg _ (State.serving_qBodyLoad_of_full (s := { s with schedule := rest }) held full))

theorem reaches_release_dequeue (hph : q.phase = .qRel) :
    Reaches (s.serving p q) [.run p]
      (((s.updNode q.tgt fun m => { m with lock := .free }).emit
        (.response p (if q.rHit then answerFrame q.rFrame else 0x5))).serving p { q with phase := .idle }) := by
  have phase (rest : List Event) := State.serving_phase (s := { s with schedule := rest }) held hph
  exact reaches_serving held hp hi (by simp [hph]) fun rest => (exec_dequeue_of_qRel n (phase rest)).trans
    (congrArg _ (State.serving_qRelDequeue (s := { s with schedule := rest }) held))

end

/-! ### Whole operations -/

section
variable {s : State} {p : Nat} {q : Port} (held : p < s.ports.length) (hp : p < s.cfg.nPorts) (hph : q.phase = .qAcq)
  (free : (s.node q.tgt).lock = .free)
include held hp hph free

/-- ENQUEUE from Q_ACQ to its answer (R154). -/
theorem reaches_enqueue {n : NodeIdx} {f : Frame} (hi : q.instr = .enqueue n f) :
    Reaches (s.serving p q) [.run p, .run p, .run p]
      (((s.updNode q.tgt fun m => m.store s.cfg.queueCap f).emit (.response p 0x4)).serving p
        { q with phase := .idle }) := by
  have acquired := reaches_acquire held hp (.inl ⟨n, f, hi⟩) hph free
  have stored := reaches_store (s := s.updNode q.tgt fun m => { m with lock := .held p })
    (q := { q with phase := .qBody }) held hp hi rfl
  have released := reaches_release_enqueue (s := s.lockedStore p f q.tgt) (q := { q with phase := .qRel })
    held hp hi rfl
  rw [State.lockedStore_unlock p f free] at released
  exact (acquired.append stored).append released

/-- DEQUEUE of an empty queue from Q_ACQ to its answer (R155). -/
theorem reaches_dequeue_of_empty {n : NodeIdx} (hi : q.instr = .dequeue n)
    (empty : (s.node q.tgt).isEmpty = true) :
    Reaches (s.serving p q) [.run p, .run p, .run p]
      ((s.emit (.response p 0x5)).serving p { q with rHit := false, phase := .idle }) := by
  have acquired := reaches_acquire held hp (.inr ⟨n, hi⟩) hph free
  have empty' := (s.node_updNode_proj q.tgt q.tgt (fun m => { m with lock := .held p }) Node.isEmpty
    fun _ => rfl).trans empty
  have loaded := reaches_load_of_empty (s := s.updNode q.tgt fun m => { m with lock := .held p })
    (q := { q with phase := .qBody }) held hp hi rfl empty'
  have released := reaches_release_dequeue (s := s.updNode q.tgt fun m => { m with lock := .held p })
    (q := { q with rHit := false, phase := .qRel }) held hp hi rfl
  have unlocked := State.updNode_locked free p id fun _ _ => rfl
  rw [State.updNode_id, State.updNode_id] at unlocked
  rw [unlocked] at released
  exact (acquired.append loaded).append released

/-- DEQUEUE of a queue that is not empty from Q_ACQ to its answer (R155). -/
theorem reaches_dequeue_of_full {n : NodeIdx} (hi : q.instr = .dequeue n)
    (full : (s.node q.tgt).isEmpty = false) :
    ∃ q', q'.phase = .idle ∧ Reaches (s.serving p q) [.run p, .run p, .run p]
      (((s.updNode q.tgt (Node.load s.cfg.queueCap)).emit
        (.response p (answerFrame (s.slot q.tgt (s.node q.tgt).tail)))).serving p q') := by
  have keeps {α : Type} (π : Node → α) (hπ : ∀ m : Node, π { m with lock := .held p } = π m) :=
    s.node_updNode_proj q.tgt q.tgt (fun m => { m with lock := .held p }) π hπ
  have acquired := reaches_acquire held hp (.inr ⟨n, hi⟩) hph free
  have loaded := reaches_load_of_full (s := s.updNode q.tgt fun m => { m with lock := .held p })
    (q := { q with phase := .qBody }) held hp hi rfl ((keeps Node.isEmpty fun _ => rfl).trans full)
  rw [keeps Node.tail fun _ => rfl, State.slot_updNode_lock] at loaded
  have released := reaches_release_dequeue
    (s := (s.updNode q.tgt fun m => { m with lock := .held p }).updNode q.tgt (Node.load s.cfg.queueCap))
    (q := { q with rHit := true, rFrame := s.slot q.tgt (s.node q.tgt).tail, phase := .qRel }) held hp hi rfl
  rw [State.updNode_locked free p (Node.load s.cfg.queueCap) fun _ _ => rfl] at released
  exact ⟨_, rfl, (acquired.append loaded).append released⟩

end

/-- Accept, and then the steps of the sequencer that it loads. -/
theorem Reaches.of_accept {s t : State} {p : Nat} {w : CmdWord} {es : List Event} (hp : p < s.cfg.nPorts)
    (held : p < s.ports.length) (idle : (s.port p).phase = .idle)
    (h : Reaches (s.serving p ((s.port p).latch s.cfg w)) (.run p :: es) t) :
    Reaches s (.accept p w :: .run p :: es) t := by
  have loaded : (s.latch p w).port p = (s.port p).latch s.cfg w := s.port_updPort_self p _ held
  rw [← s.updPort_active_eq_serving p (Port.latch s.cfg w)] at h
  exact .cons (t := s.latch p w) (runEvent_accept_of_idle (s := { s with schedule := · }) hp idle w)
    (.of_active (s := s.latch p w) hp (by rw [loaded]; exact firstPhase_ne_idle _ _ _) h)

/-- An ENQUEUE or DEQUEUE of a node that exists starts in Q_ACQ with the node as its target (R120). -/
theorem Port.latch_of_queueOperation {c : Config} {w : CmdWord} (hop : opField w = 4 ∨ opField w = 5)
    (hn : (nodeField w).toNat < c.nNodes) (q : Port) :
    (q.latch c w).phase = .qAcq ∧ (q.latch c w).tgt = nodeField w := by
  have first : firstPhase c (opField w) (nodeField w) = .qAcq :=
    (firstPhase_eq_qAcq_iff _ _ _).2 ⟨hop, fun bad => absurd bad.2 (Nat.not_le.2 hn)⟩
  exact ⟨first, if_pos first⟩

/-- Settles O29: Accept, then the three steps of the access, which leave the node with one store more. -/
theorem enqueueRunsInFourSteps : Obligations.EnqueueRunsInFourSteps := by
  intro s p w rest hinv hp idle hop hn free
  have held : p < s.ports.length := hinv.shape.2 ▸ hp
  obtain ⟨phase, tgt⟩ := Port.latch_of_queueOperation (.inl hop) hn (s.port p)
  have instr : ((s.port p).latch s.cfg w).instr = .enqueue (nodeField w) (frameField w) :=
    (Port.instr_queue.2.1 _ _).2 ⟨hop, rfl, rfl⟩
  have run := Reaches.of_accept hp held idle (reaches_enqueue held hp phase (tgt ▸ free) instr)
  rw [tgt] at run
  exact ⟨_, run rest, rfl, rfl, rfl, rfl, rfl, rfl, congrArg Port.phase (State.serving_port held _),
    fun _ => s.serving_port_ne _⟩

/-- Settles O30: Accept, then the three steps of the access, by whether the queue is empty. -/
theorem dequeueRunsInFourSteps : Obligations.DequeueRunsInFourSteps := by
  intro s p w rest hinv hp idle hop hn free n m
  have held : p < s.ports.length := hinv.shape.2 ▸ hp
  obtain ⟨phase, tgt⟩ := Port.latch_of_queueOperation (.inr hop) hn (s.port p)
  have instr : ((s.port p).latch s.cfg w).instr = .dequeue n := (Port.instr_queue.2.2 _).2 ⟨hop, rfl⟩
  cases empty : m.isEmpty with
  | true =>
    have run := Reaches.of_accept hp held idle
      (reaches_dequeue_of_empty held hp phase (tgt ▸ free) instr (tgt ▸ empty))
    exact ⟨_, run rest, fun _ => ⟨rfl, rfl⟩, fun full => absurd (Node.isEmpty_iff.1 empty) full, rfl, rfl, rfl, rfl,
      congrArg Port.phase (State.serving_port held _), fun _ => s.serving_port_ne _⟩
  | false =>
    obtain ⟨q', idle', access⟩ := reaches_dequeue_of_full held hp phase (tgt ▸ free) instr (tgt ▸ empty)
    rw [tgt] at access
    exact ⟨_, (Reaches.of_accept hp held idle access) rest, fun e => absurd e (Node.not_isEmpty_iff.1 empty),
      fun _ => ⟨rfl, rfl⟩, rfl, rfl, rfl, rfl, (congrArg Port.phase (State.serving_port held q')).trans idle',
      fun _ => s.serving_port_ne q'⟩

end Sys2Proof.Machine
end

section
/-! PROOFS. The serial register file (`42_serial_regfile.md`): the EXEC step of SERRD and SERWR at every offset (R170 to
R183), reception (R184), and what changes the flags and the interrupt line (R181, R186). -/

namespace Sys2Proof.Machine

/-! ### The words of the file, as the spec writes them -/

/-- A CTRL write sets `TDRE` with TE in the value and leaves it without (R179). -/
theorem Serial.writeCtrl_eq (r : Serial) (v : Word32) :
    r.writeCtrl v = { r with ctrl := v, tdre := if v.getLsbD 19 then true else r.tdre } := by
  simp only [Serial.writeCtrl, teBit]
  cases v.getLsbD 19 <;> simp

/-- A DATA read lowers the line exactly when the parameter says so (R174). -/
theorem Serial.readData_eq (r : Serial) (clear : Bool) :
    r.readData clear = { r with rdrf := false, irq := if clear then false else r.irq } := by
  cases clear <;> simp [Serial.readData]

/-! ### The EXEC step (R170 to R183) -/

/-- An operation that leads to `u` and answers with the value `w`. -/
theorem State.execStep_respondValue_of_eq {s u : State} {w : Word32} (h : s.Ready) (op : BitVec 4)
    {g : State → State} {v : State → Word32} (hg : g s = u) (hv : v s = w) (active : u.active = s.active) :
    (s.execStep fun s => (g s).respondValue s.active op (v s)) = .next (u.answered (answerValue op w)) := by
  rw [State.execStep_ready h, hg, hv, ← active, State.respondValue_eq_answered]

/-- An operation that leads to `u` and answers with its opcode alone. -/
theorem State.execStep_complete_of_eq {s u : State} (h : s.Ready) (op : BitVec 4) {g : State → State} (hg : g s = u)
    (active : u.active = s.active) :
    (s.execStep fun s => (g s).complete s.active op) = .next (u.answered (op.setWidth 128)) := by
  subst hg
  exact State.execStep_complete h op active

/-- Settles O40: at a known offset SERRD is its sub-decode row by computation. -/
theorem serialReadsWithoutSideEffect : Obligations.SerialReadsWithoutSideEffect := by
  intro s ready baud stat ctrl
  have read {v : State → Word32} {w : Word32} (hv : v s = w) :
      (s.execStep fun s => s.respondValue s.active 0xB (v s)) = .next (s.answered (answerValue 0xB w)) :=
    State.execStep_respondValue_of_eq ready 0xB (g := id) rfl hv rfl
  have hbaud : exec .serrdBaud s = .next baud := read (v := fun s => s.serial.baud) rfl
  have hstat : exec .serrdStat s = .next stat := read (v := fun s => s.serial.stat) s.serial.stat_eq
  have hctrl : exec .serrdCtrl s = .next ctrl := read (v := fun s => s.serial.ctrl) rfl
  exact ⟨hbaud, hbaud, hstat, hstat, hctrl, hctrl⟩

/-- Settles O41: the effect is `Serial.readData`, with the latch read before it. -/
theorem serialDataReadClearsReceiveFlag : Obligations.SerialDataReadClearsReceiveFlag := by
  intro s ready t
  have read : exec .serrdData s = .next t :=
    State.execStep_respondValue_of_eq ready 0xB (v := fun s => s.serial.data.setWidth 32)
      (congrArg (State.withSerial · s) (s.serial.readData_eq s.cfg.serIrqClearOnRead)) rfl rfl
  exact ⟨read, read⟩

/-- Settles O42. -/
theorem serialBaudAndStatWrites : Obligations.SerialBaudAndStatWrites := by
  intro s v ready baud
  have hbaud : exec (.serwrBaud v) s = .next baud :=
    State.execStep_complete ready 0xC (g := fun s => { s with serial := { s.serial with baud := v } }) rfl
  have hstat : exec (.serwrStat v) s = .next (s.answered 0xC) := State.execStep_complete ready 0xC (g := id) rfl
  exact ⟨hbaud, hbaud, hstat, hstat⟩

/-- Settles O43. -/
theorem serialCtrlWriteSetsTransmitFlag : Obligations.SerialCtrlWriteSetsTransmitFlag := by
  intro s v ready t
  have write : exec (.serwrCtrl v) s = .next t :=
    State.execStep_complete_of_eq ready 0xC (congrArg (State.withSerial · s) (s.serial.writeCtrl_eq v)) rfl
  exact ⟨write, write⟩

/-- What a DATA write does before it answers (R180). -/
def State.writeData (v : Word32) (s : State) : State :=
  if teBit s.serial.ctrl then { s with serial := { s.serial with tdre := true } }.emit (.tx (v.setWidth 8))
  else s.diag s.active .serTxDisabled v

theorem State.writeData_of_te {s : State} (te : teBit s.serial.ctrl = true) (v : Word32) :
    s.writeData v =
      { s with serial := { s.serial with tdre := true }, history := s.history ++ [.tx (v.extractLsb' 0 8)] } := by
  rw [State.writeData, if_pos te, BitVec.setWidth_eq_extractLsb' (by decide)]
  rfl

theorem State.writeData_of_not_te {s : State} (te : teBit s.serial.ctrl = false) (v : Word32) :
    s.writeData v = s.reported 0x3 v := by
  rw [State.writeData, te, State.diag_eq_reported]
  rfl

/-- Settles O44, by TE. -/
theorem serialDataWriteForwardsOrDrops : Obligations.SerialDataWriteForwardsOrDrops := by
  intro s v ready dropped sent
  refine ⟨fun te => ?_, fun te => ?_⟩
  · have drop : exec (.serwrData v) s = .next dropped :=
      State.execStep_complete_of_eq ready 0xC (State.writeData_of_not_te te v) rfl
    exact ⟨drop, drop⟩
  · have send : exec (.serwrData v) s = .next sent :=
      State.execStep_complete_of_eq ready 0xC (State.writeData_of_te te v) rfl
    exact ⟨send, send⟩

/-- Settles O45: no register stands at the offset, so SERRD and SERWR are their "unknown" rows. -/
theorem serialUnknownOffsetsAreReported : Obligations.SerialUnknownOffsetsAreReported := by
  intro s off v ready h10 h14 h18 h1C rd wr
  have unknown : serRegAt off = none :=
    (if_neg h10).trans ((if_neg h14).trans ((if_neg h18).trans (if_neg h1C)))
  have hrd : exec (.serrdUnknown off) s = .next rd :=
    State.execStep_respondValue_of_eq ready 0xB (g := fun s => s.diag s.active .serBadRead off) (v := fun _ => 0)
      (s.diag_eq_reported .serBadRead off) rfl rfl
  have hwr : exec (.serwrUnknown off v) s = .next wr :=
    State.execStep_complete_of_eq ready 0xC (g := fun s => s.diag s.active .serBadWrite off)
      (s.diag_eq_reported .serBadWrite off) rfl
  have serrd : exec (.serrd off) s = exec (.serrdUnknown off) s := by simp only [exec, execSerrd, unknown]
  have serwr : exec (.serwr off v) s = exec (.serwrUnknown off v) s := by simp only [exec, execSerwr, unknown]
  exact ⟨hrd, serrd.trans hrd, hwr, serwr.trans hwr⟩

/-! ### Reception (R184) -/

/-- Settles O46. -/
theorem receptionLatchesOrDrops : Obligations.ReceptionLatchesOrDrops := by
  intro s b rest
  have received : step { s with schedule := .rx b :: rest } = .next (State.rx { s with schedule := rest } b) :=
    step_of_schedule (s := { s with schedule := .rx b :: rest }) rfl
  refine ⟨fun re => received.trans ?_, fun re => received.trans ?_⟩
  · rw [State.rx, reBit, if_pos re]
    rfl
  · rw [State.rx, reBit, if_neg (by rw [re]; decide), diagnosticWord_eq]
    rfl

/-! ### What changes the serial file -/

/-- An instruction's write to the serial file, which holds `r` before it; `clear` is `SER_IRQ_CLEAR_ON_READ`. -/
inductive SerialWrite (clear : Bool) (r : Serial) : Instr → Serial → Prop where
  | readData : SerialWrite clear r .serrdData (r.readData clear)
  | writeBaud (v : Word32) : SerialWrite clear r (.serwrBaud v) { r with baud := v }
  | writeCtrl (v : Word32) : SerialWrite clear r (.serwrCtrl v) (r.writeCtrl v)
  | writeData (v : Word32) (te : teBit r.ctrl = true) : SerialWrite clear r (.serwrData v) { r with tdre := true }

theorem Effect.serial {s t : State} {i : Instr} (h : Effect s i t) :
    t.serial = s.serial ∨ SerialWrite s.cfg.serIrqClearOnRead s.serial i t.serial := by
  cases h
  case readData => exact .inr .readData
  case writeBaud v => exact .inr (.writeBaud v)
  case writeCtrl v => exact .inr (.writeCtrl v)
  case writeData v te => exact .inr (.writeData v te)
  all_goals exact .inl rfl

theorem Taken.serial {s t : State} {i : Instr} (h : Taken s i t) :
    t.serial = s.serial ∨ SerialWrite s.cfg.serIrqClearOnRead s.serial i t.serial := by
  cases h
  case answer eff => exact eff.serial
  all_goals exact .inl rfl

/-- What event `e` leaves in the serial file: what was there, a byte received with RE set, or what the instruction that
runs writes. -/
inductive SerialStep (s : State) : Event → Serial → Prop where
  | same (e : Event) : SerialStep s e s.serial
  | receive (b : Byte) (re : reBit s.serial.ctrl = true) : SerialStep s (.rx b) (s.serial.receive b)
  | run (p : Nat) (r : Serial) (write : SerialWrite s.cfg.serIrqClearOnRead s.serial (s.port p).instr r) :
      SerialStep s (.run p) r

/-- Every event but reset leaves in the serial file one of the cases of `SerialStep`. -/
theorem Stepped.serial {s t : State} {e : Event} (h : Stepped s e t) (hrst : e ≠ .rst) : SerialStep s e t.serial := by
  cases h
  case run p i _ _ hi taken =>
    obtain same | write := taken.serial
    · rw [same]
      exact .same _
    · exact .run p _ (hi ▸ write)
  case rxLatched b re => exact .receive b re
  case rst => exact absurd rfl hrst
  all_goals exact .same _

/-! ### `TDRE` (R181) -/

/-- The instructions that set `TDRE`: a CTRL write with TE in the value, and a DATA write with TE set. -/
def SetsTdre (r : Serial) (i : Instr) : Prop :=
  (∃ v, i = .serwrCtrl v ∧ v.getLsbD 19 = true) ∨ ∃ v, i = .serwrData v ∧ r.ctrl.getLsbD 19 = true

theorem SerialWrite.tdre {clear : Bool} {r r' : Serial} {i : Instr} (h : SerialWrite clear r i r') :
    r'.tdre = r.tdre ∨ SetsTdre r i ∧ r'.tdre = true := by
  cases h
  case readData | writeBaud => exact .inl rfl
  case writeCtrl v =>
    rw [Serial.writeCtrl_eq]
    cases te : v.getLsbD 19 with
    | true => exact .inr ⟨.inl ⟨v, rfl, te⟩, rfl⟩
    | false => exact .inl rfl
  case writeData v te => exact .inr ⟨.inr ⟨v, rfl, te⟩, rfl⟩

/-- A reception leaves `TDRE`, and an instruction's write leaves it or is one of the two that set it. -/
theorem SerialStep.tdre {s : State} {e : Event} {r : Serial} (h : SerialStep s e r) :
    r.tdre = s.serial.tdre ∨ (∃ p, e = .run p ∧ SetsTdre s.serial (s.port p).instr) ∧ r.tdre = true := by
  cases h with
  | same | receive => exact .inl rfl
  | run p _ write => exact write.tdre.imp_right fun ⟨sets, set⟩ => ⟨⟨p, rfl, sets⟩, set⟩

/-- Settles O47. -/
theorem transmitFlagIsClearedOnlyByReset : Obligations.TransmitFlagIsClearedOnlyByReset := by
  intro s t e rest hs h hrst
  obtain same | ⟨sets, set⟩ := ((stepped_of_schedule hs h).serial hrst).tdre
  · exact ⟨fun old => same.trans old, fun old new => absurd (new.symm.trans (same.trans old)) nofun⟩
  · exact ⟨fun _ => set, fun _ _ => sets⟩

/-! ### `RDRF` and the interrupt line (R186, R225) -/

theorem SerialWrite.rdrf {clear : Bool} {r r' : Serial} {i : Instr} (h : SerialWrite clear r i r') :
    r'.rdrf = r.rdrf ∨ i = .serrdData ∧ r'.rdrf = false := by
  cases h
  case readData => exact .inr ⟨rfl, rfl⟩
  all_goals exact .inl rfl

theorem SerialWrite.irq {clear : Bool} {r r' : Serial} {i : Instr} (h : SerialWrite clear r i r') :
    r'.irq = r.irq ∨ i = .serrdData ∧ r'.irq = false := by
  cases h
  case readData =>
    rw [Serial.readData_eq]
    cases clear with
    | true => exact .inr ⟨rfl, rfl⟩
    | false => exact .inl rfl
  all_goals exact .inl rfl

/-- A flag `π` that a reception sets and that an instruction's write leaves, or a DATA read clears, rises in a reception
with RE set only and falls in a DATA read only. -/
theorem SerialStep.receiveFlag (π : Serial → Bool) {s : State} {e : Event} {r : Serial} (h : SerialStep s e r)
    (hrx : ∀ b, π (s.serial.receive b) = true)
    (hwrite : ∀ {i r'}, SerialWrite s.cfg.serIrqClearOnRead s.serial i r' →
      π r' = π s.serial ∨ i = .serrdData ∧ π r' = false) :
    (π s.serial = false ∧ π r = true → (∃ b, e = .rx b) ∧ s.serial.ctrl.getLsbD 18 = true) ∧
      (π s.serial = true ∧ π r = false → ∃ p, e = .run p ∧ (s.port p).instr = .serrdData) := by
  cases h with
  | same => simp
  | receive b re => exact ⟨fun _ => ⟨⟨b, rfl⟩, re⟩, fun ⟨_, fall⟩ => absurd ((hrx b).symm.trans fall) nofun⟩
  | run p _ write =>
    obtain same | ⟨hi, clear⟩ := hwrite write
    · simp [same]
    · exact ⟨fun ⟨_, rise⟩ => absurd (rise.symm.trans clear) nofun, fun _ => ⟨p, rfl, hi⟩⟩

/-- Settles O48. -/
theorem receiveFlagChangesOnlyByReceptionAndRead : Obligations.ReceiveFlagChangesOnlyByReceptionAndRead := by
  intro s t e rest hs h hrst
  have after := (stepped_of_schedule hs h).serial hrst
  obtain ⟨rdrfRise, rdrfFall⟩ := after.receiveFlag Serial.rdrf (fun _ => rfl) SerialWrite.rdrf
  obtain ⟨irqRise, irqFall⟩ := after.receiveFlag Serial.irq (fun _ => rfl) SerialWrite.irq
  exact ⟨(Or.elim · rdrfRise irqRise), (Or.elim · rdrfFall irqFall)⟩

end Sys2Proof.Machine
end

section
/-! PROOFS. The bus-controller register files (`43_bus_controller_regfile.md`): the EXEC step of BCRD and BCWR at every
offset (R200 to R202), and that of REALIZE (R203). -/

namespace Sys2Proof.Machine

/-- The EXEC step of a ready port's command whose node operand names a node is that of a command without one. -/
theorem State.execNodeStep_eq_execStep {s : State} {n : NodeIdx} (h : s.Ready) (hn : n.toNat < s.cfg.nNodes)
    (op : BitVec 4) (g : State → State) : s.execNodeStep op n g = s.execStep g :=
  (State.execNodeStep_ready h hn op g).trans (State.execStep_ready h g).symm

/-! ### Reads and writes (R200 to R202) -/

/-- Settles O50: at a known offset BCRD is its sub-decode row by computation. -/
theorem busControllerReads : Obligations.BusControllerReads := by
  intro s n ready hn value
  have read (π : Node → Word32) :
      (s.execNodeStep 0x9 n fun s => s.respondValue s.active 0x9 (π (s.node n))) = value (π (s.node n)) :=
    (State.execNodeStep_eq_execStep ready hn _ _).trans
      (State.execStep_respondValue_of_eq ready 0x9 (g := id) (v := fun s => π (s.node n)) rfl rfl rfl)
  have hmcr : exec (.bcrdMcr n) s = value (s.node n).mcr := read Node.mcr
  have hctrl : exec (.bcrdCtrl n) s = value (s.node n).ctrlBc := read Node.ctrlBc
  have htfr : exec (.bcrdTfr n) s = value (s.node n).tfr := read Node.tfr
  have hrfr : exec (.bcrdRfr n) s = value (s.node n).rfr := read Node.rfr
  exact ⟨hmcr, hmcr, hctrl, hctrl, htfr, htfr, hrfr, hrfr⟩

/-- Settles O51: at a known offset BCWR is its sub-decode row by computation. -/
theorem busControllerWrites : Obligations.BusControllerWrites := by
  intro s n v ready hn written
  have write (g : Node → Node) : (s.execNodeStep 0xA n fun s => (s.updNode n g).complete s.active 0xA) = written g :=
    State.execNodeStep_complete ready hn 0xA (g := fun s => s.updNode n g) rfl
  have hmcr : exec (.bcwrMcr n v) s = written fun m => { m with mcr := v } := write _
  have hctrl : exec (.bcwrCtrl n v) s = written fun m => { m with ctrlBc := v } := write _
  have htfr : exec (.bcwrTfr n v) s = written fun m => { m with tfr := v } := write _
  have hrfr : exec (.bcwrRfr n v) s = written fun m => { m with rfr := v } := write _
  exact ⟨hmcr, hmcr, hctrl, hctrl, htfr, htfr, hrfr, hrfr⟩

/-- Settles O52: no register stands at the offset, so BCRD and BCWR are their "unknown" rows. -/
theorem busControllerUnknownOffsetsAreReported : Obligations.BusControllerUnknownOffsetsAreReported := by
  intro s n off v ready hn h00 h04 h08 h0C rd wr
  have unknown : bcRegAt off = none :=
    (if_neg h00).trans ((if_neg h04).trans ((if_neg h08).trans (if_neg h0C)))
  have hrd : exec (.bcrdUnknown n off) s = .next rd :=
    (State.execNodeStep_eq_execStep ready hn _ _).trans
      (State.execStep_respondValue_of_eq ready 0x9 (g := fun s => s.diag s.active .bcBadRead off) (v := fun _ => 0)
        (s.diag_eq_reported .bcBadRead off) rfl rfl)
  have hwr : exec (.bcwrUnknown n off v) s = .next wr :=
    (State.execNodeStep_eq_execStep ready hn _ _).trans
      (State.execStep_complete_of_eq ready 0xA (g := fun s => s.diag s.active .bcBadWrite off)
        (s.diag_eq_reported .bcBadWrite off) rfl)
  have bcrd : exec (.bcrd n off) s = exec (.bcrdUnknown n off) s := by simp only [exec, execBcrd, unknown]
  have bcwr : exec (.bcwr n off v) s = exec (.bcwrUnknown n off v) s := by simp only [exec, execBcwr, unknown]
  exact ⟨hrd, bcrd.trans hrd, hwr, bcwr.trans hwr⟩

/-! ### REALIZE (R203) -/

section
variable {s : State} {n : NodeIdx} (p : Nat)

theorem State.realizeNode_of_realized (done : (s.node n).realized = true) : s.realizeNode p n = s := if_pos done

theorem State.realizeNode_of_unlinked (new : (s.node n).realized = false) (unlinked : (s.node n).busRef = false) :
    s.realizeNode p n = s.withNode n fun m => { m with realized := true } := by
  rw [State.realizeNode, new, unlinked]
  rfl

/-- A linked node is registered once its flag is set. -/
theorem State.realizeNode_of_linked (new : (s.node n).realized = false) (linked : (s.node n).busRef = true) :
    s.realizeNode p n = (s.withNode n fun m => { m with realized := true }).register p n := by
  rw [State.realizeNode, new, linked]
  rfl

end

/-- REALIZE of a node that exists leads to `u` and answers, where `u` is what its effect leads to. -/
theorem exec_realize_of_eq {s u : State} {n : NodeIdx} (ready : s.Ready) (hn : n.toNat < s.cfg.nNodes)
    (hu : s.realizeNode s.active n = u) (active : u.active = s.active) :
    exec (.realize n) s = .next (u.answered 0x8) :=
  (State.execNodeStep_eq_execStep ready hn _ _).trans
    (State.execStep_complete_of_eq ready 0x8 (g := fun s => s.realizeNode s.active n) hu active)

/-- Settles O18: a linked node is registered in each of the three cases of `Register`, whose duplicate and room tests
read what setting the flag leaves unchanged. -/
theorem realizeRegistersOnce : Obligations.RealizeRegistersOnce := by
  intro s n ready hn s'
  have registered {u : State} (new : (s.node n).realized = false) (linked : (s.node n).busRef = true)
      (hu : s'.register s'.active n = u) (active : u.active = s'.active) :
      exec (.realize n) s = .next (u.answered 0x8) :=
    exec_realize_of_eq ready hn ((State.realizeNode_of_linked s.active new linked).trans hu) active
  refine ⟨fun done => ?_, fun new unlinked => ?_, fun new linked member => ?_, fun new linked absent full => ?_,
    fun new linked absent room => ?_⟩
  · exact exec_realize_of_eq ready hn (State.realizeNode_of_realized s.active done) rfl
  · exact exec_realize_of_eq ready hn (State.realizeNode_of_unlinked s.active new unlinked) rfl
  · exact registered new linked (State.register_of_mem (s := s') member) rfl
  · exact registered new linked (State.register_of_full (s := s') absent full) rfl
  · exact registered new linked (State.register_of_room (s := s') absent room _) rfl

end Sys2Proof.Machine
end

section
/-! PROOFS. The conditions of the block (`60_exceptions.md`): no step stops, save on a port the block does not have. -/

namespace Sys2Proof.Machine

/-! ### No step stops (R220) -/

/-- A port's sequencer has a next state in every state: an IDLE port's is the state itself, another's is that of the
instruction latched there. -/
theorem State.runPort_next (s : State) (p : Nat) : ∃ t, s.runPort p = .next t := by
  unfold State.runPort
  split
  · exact ⟨s, rfl⟩
  · exact exec_next _ _

/-- The guard on the port is the only fault of a step that involves one (log entry 9). -/
theorem State.onPort_next_or_noSuchPort (s : State) (p : Nat) {f : State → Answer} (hf : ∃ t, f s = .next t) :
    (∃ t, s.onPort p f = .next t) ∨ s.cfg.nPorts ≤ p ∧ s.onPort p f = .fault (.noSuchPort p) := by
  obtain hp | hp := Nat.lt_or_ge p s.cfg.nPorts
  · rw [State.onPort_of_lt hp]
    exact .inl hf
  · exact .inr ⟨hp, if_neg (Nat.not_lt.mpr hp)⟩

/-- Reception and reset have a next state; the three events of a port have one unless the block has no such port. -/
theorem runEvent_next_or_noSuchPort (e : Event) (s : State) :
    (∃ t, runEvent e s = .next t) ∨
      ∃ p, s.cfg.nPorts ≤ p ∧ runEvent e s = .fault (.noSuchPort p) ∧
        (e = .run p ∨ e = .ack p ∨ ∃ w, e = .accept p w) := by
  cases e with
  | accept p w =>
    have answer := s.onPort_next_or_noSuchPort p (f := fun s => .next (s.accept p w)) ⟨_, rfl⟩
    exact answer.imp_right fun ⟨hp, fault⟩ => ⟨p, hp, fault, .inr (.inr ⟨w, rfl⟩)⟩
  | run p =>
    have answer := s.onPort_next_or_noSuchPort p (f := fun s => s.runPort p) (s.runPort_next p)
    exact answer.imp_right fun ⟨hp, fault⟩ => ⟨p, hp, fault, .inl rfl⟩
  | ack p =>
    have answer := s.onPort_next_or_noSuchPort p (f := fun s => .next (s.ntfAck p)) ⟨_, rfl⟩
    exact answer.imp_right fun ⟨hp, fault⟩ => ⟨p, hp, fault, .inr (.inl rfl)⟩
  | rx b => exact .inl ⟨_, rfl⟩
  | rst => exact .inl ⟨_, rfl⟩

/-- Settles O9: with nothing scheduled the state stays; a scheduled event has a next state or names a port the block
does not have. -/
theorem noStepFaultsOnPortsThatExist : Obligations.NoStepFaultsOnPortsThatExist := by
  intro s
  cases hs : s.schedule with
  | nil => exact .inl ⟨s, by rw [step, hs]⟩
  | cons e rest =>
    rw [step_of_schedule hs]
    exact (runEvent_next_or_noSuchPort e { s with schedule := rest }).imp_right fun ⟨p, hp, fault, named⟩ =>
      ⟨p, hp, fault, e, rest, rfl, named⟩

end Sys2Proof.Machine
end

section
/-! PROOFS. Reset (`70_reset_and_hazards.md`): what hardware reset leaves of a run, and that the reset state meets the
invariant. -/

namespace Sys2Proof.Machine

/-! ### The reset state (R251) -/

/-- Settles O58: with nothing registered, queued, locked or latched each part of the invariant holds. -/
theorem resetMeetsInvariant : Obligations.ResetMeetsInvariant := fun _ => State.inv_resetOf

/-! ### Hardware reset (R250) -/

@[simp] theorem State.hardReset_port (s : State) (p : Nat) : s.hardReset.port p = Port.reset p :=
  State.resetOf_port s.cfg p

@[simp] theorem State.hardReset_node (s : State) (n : NodeIdx) : s.hardReset.node n = Node.reset :=
  State.resetOf_node s.cfg n

/-- Settles O57: the step is `State.hardReset`, which makes every sequencer a `Port.reset` and every node a
`Node.reset`. -/
theorem hardwareResetAbandonsEverything : Obligations.HardwareResetAbandonsEverything := by
  intro s rest
  have reset := step_of_schedule (s := { s with schedule := .rst :: rest }) rfl
  refine ⟨_, reset, rfl, rfl, rfl, fun p => ?ports, rfl, fun n => ?nodes⟩
  case ports =>
    rw [State.cmdReady, State.ntfValid, State.hardReset_port]
    exact ⟨rfl, rfl, rfl⟩
  case nodes =>
    rw [State.hardReset_node]
    exact ⟨rfl, rfl⟩

end Sys2Proof.Machine
end
